-- ==== Sys2Proof/Word.lean ====
section
/-! DEFINITION. The data words of the block: bytes, 32-bit registers, bit-strings, symbol tables.
Only the types: whatever reads or builds a value of them stands in Decode.lean or under Machine/. -/

namespace Sys2Proof

/-- One byte of DMEM, and one symbol: "a single byte value, domain 0–255" (R8, R46). -/
abbrev Byte := BitVec 8

/-- A register value: a 32-bit unsigned number, bit 0 least significant (R10, R18). -/
abbrev Word := BitVec 32

/-- A bit-string, first bit first (R11); `true` is the bit 1. -/
abbrev BitString := List Bool

/-- A table with one entry for each symbol 0..255 (FREQ and CODE, R38). -/
abbrev Table (α : Type) := Vector α 256

end Sys2Proof
end

