-- ==== Sys2Proof/Config.lean ====
section
/-! DEFINITION. What an implementation fixes (R8's open parameters MEM_BYTES and BASE_ADDR), and the free
values: what the spec lets a model "draw freely" (R45, R124, R127). -/

namespace Sys2Proof

/-- The open parameters of the block (R8). Fixed for one machine: no step changes them.
`BUS_PROTOCOL` is open too and "not modelled" (R8, R15): no rule depends on it. -/
structure Config where
  /-- MEM_BYTES - 1, the address of the last byte of DMEM: as a 32-bit word, so that every value of the
  field is a legal parameter, 1 <= MEM_BYTES <= 2^32 (R8, R46). -/
  lastAddr : Word
  /-- BASE_ADDR, the host address of register offset 0x0000 (R8, R18). -/
  baseAddr : Nat
  deriving DecidableEq, Repr

/-- MEM_BYTES, the size of DMEM in bytes (R8, R46). -/
def Config.memBytes (c : Config) : Nat := c.lastAddr.toNat + 1

/-- The k-th unspecified 32-bit value: what a read of a result register or a window returns while BUSY
(R45, R127 H3). FREE VALUE: nothing constrains it (log entry 1). -/
opaque Config.freeWord : Nat → Word

/-- The k-th unspecified byte: what a byte of an abandoned command's DST range holds after the reset
(R124, R127 H6). FREE VALUE: nothing constrains it (log entry 2). -/
opaque Config.freeByte : Nat → Byte

end Sys2Proof
end

