-- ==== Sys2Proof/Syntax.lean ====
section
/-! DEFINITION. The command set "HTB command set, revision 1" (R2, R63): one constructor per row of
spec/opcode_table.json. A command has no operand fields (R61, R62): it takes its operands from the
configuration registers and the builder state. -/

namespace Sys2Proof

/-- The six commands of the block (R63). -/
inductive Instr where
  /-- NOP, opcode 0x00 (R78). -/
  | nop
  /-- COUNT, opcode 0x01 (R84). -/
  | count
  /-- BUILD, opcode 0x02 (R86). -/
  | build
  /-- DERIVE, opcode 0x03 (R90). -/
  | derive
  /-- ENCODE, opcode 0x04 (R96). -/
  | encode
  /-- DECODE, opcode 0x05 (R103). -/
  | decode
  deriving DecidableEq, Repr

end Sys2Proof
end

