-- ==== Sys2Proof/Machine/State.lean ====
section
/-! DEFINITION. The state of the block as plain data: every register of R18, the builder state of R38, the
`rst` input (R15), DMEM (R46); and the model's own fields: the parameters, what the environment does next, the
last answer to the host, the counter of free values. -/

namespace Sys2Proof.Machine

/-- The seven errors a command can end with (R106). Their codes are in Flags.lean. -/
inductive CmdError where
  /-- ERR_CODE 1: BUILD with NSYM = 0, ENCODE with SRC_LEN = 0. -/
  | emptyInput
  /-- ERR_CODE 2: DECODE, a header check of R98 fails. -/
  | malformedHeader
  /-- ERR_CODE 3: DECODE, R99, R100 or R102 fails. -/
  | corruptStream
  /-- ERR_CODE 4: COUNT, ENCODE or DECODE, `range_ok` of R49 is false. -/
  | range
  /-- ERR_CODE 5: ENCODE or DECODE, the output would be longer than DST_CAP. -/
  | capacity
  /-- ERR_CODE 6: DERIVE with TREE_VALID = 0. -/
  | sequence
  /-- ERR_CODE 7: a START with OPCODE 0x06..0xFF (R79). -/
  | illegalCommand
  deriving DecidableEq, Repr

/-- A node record of the arena, with the widths of R38. An internal node has symbol 0, a leaf has both links
0x1FF (R40, R85). -/
structure Node where
  weight : Word
  isLeaf : Bool
  symbol : Byte
  left : BitVec 9
  right : BitVec 9
  deriving DecidableEq, Repr

/-- The builder state (R38): the source's FrequencyTable, CodeTree and CodeTable as this block holds them,
with their validity bits (STATUS bits 3 and 4). -/
structure Builder where
  /-- FREQ[0..255], 32-bit counts (R39). -/
  freq : Table Word
  /-- NSYM (R32). -/
  nsym : BitVec 9
  /-- TOTAL (R33). -/
  total : Word
  /-- NODES, the node arena, by arena index (R40). -/
  nodes : List Node
  /-- NNODES (R34). -/
  nnodes : BitVec 10
  /-- ROOT (R35). -/
  root : BitVec 9
  /-- TREE_VALID, STATUS bit 3 (R23). -/
  treeValid : Bool
  /-- CODE[0..255], bit-strings (R41). -/
  codes : Table BitString
  /-- MAXLEN (R36). -/
  maxlen : BitVec 9
  /-- CODES_VALID, STATUS bit 4 (R23). -/
  codesValid : Bool
  deriving DecidableEq, Repr

/-- The builder state after reset (R44). -/
def Builder.reset : Builder where
  freq := Vector.replicate 256 0
  nsym := 0
  total := 0
  nodes := []
  nnodes := 0
  root := 0x1FF
  treeValid := false
  codes := Vector.replicate 256 []
  maxlen := 0
  codesValid := false

/-- DMEM: (address, byte) pairs, addresses strictly rising, no byte equal to what an unlisted address reads as
(Ops.lean gives that byte, the form, and every access). -/
abbrev Memory := List Host.Cell

/-- What acts on the block, one entry a turn: an action of the host or of the environment (R7, R71, R122), or
the engine's turn, in which a running command completes (R75). -/
inductive Event where
  /-- The host writes a register: bus address, access width in bits, data (R71 `WR`). -/
  | regWrite (addr bits : Nat) (value : Word)
  /-- The host reads a register: bus address, access width in bits (R71 `RD`). -/
  | regRead (addr bits : Nat)
  /-- The host, or another agent, writes DMEM bytes at addr, addr+1, ... (R71 `MEMW`, R127). -/
  | memWrite (addr : Nat) (bytes : List Byte)
  /-- The host reads n DMEM bytes at addr (R71 `MEMR`). -/
  | memRead (addr n : Nat)
  /-- The `rst` input takes this level (R122). -/
  | rst (level : Bool)
  /-- The engine has its turn: the running command completes, if there is one (R75). -/
  | engineTurn
  deriving DecidableEq, Repr

/-- The last answer to the host. -/
inductive Reply where
  /-- No access has been answered yet. -/
  | none
  /-- A register write got the response OK, or a DMEM write was done. -/
  | writeOk
  /-- A register read got the response OK and this value. -/
  | regData (value : Word)
  /-- A DMEM read got these bytes. -/
  | memData (bytes : List Byte)
  deriving DecidableEq, Repr

/-- The state of the block and of what stands around it (R15, R18, R38, R46). ID and VERSION are constants
(R19, R20) and CTRL, STATUS and the windows are views of these fields: RegPort.lean reads them. -/
structure State where
  /-- The parameters of this machine (R8); never changed. -/
  cfg : Config
  /-- CMD.OPCODE (R22); bits 31:8 of CMD read 0. -/
  cmd : Byte
  /-- SRC_ADDR (R24). -/
  srcAddr : Word
  /-- SRC_LEN (R25). -/
  srcLen : Word
  /-- DST_ADDR (R26). -/
  dstAddr : Word
  /-- DST_CAP (R27). -/
  dstCap : Word
  /-- CTRL.IRQ_EN (R21). -/
  irqEn : Bool
  /-- STATUS.BUSY (R23). -/
  busy : Bool
  /-- STATUS.DONE (R23). -/
  done : Bool
  /-- STATUS.ERR (R23). -/
  err : Bool
  /-- STATUS.ERR_CODE (R23). -/
  errCode : BitVec 4
  /-- OUT_LEN (R28). -/
  outLen : Word
  /-- PAD (R29). -/
  pad : BitVec 3
  /-- HDR_LEN (R30). -/
  hdrLen : BitVec 11
  /-- DATA_LEN (R31). -/
  dataLen : Word
  /-- The builder state (R38). -/
  builder : Builder
  /-- DMEM, shared with the host (R46). -/
  dmem : Memory
  /-- The level of the `rst` input (R15, R122). -/
  rst : Bool
  /-- MODEL'S OWN: what happens next, first entry first; when it is empty, only the engine is left to act
  (log entry 3). -/
  inbox : List Event
  /-- MODEL'S OWN: the last answer to the host (log entry 4). -/
  reply : Reply
  /-- MODEL'S OWN: how many free values have been drawn (log entries 1 and 2). -/
  draws : Nat
  deriving DecidableEq, Repr

/-- Why the machine stops with a fault. -/
inductive Fault where
  /-- A register access that is not 32 bits wide at a multiple of 4 (R37, R127 H4). Raised by RegPort.
  Safe: the block only answers ERROR and goes on. -/
  | badRegisterAccess
  /-- A register access while `rst` = 1 (R127 H5). Raised by RegPort. Safe: the result is unspecified. -/
  | registerAccessInReset
  /-- A DMEM write to a byte of the SRC range of a running COUNT, ENCODE or DECODE (R127 H1). Raised by HostPort.
  Safe: the result is unspecified. -/
  | srcHazard
  /-- A DMEM access to a byte of the DST range of a running ENCODE or DECODE (R127 H2). Raised by HostPort.
  Safe: the result is unspecified. -/
  | dstHazard
  /-- A host access to a DMEM address at or above MEM_BYTES, which does not exist (R46). Raised by HostPort.
  Safe: the spec gives such an access no effect. -/
  | noSuchAddress
  deriving DecidableEq, Repr

/-- Why the machine refuses. -/
inductive Refusal where
  /-- A command with no meaning yet, by its mnemonic. Raised by exec's refused arms only: there is none left.
  Safe: nothing is claimed about it. -/
  | notModelled (mnemonic : String)
  /-- A bus access outside offsets 0x0000..0x7FFF of BASE_ADDR: "the platform's business" (R37). Raised by
  RegPort. Safe: nothing is claimed about it. -/
  | outsideBlock
  deriving DecidableEq, Repr

/-- The machine right after reset (R44, R123). The parameters' values (log entry 5), the empty DMEM (log entry 6)
and the model's own fields (log entries 1 to 4) are the model's choice; every other value is the spec's. -/
def State.reset : State where
  cfg := ⟨0xFFFFFFFF, 0⟩
  cmd := 0
  srcAddr := 0
  srcLen := 0
  dstAddr := 0
  dstCap := 0
  irqEn := false
  busy := false
  done := false
  err := false
  errCode := 0
  outLen := 0
  pad := 0
  hdrLen := 0
  dataLen := 0
  builder := Builder.reset
  dmem := []
  rst := false
  inbox := []
  reply := .none
  draws := 0

end Sys2Proof.Machine
end

