-- ==== Sys2Proof/Machine/Flags.lean ====
section
/-! DEFINITION. The STATUS register and every flag of it (R23, R43), the interrupt output (R111), the error codes
(R106). -/

namespace Sys2Proof.Machine

/-- ERR_CODE of an error (R106). -/
def CmdError.code : CmdError → BitVec 4
  | .emptyInput => 1
  | .malformedHeader => 2
  | .corruptStream => 3
  | .range => 4
  | .capacity => 5
  | .sequence => 6
  | .illegalCommand => 7

/-- The value of STATUS: ERR_CODE in 11:8, CODES_VALID 4, TREE_VALID 3, ERR 2, DONE 1, BUSY 0; 31:12 and 7:5 read 0
(R23). -/
def statusWord (s : State) : Word :=
  0#20 ++ s.errCode ++ 0#3 ++ BitVec.ofBool s.builder.codesValid ++ BitVec.ofBool s.builder.treeValid ++
    BitVec.ofBool s.err ++ BitVec.ofBool s.done ++ BitVec.ofBool s.busy

/-- `irq = IRQ_EN and (DONE or ERR)`, at every instant (R111). -/
def irq (s : State) : Bool := s.irqEn && (s.done || s.err)

/-- Bit 1 of a STATUS write clears DONE (R81). -/
def clearDone (s : State) : State := { s with done := false }

/-- Bit 2 of a STATUS write clears ERR and ERR_CODE (R81). -/
def clearErr (s : State) : State := { s with err := false, errCode := 0 }

/-- A host write of `v` to STATUS: the two W1C bits, every other bit ignored (R81). -/
def writeStatus (v : Word) (s : State) : State :=
  let s1 := if v.getLsbD 1 then clearDone s else s
  if v.getLsbD 2 then clearErr s1 else s1

/-- The legal values of STATUS (R23). -/
def statusLegal (s : State) : Bool :=
  (!s.busy || (!s.done && !s.err)) && !(s.done && s.err) && (s.err == (s.errCode != 0)) &&
    s.errCode.toNat < 8 && (!s.builder.codesValid || s.builder.treeValid)

end Sys2Proof.Machine
end

