-- ==== Sys2Proof/WellFormed.lean ====
section
/-! DEFINITION. Well-formedness. A term of `Instr` carries no operand, so every term is well-formed; what can
be ill-formed is a command word (an opcode outside R63) and a register access (R37). -/

namespace Sys2Proof

/-- Every command is well-formed: the command word "has no register, immediate or mode fields" (R61). One arm
per constructor, so that a command with operands could not slip past this check. -/
def Instr.wf : Instr → Bool
  | .nop => true
  | .count => true
  | .build => true
  | .derive => true
  | .encode => true
  | .decode => true

/-- A command word is legal when its OPCODE, bits 7:0, is 0x00..0x05 (R63, R64). Bits 31:8 do not matter. -/
def CommandWord.wf (w : Word) : Bool := w.toNat % 256 < 6

/-- A register access the block accepts: 32 bits wide, at an offset that is a multiple of 4 (R37). -/
def RegAccess.wf (offset bits : Nat) : Bool := bits == 32 && offset % 4 == 0

end Sys2Proof
end

