-- ==== Sys2Proof/Decode.lean ====
section
/-! DEFINITION. The command word's decoder, total on any word, and after it the encoder (R61-R64).
Both are written from the opcode map of R63. -/

namespace Sys2Proof

/-- Why a command word has no command. -/
inductive DecodeError where
  /-- The OPCODE is 0x06..0xFF (R64). Safe: the engine answers it with the ILLEGAL_COMMAND completion R79 gives. -/
  | illegalOpcode (op : Byte)
  deriving DecidableEq, Repr

/-- OPCODE, bits 7:0 of the command word; bits 31:8 are ignored (R61, R22). -/
def opcodeField (w : Word) : Byte := w.extractLsb' 0 8

/-- The opcode map of R63. -/
def opcodeMap : List (Byte × Instr) :=
  [(0x00, .nop), (0x01, .count), (0x02, .build), (0x03, .derive), (0x04, .encode), (0x05, .decode)]

/-- The command a word selects: the row of R63 whose OPCODE is the word's bits 7:0. -/
def decode (w : Word) : Except DecodeError Instr :=
  match opcodeMap.lookup (opcodeField w) with
  | some i => .ok i
  | none => .error (.illegalOpcode (opcodeField w))

/-- The OPCODE of a command (R63). -/
def opcode : Instr → Byte
  | .nop => 0x00
  | .count => 0x01
  | .build => 0x02
  | .derive => 0x03
  | .encode => 0x04
  | .decode => 0x05

/-- The command word of a command: its OPCODE in bits 7:0, the reserved bits 31:8 zero (R61). -/
def encode (i : Instr) : Word := (opcode i).setWidth 32

/-- The command this decoder reads from a word of `nbits` bits, numbered as spec/opcode_table.json numbers them
(one 32-bit command word, bit 0 least significant; the bits above `nbits` are 0). -/
def decodeTableWord (nbits w : Nat) : Option Instr :=
  match decode (BitVec.ofNat 32 (w % 2 ^ nbits)) with
  | .ok i => some i
  | .error _ => none

end Sys2Proof
end

