-- ==== Sys2Proof/Machine/Operands.lean ====
section
/-! DEFINITION. The operands of a command: it has no operand fields (R62), only the SRC and DST ranges that the
configuration registers give (R48, R49), and which of them a running command reaches (R46, R127). -/

namespace Sys2Proof.Machine

/-- Whether the ranges [a, a+n) and [b, b+m) share a byte; an empty range shares none. The sums do not wrap (R49). -/
def rangesMeet (a n b m : Nat) : Bool := 0 < n && 0 < m && a < b + m && b < a + n

/-- `src_ok` (R49). -/
def srcOk (s : State) : Bool := s.srcAddr.toNat + s.srcLen.toNat ≤ s.cfg.memBytes

/-- `dst_ok` (R49). -/
def dstOk (s : State) : Bool := s.dstAddr.toNat + s.dstCap.toNat ≤ s.cfg.memBytes

/-- `overlap` (R49). -/
def overlap (s : State) : Bool := rangesMeet s.srcAddr.toNat s.srcLen.toNat s.dstAddr.toNat s.dstCap.toNat

/-- `range_ok`: NOP, BUILD and DERIVE "make no range check" (R49). -/
def rangeOk (i : Instr) (s : State) : Bool :=
  match i with
  | .nop => true
  | .count => srcOk s
  | .build => true
  | .derive => true
  | .encode => srcOk s && dstOk s && !overlap s
  | .decode => srcOk s && dstOk s && !overlap s

/-- Whether a command reads its SRC range (R46, R48). -/
def readsSrc (i : Instr) : Bool :=
  match i with
  | .nop => false
  | .count => true
  | .build => false
  | .derive => false
  | .encode => true
  | .decode => true

/-- Whether a command writes its DST range (R46, R48). -/
def writesDst (i : Instr) : Bool :=
  match i with
  | .nop => false
  | .count => false
  | .build => false
  | .derive => false
  | .encode => true
  | .decode => true

/-- The command word CMD holds: OPCODE in bits 7:0, bits 31:8 zero (R22). -/
def commandWord (s : State) : Word := s.cmd.setWidth 32

/-- The command CMD selects; none for an illegal OPCODE (R63, R79). -/
def selected (s : State) : Option Instr :=
  match decode (commandWord s) with
  | .ok i => some i
  | .error _ => none

/-- A command that reads its SRC range is running. -/
def srcInUse (s : State) : Bool := s.busy && (selected s).any readsSrc

/-- A command that writes its DST range is running. -/
def dstInUse (s : State) : Bool := s.busy && (selected s).any writesDst

end Sys2Proof.Machine
end

