-- ==== Sys2Proof/Machine/Ops.lean ====
section
/-! DEFINITION. The named operations: DMEM accesses (R13, R46), free draws (R124), START (R74), the two completions
(R76 and R107, the block's way of taking an error), and reset (R80, R122-R124). -/

namespace Sys2Proof.Machine

/-- What a DMEM byte that nothing has written reads as (log entry 6: DESIGN CHOICE, the spec gives DMEM no
contents). -/
def Memory.unlisted : Byte := 0

/-- The canonical form: addresses strictly rising, no byte equal to what an unlisted address reads as. -/
abbrev Memory.wf (m : Memory) : Prop := m.Pairwise (fun c d => c.1 < d.1) ∧ ∀ c ∈ m, c.2 ≠ Memory.unlisted

/-- The byte at an address. -/
def Memory.read : Memory → Nat → Byte
  | [], _ => Memory.unlisted
  | (k, v) :: m, a => if k = a then v else Memory.read m a

/-- The memory with the byte at an address replaced; keeps the canonical form. -/
def Memory.write : Memory → Nat → Byte → Memory
  | [], a, v => if v = Memory.unlisted then [] else [(a, v)]
  | (k, w) :: m, a, v =>
    if a < k then (if v = Memory.unlisted then (k, w) :: m else (a, v) :: (k, w) :: m)
    else if a = k then (if v = Memory.unlisted then m else (a, v) :: m)
    else (k, w) :: Memory.write m a v

/-- `MemRead(addr, n)`: the n bytes at addr .. addr+n-1 (R13). -/
def memRead (m : Memory) (addr n : Nat) : List Byte := (List.range n).map fun i => m.read (addr + i)

/-- `MemWrite(addr, n, v)`: the bytes of v written at addr, addr+1, ... (R13). -/
def memWrite (m : Memory) (addr : Nat) : List Byte → Memory
  | [] => m
  | b :: bs => memWrite (m.write addr b) (addr + 1) bs

/-- `n` bytes from `addr` on replaced by free values, the first of them the k-th (R124). -/
def memScramble (m : Memory) (addr k : Nat) : Nat → Memory
  | 0 => m
  | n + 1 => memScramble (m.write addr (Config.freeByte k)) (addr + 1) (k + 1) n

/-- The input of a command: the bytes of the SRC range (R48). -/
def srcBytes (s : State) : List Byte := memRead s.dmem s.srcAddr.toNat s.srcLen.toNat

/-- What a command's rule returns on success beside DONE and BUSY (R14 `Ok(updates)`): the four result
registers are 0 unless the command puts them there (R76). -/
structure Updates where
  builder : Builder
  dmem : Memory
  outLen : Nat
  pad : Nat
  hdrLen : Nat
  dataLen : Nat
  deriving DecidableEq, Repr

/-- The outcome of a command's rule: `Ok(updates)` or `Err(code)` (R14). -/
abbrev CmdResult := Except CmdError Updates

/-- The updates of a command that writes no DMEM and no result register (R76). -/
def builderUpdate (s : State) (b : Builder) : Updates :=
  { builder := b, dmem := s.dmem, outLen := 0, pad := 0, hdrLen := 0, dataLen := 0 }

/-- An accepted START (R74): the flags are cleared and the block is busy. -/
def acceptStart (s : State) : State := { s with done := false, err := false, errCode := 0, busy := true }

/-- START: accepted when the block is idle, ignored while BUSY (R74). -/
def start (s : State) : State := if s.busy then s else acceptStart s

/-- Success completion: the updates are committed, then R76. -/
def successCompletion (u : Updates) (s : State) : State :=
  { s with
    builder := u.builder, dmem := u.dmem
    outLen := BitVec.ofNat 32 u.outLen, pad := BitVec.ofNat 3 u.pad
    hdrLen := BitVec.ofNat 11 u.hdrLen, dataLen := BitVec.ofNat 32 u.dataLen
    done := true, busy := false }

/-- Error completion (R107): the command's updates are discarded. `clears` is true for ENCODE and DECODE, whose
error resets the builder state. -/
def errorCompletion (clears : Bool) (e : CmdError) (s : State) : State :=
  { s with
    builder := if clears then Builder.reset else s.builder
    outLen := 0, pad := 0, hdrLen := 0, dataLen := 0
    errCode := e.code, err := true, done := false, busy := false }

/-- The completion step, from the outcome of the command's rule (R75). -/
def complete (clears : Bool) (r : CmdResult) (s : State) : State :=
  match r with
  | .ok u => successCompletion u s
  | .error e => errorCompletion clears e s

/-- How many bytes of the abandoned command's DST range DMEM has (R124): none unless ENCODE or DECODE is running;
bytes at or above MEM_BYTES do not exist (R46). -/
def abandonedBytes (s : State) : Nat :=
  if dstInUse s then min s.dstCap.toNat (s.cfg.memBytes - s.dstAddr.toNat) else 0

/-- Reset, the same for both reset events (R122, R123): every register and builder-state entry takes its reset value;
DMEM keeps its bytes but for the DST range of an abandoned ENCODE or DECODE (R124). The parameters, the level of
`rst` and what the environment does next are not the block's to reset. -/
def resetBlock (s : State) : State :=
  { State.reset with
    cfg := s.cfg
    dmem := memScramble s.dmem s.dstAddr.toNat s.draws (abandonedBytes s)
    rst := s.rst, inbox := s.inbox, reply := s.reply
    draws := s.draws + abandonedBytes s }

/-- A host write of `v` to CTRL: bit 1 resets and the other bits are then discarded (R80); otherwise bit 2 sets IRQ_EN
(R82) and bit 0 starts the command in CMD (R74). -/
def writeCtrl (v : Word) (s : State) : State :=
  if v.getLsbD 1 then resetBlock s
  else
    let s1 := { s with irqEn := v.getLsbD 2 }
    if v.getLsbD 0 then start s1 else s1

end Sys2Proof.Machine
end

