-- ==== Sys2Proof/Machine/Control.lean ====
section
/-! DEFINITION. The control family: NOP (R78) and the completion of an illegal command (R79). -/

namespace Sys2Proof.Machine

/-- `exec_NOP() = Ok({})` (R78). -/
def nopRule (s : State) : CmdResult := .ok (builderUpdate s s.builder)

/-- NOP: the completion of a running NOP (R75, R78). -/
def execNop (s : State) : Host.Outcome State Fault Refusal := .next (complete false (nopRule s) s)

/-- `exec_ILLEGAL() = Err(ILLEGAL_COMMAND)` (R79). -/
def illegalRule : CmdResult := .error .illegalCommand

/-- The completion of an OPCODE 0x06..0xFF: ILLEGAL_COMMAND, the builder state unchanged (R79, R107). No command of the
table: the engine calls it where the decoder refuses CMD. -/
def execIllegal (s : State) : Host.Outcome State Fault Refusal := .next (complete false illegalRule s)

end Sys2Proof.Machine
end

