-- ==== Sys2Proof/Machine/Bits.lean ====
section
/-! DEFINITION. Bits, bytes and fields of the stream: MSB-first packing (R68), padding (R69), big-endian
fields (R67). -/

namespace Sys2Proof

/-- The number a bit-string writes, first bit most significant. -/
def bitsToNat (b : BitString) : Nat := b.foldl (fun n x => 2 * n + x.toNat) 0

/-- The eight bits of a byte, bit 7 first: `(B div 2^(7-t)) mod 2` for t in 0..7 (R68). -/
def byteBits (b : Byte) : BitString :=
  [b.getLsbD 7, b.getLsbD 6, b.getLsbD 5, b.getLsbD 4, b.getLsbD 3, b.getLsbD 2, b.getLsbD 1, b.getLsbD 0]

/-- `pack(b)`: each group of eight bits is a byte, its first bit the most significant (R68). R68 defines it for
lengths that are multiples of 8, and only such lengths are packed (R69, R94). -/
def pack : BitString → List Byte
  | b0 :: b1 :: b2 :: b3 :: b4 :: b5 :: b6 :: b7 :: rest =>
    BitVec.ofNat 8 (bitsToNat [b0, b1, b2, b3, b4, b5, b6, b7]) :: pack rest
  | _ => []

/-- `unpack(B)`: the bits of each byte in turn, most significant first (R68). -/
def unpack (bytes : List Byte) : BitString := bytes.flatMap byteBits

/-- `zeros(m)`, m zero bits (R11). -/
def zeros (m : Nat) : BitString := List.replicate m false

/-- `padding(L) = (8 - (L mod 8)) mod 8` (R69). -/
def padding (len : Nat) : Nat := (8 - len % 8) % 8

/-- `BE16(b0, b1)` (R67). -/
def be16 (b0 b1 : Byte) : Nat := b0.toNat * 2 ^ 8 + b1.toNat

/-- `BE32(b0, b1, b2, b3)` (R67). -/
def be32 (b0 b1 b2 b3 : Byte) : Nat :=
  b0.toNat * 2 ^ 24 + b1.toNat * 2 ^ 16 + b2.toNat * 2 ^ 8 + b3.toNat

/-- `be16_bytes(v)`, for v < 2^16 (R67). -/
def be16Bytes (v : Nat) : List Byte := [BitVec.ofNat 8 (v / 2 ^ 8), BitVec.ofNat 8 (v % 2 ^ 8)]

/-- `be32_bytes(v)`, for v < 2^32 (R67). -/
def be32Bytes (v : Nat) : List Byte :=
  [BitVec.ofNat 8 (v / 2 ^ 24 % 2 ^ 8), BitVec.ofNat 8 (v / 2 ^ 16 % 2 ^ 8),
   BitVec.ofNat 8 (v / 2 ^ 8 % 2 ^ 8), BitVec.ofNat 8 (v % 2 ^ 8)]

end Sys2Proof
end

