-- ==== Sys2Proof/Machine/Tables.lean ====
section
/-! DEFINITION. Symbol tables (FREQ and CODE, R38): the list of symbols in ascending order, and reading,
writing and making a table by symbol. -/

namespace Sys2Proof

/-- The symbols 0, 1, ..., 255 in ascending order (R85). -/
def allSymbols : List Byte := (List.range 256).map (BitVec.ofNat 8)

/-- The entry of symbol `s`. -/
def Table.entry {α : Type} (t : Table α) (s : Byte) : α := t[s.toNat]'s.isLt

/-- The table with entry `f s` for each symbol `s`. -/
def Table.tabulate {α : Type} (f : Byte → α) : Table α := ⟨(allSymbols.map f).toArray, by simp [allSymbols]⟩

/-- The table with `f` applied to each entry. -/
def Table.mapEntries {α β : Type} (f : α → β) (t : Table α) : Table β := ⟨(t.toList.map f).toArray, by simp⟩

/-- Every symbol with its entry, in ascending symbol order. -/
def Table.pairs {α : Type} (t : Table α) : List (Byte × α) := allSymbols.zip t.toList

/-- The table with the entry of `s` replaced by `v`. -/
def Table.put {α : Type} (t : Table α) (s : Byte) (v : α) : Table α := Vector.set t s.toNat v s.isLt

end Sys2Proof
end

