-- ==== Sys2Proof/Machine/Huffman.lean ====
section
/-! DEFINITION. The tree builder's functions: count (R83), build (R85), derive (R88, R89), load_builder (R92).
Frequencies and weights are natural numbers while they are computed (R12); a record is narrowed when it is
stored (R38). -/

namespace Sys2Proof.Machine

/-- `count(D)`: how often each symbol occurs (R83). -/
def countBytes (d : List Byte) : Table Nat := Table.tabulate fun s => d.count s

/-- The symbols with F[s] > 0, each with its count, in ascending symbol order (R85, R95): the source's
FrequencyTable, "mapping from Symbol to a positive integer count". -/
def presentCounts (f : Table Nat) : List (Byte × Nat) := f.pairs.filter fun e => 0 < e.2

/-- `|{ s : F[s] > 0 }|` (R32). -/
def distinctSymbols (f : Table Nat) : Nat := (presentCounts f).length

/-- The sum of F[s] over all s (R33). -/
def totalCount (f : Table Nat) : Nat := f.toList.sum

/-- FREQ as an array of naturals. -/
def freqNat (f : Table Word) : Table Nat := f.mapEntries BitVec.toNat

/-- An array of naturals as FREQ stores it: 32-bit counts (R39). -/
def freqWord (f : Table Nat) : Table Word := f.mapEntries (BitVec.ofNat 32)

/-- "No node": never a valid arena index (R40). -/
def noNode : Nat := 0x1FF

/-- `leaf(w, s)` (R85). -/
def leafNode (w : Nat) (s : Byte) : Node := ⟨BitVec.ofNat 32 w, true, s, BitVec.ofNat 9 noNode, BitVec.ofNat 9 noNode⟩

/-- `internal(w, a, b)` (R85). -/
def internalNode (w a b : Nat) : Node := ⟨BitVec.ofNat 32 w, false, 0, BitVec.ofNat 9 a, BitVec.ofNat 9 b⟩

/-- An element of the priority structure P: an arena index with its node's weight (R85). -/
structure Entry where
  weight : Nat
  index : Nat
  deriving DecidableEq, Repr

/-- The comparator of R85: (weight, index), lexicographic. -/
def Entry.before (e f : Entry) : Bool := e.weight < f.weight || (e.weight == f.weight && e.index < f.index)

/-- The least of `e :: es` by the comparator, and the others: "the i in P with the least (NODES[i].weight, i)" and
"P minus" it (R85). -/
def extractMin (e : Entry) : List Entry → Entry × List Entry
  | [] => (e, [])
  | f :: fs =>
    if f.before e then
      let r := extractMin f fs
      (r.1, e :: r.2)
    else
      let r := extractMin e fs
      (r.1, f :: r.2)

/-- The loop of R85: while P has two elements, merge the two least into a new node, the first extracted the
left child. `fuel` bounds the number of merges; each merge makes P one smaller, so |P| is enough. -/
def mergeLoop : Nat → List Node → List Entry → List Node × Nat
  | fuel + 1, nodes, e :: f :: rest =>
    let a := extractMin e (f :: rest)
    match a.2 with
    | g :: gs =>
      let b := extractMin g gs
      let w := a.1.weight + b.1.weight
      mergeLoop fuel (nodes ++ [internalNode w a.1.index b.1.index]) (b.2 ++ [⟨w, nodes.length⟩])
    | [] => (nodes, a.1.index)
  | _, nodes, e :: _ => (nodes, e.index)
  | _, nodes, [] => (nodes, noNode)

/-- The leaves of R85, in ascending symbol value. -/
def leafNodes (f : Table Nat) : List Node := (presentCounts f).map fun e => leafNode e.2 e.1

/-- The first priority structure of R85: every leaf's index with its weight. -/
def leafEntries (f : Table Nat) : List Entry := (presentCounts f).zipIdx.map fun p => ⟨p.1.2, p.2⟩

/-- `build(F)`: the node arena and the root's index (R85). -/
def buildTree (f : Table Nat) : List Node × Nat :=
  mergeLoop (distinctSymbols f) (leafNodes f) (leafEntries f)

/-- `walk(i, p)` of R88: record the path `p` at each leaf below node `i`. A path is shorter than the arena, so
the arena's length is enough fuel (R87 item 2). -/
def deriveWalk (nodes : List Node) : Nat → Nat → BitString → Table BitString → Table BitString
  | 0, _, _, c => c
  | fuel + 1, i, p, c =>
    match nodes[i]? with
    | none => c
    | some n =>
      if n.isLeaf then c.put n.symbol p
      else
        deriveWalk nodes fuel n.right.toNat (p ++ [true])
          (deriveWalk nodes fuel n.left.toNat (p ++ [false]) c)

/-- The table with every code empty (R83 `clear_codes`). -/
def noCodes : Table BitString := Vector.replicate 256 []

/-- `derive_raw(NODES, ROOT)` (R88). -/
def deriveRaw (nodes : List Node) (root : Nat) : Table BitString :=
  deriveWalk nodes nodes.length root [] noCodes

/-- `derive(NODES, ROOT)`: the effective code table; a single leaf's symbol gets the code "0" (R89). -/
def deriveCodes (nodes : List Node) (root : Nat) : Table BitString :=
  match nodes with
  | [n] => noCodes.put n.symbol [false]
  | _ => deriveRaw nodes root

/-- `max over s of len(C[s])` (R90). -/
def maxCodeLength (c : Table BitString) : Nat := (c.toList.map List.length).foldr max 0

/-- `clear_tree()` (R83). -/
def Builder.clearTree (b : Builder) : Builder :=
  { b with nodes := [], nnodes := 0, root := BitVec.ofNat 9 noNode, treeValid := false }

/-- `clear_codes()` (R83). -/
def Builder.clearCodes (b : Builder) : Builder :=
  { b with codes := noCodes, maxlen := 0, codesValid := false }

/-- The writes of a new frequency table: FREQ, NSYM, TOTAL (R84, R92). -/
def Builder.withFreq (b : Builder) (f : Table Nat) : Builder :=
  { b with freq := freqWord f, nsym := BitVec.ofNat 9 (distinctSymbols f), total := BitVec.ofNat 32 (totalCount f) }

/-- The writes of a new tree: NODES, NNODES, ROOT, TREE_VALID (R86, R92). -/
def Builder.withTree (b : Builder) (t : List Node × Nat) : Builder :=
  { b with
    nodes := t.1, nnodes := BitVec.ofNat 10 t.1.length, root := BitVec.ofNat 9 t.2, treeValid := true }

/-- The writes of a new code table: CODE, MAXLEN, CODES_VALID (R90, R92). -/
def Builder.withCodes (b : Builder) (c : Table BitString) : Builder :=
  { b with codes := c, maxlen := BitVec.ofNat 9 (maxCodeLength c), codesValid := true }

/-- `load_builder(F)`: the whole builder state rebuilt from a frequency array (R92). It "reads nothing of the
previous builder state". -/
def loadBuilder (f : Table Nat) : Builder :=
  let t := buildTree f
  ((Builder.reset.withFreq f).withTree t).withCodes (deriveCodes t.1 t.2)

end Sys2Proof.Machine
end

