-- ==== Sys2Proof/Machine/Codec.lean ====
section
/-! DEFINITION. The stream codec's functions: code concatenation (R93), header and stream layout (R65, R94, R95),
header parse (R98), payload strip (R99), the accumulator walk (R100) and the tree walk (R101). -/

namespace Sys2Proof.Machine

/-- `concat_codes(D, C)` (R93). -/
def concatCodes (d : List Byte) (c : Table BitString) : BitString := d.flatMap c.entry

/-- One header entry: the symbol, then its count, BE32 (R65, R95). -/
def headerEntry (e : Byte × Nat) : List Byte := e.1 :: be32Bytes e.2

/-- `header(F)` (R95). -/
def header (f : Table Nat) : List Byte :=
  be16Bytes (distinctSymbols f) ++ (presentCounts f).flatMap headerEntry

/-- The parts of the stream ENCODE writes (R65, R96). -/
structure Stream where
  hdr : List Byte
  pad : Nat
  data : List Byte
  deriving DecidableEq, Repr

/-- The bytes of a stream, in the order of R65. -/
def Stream.bytes (s : Stream) : List Byte := s.hdr ++ [BitVec.ofNat 8 s.pad] ++ s.data

/-- The data bytes of `bits`: padded with zero bits and packed (R94). -/
def packPadded (bits : BitString) : List Byte := pack (bits ++ zeros (padding bits.length))

/-- The stream of a byte list, given its frequency table and its codes (R96). -/
def encodeStream (d : List Byte) (f : Table Nat) (c : Table BitString) : Stream :=
  let bits := concatCodes d c
  { hdr := header f, pad := padding bits.length, data := packPadded bits }

/-- What `parse_header` returns, with the data bytes that follow the PAD byte (R98, R99). -/
structure Header where
  /-- F, the frequency table. -/
  freq : Table Nat
  /-- n, the number of distinct symbols. -/
  n : Nat
  /-- H = 2 + 5*n, the header's length. -/
  len : Nat
  /-- p, the padding value. -/
  pad : Nat
  /-- S[H+1 .. len(S)-1]. -/
  data : List Byte
  deriving DecidableEq, Repr

/-- The next `n` header entries of the stream, and the bytes after them; none where bytes are missing (R98). -/
def parseEntries : Nat → List Byte → Option (List (Byte × Nat) × List Byte)
  | 0, rest => some ([], rest)
  | n + 1, s :: c0 :: c1 :: c2 :: c3 :: rest =>
    match parseEntries n rest with
    | some (es, rest') => some ((s, be32 c0 c1 c2 c3) :: es, rest')
    | none => none
  | _ + 1, _ => none

/-- Each entry's symbol is above the one before it: `sym_k > sym_{k-1}` (R98). -/
def ascending : List (Byte × Nat) → Bool
  | e :: f :: es => e.1.toNat < f.1.toNat && ascending (f :: es)
  | _ => true

/-- The checks of R98 on the entries: strictly ascending symbols, counts of at least 1, a sum of at most 2^32-1. -/
def entriesOk (es : List (Byte × Nat)) : Bool :=
  ascending es && es.all (fun e => e.2 != 0) && decide ((es.map Prod.snd).sum ≤ 2 ^ 32 - 1)

/-- The frequency table the entries give: `F[sym_k] = cnt_k`, 0 elsewhere (R98). -/
def entriesFreq (es : List (Byte × Nat)) : Table Nat := Table.tabulate fun s => (es.lookup s).getD 0

/-- `parse_header(S)`: none is MALFORMED_HEADER (R98). Every check raises the same code, so their order cannot be
observed. -/
def parseHeader : List Byte → Option Header
  | b0 :: b1 :: rest =>
    let n := be16 b0 b1
    if n = 0 ∨ n > 256 then none
    else
      match parseEntries n rest with
      | some (es, p :: data) =>
        if entriesOk es = true ∧ p.toNat ≤ 7 then
          some { freq := entriesFreq es, n := n, len := 2 + 5 * n, pad := p.toNat, data := data }
        else none
      | some (_, []) => none
      | none => none
  | _ => none

/-- `strip_payload`: the data bits less the last `p`; none is CORRUPT_STREAM (R99). -/
def stripPayload (data : List Byte) (p : Nat) : Option BitString :=
  let bits := unpack data
  if p > bits.length then none else some (bits.take (bits.length - p))

/-- The codes of the table, each with its symbol: the entries with len(C[s]) >= 1 (R100), "bit-string code →
Symbol" read from the same table (R41). -/
def codeBook (c : Table BitString) : List (Byte × BitString) := c.pairs.filter fun e => !e.2.isEmpty

/-- The symbol whose code is `acc`: "there is an s with len(C[s]) >= 1 and C[s] = acc" (R100). -/
def symbolOf (book : List (Byte × BitString)) (acc : BitString) : Option Byte :=
  (book.find? fun e => e.2 == acc).map Prod.fst

/-- The loop of R100 with the accumulator `acc`: none is CORRUPT_STREAM. -/
def walkFrom (book : List (Byte × BitString)) (maxlen : Nat) : BitString → BitString → Option (List Byte)
  | acc, [] => if acc.isEmpty then some [] else none
  | acc, b :: bs =>
    match symbolOf book (acc ++ [b]) with
    | some s => (walkFrom book maxlen [] bs).map (s :: ·)
    | none => if acc.length + 1 > maxlen then none else walkFrom book maxlen (acc ++ [b]) bs

/-- `walk(bits, C, maxlen)`, the accumulator walk (R100): none is CORRUPT_STREAM. -/
def walk (bits : BitString) (c : Table BitString) (maxlen : Nat) : Option (List Byte) :=
  walkFrom (codeBook c) maxlen [] bits

/-- `tree_walk` for an arena of one node: every bit must be 0 (R101). -/
def singleWalk (s : Byte) : BitString → Option (List Byte)
  | [] => some []
  | b :: bs => if b then none else (singleWalk s bs).map (s :: ·)

/-- The loop of `tree_walk` from node `i` (R101): none is CORRUPT_STREAM. -/
def treeWalkFrom (nodes : List Node) (root : Nat) : Nat → BitString → Option (List Byte)
  | i, [] => if i = root then some [] else none
  | i, b :: bs =>
    match nodes[i]? with
    | none => none
    | some n =>
      let j := if b then n.right.toNat else n.left.toNat
      match nodes[j]? with
      | none => none
      | some m =>
        if m.isLeaf then (treeWalkFrom nodes root root bs).map (m.symbol :: ·)
        else treeWalkFrom nodes root j bs

/-- `tree_walk(bits, NODES, ROOT)`: the decoding an implementation may use instead of `walk` (R101). No command's
meaning calls it: R100 is normative. -/
def treeWalk (bits : BitString) (nodes : List Node) (root : Nat) : Option (List Byte) :=
  match nodes with
  | [n] => singleWalk n.symbol bits
  | _ => treeWalkFrom nodes root root bits

end Sys2Proof.Machine
end

