-- ==== Sys2Proof/Machine/Decoder.lean ====
section
/-! DEFINITION. The decoder family: DECODE (R103). -/

namespace Sys2Proof.Machine

/-- The bytes a parsed stream decodes to (R99, R100, R102): none is CORRUPT_STREAM. -/
def decodePayload (h : Header) : Option (List Byte) :=
  let codes := (loadBuilder h.freq).codes
  match stripPayload h.data h.pad with
  | none => none
  | some bits =>
    match walk bits codes (maxCodeLength codes) with
    | none => none
    | some out => if out.length = totalCount h.freq then some out else none

/-- `exec_DECODE()` (R103): RANGE, then MALFORMED_HEADER, then CAPACITY, then CORRUPT_STREAM (R108). -/
def decodeRule (s : State) : CmdResult :=
  if rangeOk .decode s then
    match parseHeader (srcBytes s) with
    | none => .error .malformedHeader
    | some h =>
      if totalCount h.freq > s.dstCap.toNat then .error .capacity
      else
        match decodePayload h with
        | none => .error .corruptStream
        | some out =>
          .ok
            { builder := loadBuilder h.freq
              dmem := memWrite s.dmem s.dstAddr.toNat out
              outLen := out.length, pad := h.pad
              hdrLen := h.len, dataLen := h.data.length }
  else .error .range

/-- DECODE: the completion of a running DECODE (R75, R103); an error clears the builder state (R107). -/
def execDecode (s : State) : Host.Outcome State Fault Refusal := .next (complete true (decodeRule s) s)

end Sys2Proof.Machine
end

