-- ==== Sys2Proof/Machine/Encoder.lean ====
section
/-! DEFINITION. The encoder family: ENCODE (R96). -/

namespace Sys2Proof.Machine

/-- The stream ENCODE makes of a byte list: its own frequency table and the codes derived from it (R92, R96). -/
def streamOf (d : List Byte) : Stream := encodeStream d (countBytes d) (loadBuilder (countBytes d)).codes

/-- `exec_ENCODE()` (R96): RANGE, then EMPTY_INPUT, then CAPACITY (R108). -/
def encodeRule (s : State) : CmdResult :=
  if rangeOk .encode s then
    if s.srcLen = 0 then .error .emptyInput
    else
      let out := streamOf (srcBytes s)
      if out.bytes.length > s.dstCap.toNat then .error .capacity
      else
        .ok
          { builder := loadBuilder (countBytes (srcBytes s))
            dmem := memWrite s.dmem s.dstAddr.toNat out.bytes
            outLen := out.bytes.length, pad := out.pad
            hdrLen := out.hdr.length, dataLen := out.data.length }
  else .error .range

/-- ENCODE: the completion of a running ENCODE (R75, R96); an error clears the builder state (R107). -/
def execEncode (s : State) : Host.Outcome State Fault Refusal := .next (complete true (encodeRule s) s)

end Sys2Proof.Machine
end

