-- ==== Sys2Proof/Machine/TreeBuilder.lean ====
section
/-! DEFINITION. The tree builder family: COUNT (R84), BUILD (R86), DERIVE (R90). -/

namespace Sys2Proof.Machine

/-- `exec_COUNT()` (R84): FREQ, NSYM and TOTAL from the SRC bytes; tree and codes cleared. -/
def countRule (s : State) : CmdResult :=
  if rangeOk .count s then
    .ok (builderUpdate s
      { s.builder.clearTree.clearCodes with
        freq := freqWord (countBytes (srcBytes s))
        nsym := BitVec.ofNat 9 (distinctSymbols (countBytes (srcBytes s)))
        total := s.srcLen })
  else .error .range

/-- COUNT: the completion of a running COUNT (R75, R84). -/
def execCount (s : State) : Host.Outcome State Fault Refusal := .next (complete false (countRule s) s)

/-- `exec_BUILD()` (R86): the tree of FREQ; codes cleared. -/
def buildRule (s : State) : CmdResult :=
  if s.builder.nsym = 0 then .error .emptyInput
  else .ok (builderUpdate s (s.builder.withTree (buildTree (freqNat s.builder.freq))).clearCodes)

/-- BUILD: the completion of a running BUILD (R75, R86). -/
def execBuild (s : State) : Host.Outcome State Fault Refusal := .next (complete false (buildRule s) s)

/-- `exec_DERIVE()` (R90): the effective code table of the tree. -/
def deriveRule (s : State) : CmdResult :=
  if s.builder.treeValid then
    .ok (builderUpdate s (s.builder.withCodes (deriveCodes s.builder.nodes s.builder.root.toNat)))
  else .error .sequence

/-- DERIVE: the completion of a running DERIVE (R75, R90). -/
def execDerive (s : State) : Host.Outcome State Fault Refusal := .next (complete false (deriveRule s) s)

end Sys2Proof.Machine
end

