-- ==== Sys2Proof/Machine/RegPort.lean ====
section
/-! DEFINITION. The `reg` port: the register map (R18), what each register reads as (R19-R41, R45), what a write
does (R21-R27, R37, R77, R80-R82), and which accesses are accepted (R37, R127). -/

namespace Sys2Proof.Machine

/-- The registers and window words of R18. -/
inductive Reg where
  | id | version | ctrl | cmd | status | srcAddr | srcLen | dstAddr | dstCap
  | outLen | pad | hdrLen | dataLen | nsym | total | nnodes | root | maxlen
  /-- FREQ[s] (R39). -/
  | freq (s : Byte)
  /-- NODE[i].WEIGHT (R40). -/
  | nodeWeight (i : Fin 511)
  /-- NODE[i].LINK (R40). -/
  | nodeLink (i : Fin 511)
  /-- Word w of CODE[s]: 0 is LEN, 1..8 are BITS[0..7], 9..15 read 0 (R41). -/
  | code (s : Byte) (w : Fin 16)
  deriving DecidableEq, Repr

/-- The byte offset of a register (R18, R39-R41). -/
def regOffset : Reg → Nat
  | .id => 0x0000
  | .version => 0x0004
  | .ctrl => 0x0008
  | .cmd => 0x000C
  | .status => 0x0010
  | .srcAddr => 0x0014
  | .srcLen => 0x0018
  | .dstAddr => 0x001C
  | .dstCap => 0x0020
  | .outLen => 0x0024
  | .pad => 0x0028
  | .hdrLen => 0x002C
  | .dataLen => 0x0030
  | .nsym => 0x0034
  | .total => 0x0038
  | .nnodes => 0x003C
  | .root => 0x0040
  | .maxlen => 0x0044
  | .freq s => 0x0400 + 4 * s.toNat
  | .nodeWeight i => 0x1000 + 8 * i.val
  | .nodeLink i => 0x1004 + 8 * i.val
  | .code s w => 0x4000 + 64 * s.toNat + 4 * w.val

/-- The eighteen registers below the windows, by offset div 4 (R18). -/
def plainRegs : List Reg :=
  [.id, .version, .ctrl, .cmd, .status, .srcAddr, .srcLen, .dstAddr, .dstCap,
   .outLen, .pad, .hdrLen, .dataLen, .nsym, .total, .nnodes, .root, .maxlen]

/-- The register at a byte offset that is a multiple of 4, below 0x8000; none for a reserved offset (R18). -/
def regAt (off : Nat) : Option Reg :=
  if off < 0x0400 then plainRegs[off / 4]?
  else if off < 0x0800 then some (.freq (BitVec.ofNat 8 ((off - 0x0400) / 4)))
  else if off < 0x1000 then none
  else if off < 0x1FF8 then
    if (off - 0x1000) % 8 = 0 then some (.nodeWeight (Fin.ofNat 511 ((off - 0x1000) / 8)))
    else some (.nodeLink (Fin.ofNat 511 ((off - 0x1000) / 8)))
  else if off < 0x4000 then none
  else if off < 0x8000 then
    some (.code (BitVec.ofNat 8 ((off - 0x4000) / 64)) (Fin.ofNat 16 ((off - 0x4000) % 64 / 4)))
  else none

/-- ID, the ASCII bytes "HUFF" (R19). -/
def idValue : Word := 0x48554646

/-- VERSION: SPEC_REV 7, HW_REV 1 (R20). -/
def versionValue : Word := 0x00070001

/-- The LINK word of a node: IS_LEAF 31, SYMBOL 25:18, RIGHT 17:9, LEFT 8:0, 30:26 read 0 (R40). -/
def linkWord (n : Node) : Word := BitVec.ofBool n.isLeaf ++ 0#5 ++ n.symbol ++ n.right ++ n.left

/-- The WEIGHT word of node i; 0 where there is no node (R40). -/
def nodeWeightWord (b : Builder) (i : Nat) : Word :=
  match b.nodes[i]? with
  | some n => n.weight
  | none => 0

/-- The LINK word of node i; 0 where there is no node (R40). -/
def nodeLinkWord (b : Builder) (i : Nat) : Word :=
  match b.nodes[i]? with
  | some n => linkWord n
  | none => 0

/-- BITS[w] of a code: code bit 32*w + j is at bit 31 - j; bits past the code read 0 (R41). -/
def codeBitsWord (c : BitString) (w : Nat) : Word :=
  BitVec.ofNat 32 (bitsToNat ((List.range 32).map fun j => c.getD (32 * w + j) false))

/-- Word w of a CODE window entry (R41). -/
def codeWord (c : BitString) (w : Nat) : Word :=
  if w = 0 then (BitVec.ofNat 9 c.length).setWidth 32
  else if w ≤ 8 then codeBitsWord c (w - 1)
  else 0

/-- What a register reads as while the block is idle (R19-R41). No read has a side effect (R37). -/
def readReg (s : State) : Reg → Word
  | .id => idValue
  | .version => versionValue
  | .ctrl => (BitVec.ofBool s.irqEn).setWidth 32 <<< 2
  | .cmd => s.cmd.setWidth 32
  | .status => statusWord s
  | .srcAddr => s.srcAddr
  | .srcLen => s.srcLen
  | .dstAddr => s.dstAddr
  | .dstCap => s.dstCap
  | .outLen => s.outLen
  | .pad => s.pad.setWidth 32
  | .hdrLen => s.hdrLen.setWidth 32
  | .dataLen => s.dataLen
  | .nsym => s.builder.nsym.setWidth 32
  | .total => s.builder.total
  | .nnodes => s.builder.nnodes.setWidth 32
  | .root => s.builder.root.setWidth 32
  | .maxlen => s.builder.maxlen.setWidth 32
  | .freq x => s.builder.freq.entry x
  | .nodeWeight i => nodeWeightWord s.builder i.val
  | .nodeLink i => nodeLinkWord s.builder i.val
  | .code x w => codeWord (s.builder.codes.entry x) w.val

/-- The registers that read their current value while BUSY; every other one returns an unspecified value (R45). -/
def steadyWhileBusy : Reg → Bool
  | .id | .version | .ctrl | .cmd | .status | .srcAddr | .srcLen | .dstAddr | .dstCap => true
  | _ => false

/-- A read of the register at an accepted offset: the value, and the state with the free value drawn where the read is
unspecified (R37, R45). A reserved offset reads 0. -/
def readAt (off : Nat) (s : State) : Word × State :=
  match regAt off with
  | none => (0, s)
  | some r =>
    if s.busy && !steadyWhileBusy r then (Config.freeWord s.draws, { s with draws := s.draws + 1 })
    else (readReg s r, s)

/-- A write of `v` to a register (R21-R27, R37): CTRL and STATUS always act; CMD and the configuration registers ignore a
write while BUSY (R77); a read-only register ignores every write. -/
def writeReg (r : Reg) (v : Word) (s : State) : State :=
  match r with
  | .ctrl => writeCtrl v s
  | .status => writeStatus v s
  | .cmd => if s.busy then s else { s with cmd := opcodeField v }
  | .srcAddr => if s.busy then s else { s with srcAddr := v }
  | .srcLen => if s.busy then s else { s with srcLen := v }
  | .dstAddr => if s.busy then s else { s with dstAddr := v }
  | .dstCap => if s.busy then s else { s with dstCap := v }
  | _ => s

/-- A write of `v` at an accepted offset; a reserved offset ignores it (R37). -/
def writeAt (off : Nat) (v : Word) (s : State) : State :=
  match regAt off with
  | none => s
  | some r => writeReg r v s

/-- The offset of a bus address from BASE_ADDR, where the block decodes it: 0x0000..0x7FFF (R8, R18, R37). -/
def offsetOf (c : Config) (addr : Nat) : Option Nat :=
  if c.baseAddr ≤ addr ∧ addr < c.baseAddr + 0x8000 then some (addr - c.baseAddr) else none

/-- The checks of a register access before it acts: outside the block (R37), `rst` = 1 (H5), not 32-bit aligned (H4).
`act` is the access at its offset. -/
def withAccess (addr bits : Nat) (s : State) (act : Nat → State) : Host.Outcome State Fault Refusal :=
  match offsetOf s.cfg addr with
  | none => .refused .outsideBlock
  | some off =>
    if s.rst then .fault .registerAccessInReset
    else if RegAccess.wf off bits then .next (act off)
    else .fault .badRegisterAccess

/-- The host writes a register (R71 `WR`). -/
def hostRegWrite (addr bits : Nat) (v : Word) (s : State) : Host.Outcome State Fault Refusal :=
  withAccess addr bits s fun off => { writeAt off v s with reply := .writeOk }

/-- The host reads a register (R71 `RD`). -/
def hostRegRead (addr bits : Nat) (s : State) : Host.Outcome State Fault Refusal :=
  withAccess addr bits s fun off => { (readAt off s).2 with reply := .regData (readAt off s).1 }

end Sys2Proof.Machine
end

