-- ==== Sys2Proof/Machine/HostPort.lean ====
section
/-! DEFINITION. What the host and the environment do to the block between completions (R7): register accesses, DMEM
accesses with their hazards (R127 H1, H2), the `rst` input (R122). -/

namespace Sys2Proof.Machine

/-- Whether DMEM has every byte of addr .. addr+n-1 (R46). -/
def inMemory (s : State) (addr n : Nat) : Bool := n == 0 || addr + n ≤ s.cfg.memBytes

/-- Whether addr .. addr+n-1 meets the SRC range of a running COUNT, ENCODE or DECODE (R127 H1). -/
def meetsSrc (s : State) (addr n : Nat) : Bool :=
  srcInUse s && rangesMeet addr n s.srcAddr.toNat s.srcLen.toNat

/-- Whether addr .. addr+n-1 meets the DST range of a running ENCODE or DECODE (R127 H2). -/
def meetsDst (s : State) (addr n : Nat) : Bool :=
  dstInUse s && rangesMeet addr n s.dstAddr.toNat s.dstCap.toNat

/-- The host writes DMEM bytes (R71 `MEMW`): a hazard on the SRC or DST range of a running command (H1, H2). DESIGN
CHOICE (log entry 14), safe: where more than one check fails, an address that does not exist is reported first, then H1,
then H2; no rule gives an order. -/
def hostMemWrite (addr : Nat) (bytes : List Byte) (s : State) : Host.Outcome State Fault Refusal :=
  if !inMemory s addr bytes.length then .fault .noSuchAddress
  else if meetsSrc s addr bytes.length then .fault .srcHazard
  else if meetsDst s addr bytes.length then .fault .dstHazard
  else .next { s with dmem := memWrite s.dmem addr bytes, reply := .writeOk }

/-- The host reads DMEM bytes (R71 `MEMR`): a hazard on the DST range of a running command only (H2); reads of the SRC
range "are allowed" (R127). DESIGN CHOICE (log entry 14), safe: an address that does not exist is reported before H2. -/
def hostMemRead (addr n : Nat) (s : State) : Host.Outcome State Fault Refusal :=
  if !inMemory s addr n then .fault .noSuchAddress
  else if meetsDst s addr n then .fault .dstHazard
  else .next { s with reply := .memData (memRead s.dmem addr n) }

/-- The `rst` input takes a level (R122): 1 resets the block and holds it in its reset state; 0 releases it. -/
def setRst (level : Bool) (s : State) : Host.Outcome State Fault Refusal :=
  if level then .next { resetBlock s with rst := true } else .next { s with rst := false }

end Sys2Proof.Machine
end

