-- ==== Sys2Proof/Machine/Engine.lean ====
section
/-! DEFINITION. The engine's turn (R75), an entry of the inbox, and placing a command for the next step. -/

namespace Sys2Proof.Machine

/-- The completion step of the running command: the one whose OPCODE is in CMD (R74, R75); an OPCODE without a command
completes with ILLEGAL_COMMAND (R79). -/
def completeSelected (s : State) : Host.Outcome State Fault Refusal :=
  match selected s with
  | some i => exec i s
  | none => execIllegal s

/-- The engine's turn: completion, "enabled exactly when STATUS.BUSY = 1" (R75), and never while `rst` holds the block in
its reset state (R122). -/
def engineTurn (s : State) : Host.Outcome State Fault Refusal :=
  if s.busy && !s.rst then completeSelected s else .next s

/-- One entry of the inbox acts. -/
def act (e : Event) (s : State) : Host.Outcome State Fault Refusal :=
  match e with
  | .regWrite addr bits v => hostRegWrite addr bits v s
  | .regRead addr bits => hostRegRead addr bits s
  | .memWrite addr bytes => hostMemWrite addr bytes s
  | .memRead addr n => hostMemRead addr n s
  | .rst level => setRst level s
  | .engineTurn => engineTurn s

/-- The inbox with the engine first. -/
def engineFirst : List Event → List Event
  | [] => []
  | e :: es => .engineTurn :: e :: es

/-- The state in which the host has written the command word `w` to CMD and a START has been accepted, and the next turn
is the engine's (R74). -/
def placeCommand (w : Word) (s : State) : State :=
  { acceptStart { s with cmd := opcodeField w } with rst := false, inbox := engineFirst s.inbox }

end Sys2Proof.Machine
end

