-- ==== Sys2Proof/Machine/Step.lean ====
section
/-! DEFINITION. One step: the first entry of the inbox acts; with the inbox empty, only the engine is left to act
(R7, R75). -/

namespace Sys2Proof.Machine

/-- One step of the machine. An empty inbox leaves the turn to the engine, so a running command completes after finitely
many steps, whatever the host does before (R75, R131: weak fairness). -/
def step (s : State) : Host.Outcome State Fault Refusal :=
  match s.inbox with
  | [] => engineTurn s
  | e :: es => act e { s with inbox := es }

/-- The state whose very next step runs the command word `w` (of `nbits` bits). The block has no program counter and fetches
nothing (R17): a command is placed by a write of CMD and an accepted START (log entry 7). -/
def State.withFetchWord (s : State) (nbits w : Nat) : State := placeCommand (BitVec.ofNat 32 (w % 2 ^ nbits)) s

end Sys2Proof.Machine
end

