-- ==== Sys2Proof/Machine/HostProgram.lean ====
section
/-! DEFINITION. The host program notation of R71 and the pseudo-operations of R72, as the entries of the inbox they
stand for. -/

namespace Sys2Proof.Machine

/-- `WR <REG>, <value>`: one 32-bit write at the register's offset from BASE_ADDR (R71). -/
def hostWR (c : Config) (r : Reg) (v : Word) : Event := .regWrite (c.baseAddr + regOffset r) 32 v

/-- `RD <REG>`: one 32-bit read at the register's offset from BASE_ADDR (R71). -/
def hostRD (c : Config) (r : Reg) : Event := .regRead (c.baseAddr + regOffset r) 32

/-- `MEMW <addr>, <b0> <b1> ...` (R71). -/
def hostMEMW (addr : Nat) (bytes : List Byte) : Event := .memWrite addr bytes

/-- `MEMR <addr>, <n>` (R71). -/
def hostMEMR (addr n : Nat) : Event := .memRead addr n

/-- `POLL`: reads of STATUS until BUSY reads 0 (R71). `k` reads come before the completion and one after it: every run
of POLL is one of these, for some finite `k` (R131). -/
def hostPOLL (c : Config) (k : Nat) : List Event :=
  List.replicate k (hostRD c .status) ++ [.engineTurn, hostRD c .status]

/-- `RUN <MNEMONIC>` with the IRQ_EN value the program wants kept (R72). -/
def hostRUN (c : Config) (i : Instr) (ie : Bool) (k : Nat) : List Event :=
  [hostWR c .cmd (encode i), hostWR c .ctrl (if ie then 0x5 else 0x1)] ++ hostPOLL c k

/-- `CLR` (R72). -/
def hostCLR (c : Config) : Event := hostWR c .status 0x6

/-- `SRST` (R72). -/
def hostSRST (c : Config) : Event := hostWR c .ctrl 0x2

/-- `SETIO <sa>, <sl>, <da>, <dc>` (R72). -/
def hostSETIO (c : Config) (sa sl da dc : Word) : List Event :=
  [hostWR c .srcAddr sa, hostWR c .srcLen sl, hostWR c .dstAddr da, hostWR c .dstCap dc]

end Sys2Proof.Machine
end

