-- ==== Sys2Proof/Safety.lean ====
section
/-! DEFINITION. What claims call a sound state: the builder invariants of R38, the legal STATUS values of R23, DMEM in
canonical form and inside the address space, the block held in its reset state while `rst` = 1. -/

namespace Sys2Proof.Machine

/-- The five invariants of R38, numbered as there, with the widths' side facts of R34 to R36. -/
structure BuilderInv (b : Builder) : Prop where
  /-- 1: NSYM counts the symbols of FREQ. -/
  nsym : b.nsym.toNat = distinctSymbols (freqNat b.freq)
  /-- 1: TOTAL is the sum of FREQ. -/
  total : b.total.toNat = totalCount (freqNat b.freq)
  /-- 2: without a tree, nothing of a tree is left. -/
  noTree : b.treeValid = false → b.nodes = [] ∧ b.nnodes = 0 ∧ b.root = 0x1FF
  /-- 3: the tree is that of FREQ. -/
  tree : b.treeValid = true → 1 ≤ b.nsym.toNat ∧ (b.nodes, b.root.toNat) = buildTree (freqNat b.freq)
  /-- NNODES is the number of nodes (R34). -/
  nnodes : b.nnodes.toNat = b.nodes.length
  /-- 4: without a code table, nothing of one is left. -/
  noCodes : b.codesValid = false → (∀ x, b.codes.entry x = []) ∧ b.maxlen = 0
  /-- 5: the code table is the effective one of the tree. -/
  codes : b.codesValid = true →
    b.treeValid = true ∧ b.codes = deriveCodes b.nodes b.root.toNat ∧ b.maxlen.toNat = maxCodeLength b.codes

/-- Every register and builder-state entry has its reset value (R44, R123). -/
def atReset (s : State) : Prop :=
  s = { State.reset with
        cfg := s.cfg, dmem := s.dmem, rst := s.rst, inbox := s.inbox, reply := s.reply, draws := s.draws }

/-- A sound state. -/
structure StateInv (s : State) : Prop where
  /-- STATUS has a legal value (R23). -/
  status : statusLegal s = true
  /-- The builder invariants hold (R38). -/
  builder : BuilderInv s.builder
  /-- DMEM keeps its canonical form. -/
  memForm : Memory.wf s.dmem
  /-- DMEM holds bytes at addresses 0 .. MEM_BYTES-1 only (R46). -/
  memRange : ∀ c ∈ s.dmem, c.1 < s.cfg.memBytes
  /-- The block "holds its reset state for as long as `rst` = 1" (R122). -/
  held : s.rst = true → atReset s

/-- What no completion writes: the configuration registers, CMD, IRQ_EN (R48, R76, R107), and what is not the
block's. -/
def completionKeeps (s t : State) : Prop :=
  t.cfg = s.cfg ∧ t.cmd = s.cmd ∧ t.srcAddr = s.srcAddr ∧ t.srcLen = s.srcLen ∧ t.dstAddr = s.dstAddr ∧
    t.dstCap = s.dstCap ∧ t.irqEn = s.irqEn ∧ t.rst = s.rst ∧ t.inbox = s.inbox ∧ t.reply = s.reply ∧
    t.draws = s.draws

/-- Every byte of DMEM reads as before. -/
def dmemKept (s t : State) : Prop := ∀ a, t.dmem.read a = s.dmem.read a

/-- The four result registers read 0 (R76, R107). -/
def resultsZero (t : State) : Prop := t.outLen = 0 ∧ t.pad = 0 ∧ t.hdrLen = 0 ∧ t.dataLen = 0

/-- The flags after a success completion: DONE is 1, BUSY is 0, ERR and ERR_CODE are as they were (R76). -/
def flagsDone (s t : State) : Prop :=
  t.busy = false ∧ t.done = true ∧ t.err = s.err ∧ t.errCode = s.errCode

/-- The flags after an error completion with this code (R107). -/
def flagsError (code : BitVec 4) (t : State) : Prop :=
  t.busy = false ∧ t.done = false ∧ t.err = true ∧ t.errCode = code

/-- An error completion of COUNT, BUILD, DERIVE or an illegal command: nothing but STATUS and the result registers
changes (R107). -/
def failedKeepingBuilder (code : BitVec 4) (s t : State) : Prop :=
  flagsError code t ∧ resultsZero t ∧ t.builder = s.builder ∧ dmemKept s t ∧ completionKeeps s t

/-- An error completion of ENCODE or DECODE: the builder state has its reset values (R107). -/
def failedClearingBuilder (code : BitVec 4) (s t : State) : Prop :=
  flagsError code t ∧ resultsZero t ∧ t.builder = Builder.reset ∧ dmemKept s t ∧ completionKeeps s t

/-- Every DMEM byte outside the n bytes at `addr` reads as before. -/
def dmemKeptOutside (addr n : Nat) (s t : State) : Prop :=
  ∀ a, a < addr ∨ addr + n ≤ a → t.dmem.read a = s.dmem.read a

/-- The value every register reads as after reset (R18, R123). -/
def resetValue : Reg → Word
  | .id => 0x48554646
  | .version => 0x00070001
  | .root => 0x000001FF
  | _ => 0

/-- The indices of all children in an arena, in arena order (R40). -/
def childIndices (nodes : List Node) : List Nat :=
  nodes.flatMap fun n => if n.isLeaf then [] else [n.left.toNat, n.right.toNat]

end Sys2Proof.Machine
end

