-- ==== Sys2Proof/Certificates/Slice0/Obligations.lean ====
section
/-! DEFINITION. The statements for the provers, in the order of OBLIGATIONS.json. Each docstring names the rules the
statement formalises. Addresses of register accesses are bus addresses: BASE_ADDR plus the register's offset (R18). The
fields inbox, reply and draws are the model's own (log entries 3, 4 and 1): they say who acts, what was answered and which
free value comes next. -/

open Sys2Proof Sys2Proof.Machine

/-! Encodings: the command word (R61-R64) and the register map (R18) -/

/-- R63: each command's OPCODE in bits 7:0 of the command word selects it, whatever bits 31:8 are, and 0x06..0xFF select
none. -/
def Obligations.OpcodeMapDecides : Prop :=
  ∀ w : Word,
    (decode w = .ok .nop ↔ w.extractLsb' 0 8 = 0x00) ∧
    (decode w = .ok .count ↔ w.extractLsb' 0 8 = 0x01) ∧
    (decode w = .ok .build ↔ w.extractLsb' 0 8 = 0x02) ∧
    (decode w = .ok .derive ↔ w.extractLsb' 0 8 = 0x03) ∧
    (decode w = .ok .encode ↔ w.extractLsb' 0 8 = 0x04) ∧
    (decode w = .ok .decode ↔ w.extractLsb' 0 8 = 0x05) ∧
    ((∃ e, decode w = .error e) ↔ 0x06 ≤ (w.extractLsb' 0 8).toNat)

/-- R61, R63: some command words written out, with reserved bits set in some. -/
def Obligations.SampleCommandWordsDecode : Prop :=
  decode 0x00000000 = .ok .nop ∧ decode 0x00000001 = .ok .count ∧ decode 0xFFFFFF02 = .ok .build ∧
    decode 0x80000003 = .ok .derive ∧ decode 0x00000004 = .ok .encode ∧ decode 0x00000105 = .ok .decode ∧
    decode 0x00000006 = .error (.illegalOpcode 0x06) ∧ decode 0x000001FF = .error (.illegalOpcode 0xFF) ∧
    decodeTableWord 8 5 = some .decode ∧ decodeTableWord 8 0x86 = none

/-- R61, R63: the decoder inverts the encoder, and the encoder gives back a legal word with its reserved bits zero. -/
def Obligations.CommandWordRoundTrip : Prop :=
  (∀ i : Instr, i.wf = true ∧ decode (encode i) = .ok i ∧ CommandWord.wf (encode i) = true) ∧
    ∀ (w : Word) (i : Instr), decode w = .ok i → encode i = w &&& 0x000000FF

/-- R18, R39-R41: the register map. Every register has an aligned offset below 0x8000, no two registers share one, and
the offsets with no register are exactly the reserved ones. -/
def Obligations.RegisterMapRoundTrip : Prop :=
  (∀ r : Reg, regOffset r % 4 = 0 ∧ regOffset r < 0x8000 ∧ regAt (regOffset r) = some r) ∧
    (∀ off r, off % 4 = 0 → regAt off = some r → regOffset r = off) ∧
    ∀ off, off % 4 = 0 →
      (regAt off = none ↔
        (0x0048 ≤ off ∧ off ≤ 0x03FC) ∨ (0x0800 ≤ off ∧ off ≤ 0x0FFC) ∨ (0x1FF8 ≤ off ∧ off ≤ 0x3FFC) ∨
          0x8000 ≤ off)

/-! Reading registers (R18-R41, R45) -/

/-- R19, R20: ID and VERSION read their constants in every state, at offsets 0x0000 and 0x0004, and no write changes
anything. -/
def Obligations.IdentityRegistersAreConstant : Prop :=
  ∀ (s : State) (v : Word),
    regAt 0x0000 = some .id ∧ regAt 0x0004 = some .version ∧
    readReg s .id = 0x48554646 ∧ readReg s .version = 0x00070001 ∧
    writeReg .id v s = s ∧ writeReg .version v s = s

/-- R37: a 32-bit aligned read of an idle block answers the register's value, 0 at a reserved offset, and changes nothing
else: "No register read has a side effect". R19-R36, R39: what each register and each FREQ word answers, by its offset: its
own field, zero-extended. STATUS, NODE and CODE words have layouts of their own, stated below. -/
def Obligations.IdleReadReturnsRegister : Prop :=
  (∀ (s : State) (off : Nat), s.busy = false → s.rst = false → off < 0x8000 → off % 4 = 0 →
    (∀ r, regAt off = some r →
      hostRegRead (s.cfg.baseAddr + off) 32 s = .next { s with reply := .regData (readReg s r) }) ∧
    (regAt off = none → hostRegRead (s.cfg.baseAddr + off) 32 s = .next { s with reply := .regData 0 })) ∧
  ∀ s : State, s.busy = false → s.rst = false →
    (∀ e ∈ [(0x0000, 0x48554646), (0x0004, 0x00070001), (0x0008, if s.irqEn then 4 else 0),
        (0x000C, s.cmd.setWidth 32), (0x0010, statusWord s), (0x0014, s.srcAddr), (0x0018, s.srcLen),
        (0x001C, s.dstAddr), (0x0020, s.dstCap), (0x0024, s.outLen), (0x0028, s.pad.setWidth 32),
        (0x002C, s.hdrLen.setWidth 32), (0x0030, s.dataLen), (0x0034, s.builder.nsym.setWidth 32),
        (0x0038, s.builder.total), (0x003C, s.builder.nnodes.setWidth 32), (0x0040, s.builder.root.setWidth 32),
        ((0x0044 : Nat), (s.builder.maxlen.setWidth 32 : Word))],
      hostRegRead (s.cfg.baseAddr + e.1) 32 s = .next { s with reply := .regData e.2 }) ∧
    ∀ x : Byte, hostRegRead (s.cfg.baseAddr + 0x0400 + 4 * x.toNat) 32 s =
      .next { s with reply := .regData (s.builder.freq.entry x) }

/-- R45: while BUSY, the nine steady registers read their current values, a reserved offset reads 0, and every other
register returns a free value and changes nothing else; after a completion every register reads what it holds. That the
free value is `Config.freeWord` at draws, and that draws then goes up by one, is the model's choice (log entry 1, DESIGN
CHOICE): R45 says only that a model draws the value freely. -/
def Obligations.BusyReadsAreSteadyOrFree : Prop :=
  (∀ (s : State) (r : Reg), s.busy = true → s.rst = false →
    (r ∈ [Reg.id, .version, .ctrl, .cmd, .status, .srcAddr, .srcLen, .dstAddr, .dstCap] →
      hostRegRead (s.cfg.baseAddr + regOffset r) 32 s = .next { s with reply := .regData (readReg s r) }) ∧
    (r ∉ [Reg.id, .version, .ctrl, .cmd, .status, .srcAddr, .srcLen, .dstAddr, .dstCap] →
      hostRegRead (s.cfg.baseAddr + regOffset r) 32 s =
        .next { s with reply := .regData (Config.freeWord s.draws), draws := s.draws + 1 })) ∧
  (∀ (s : State) (off : Nat), s.busy = true → s.rst = false → off < 0x8000 → off % 4 = 0 → regAt off = none →
    hostRegRead (s.cfg.baseAddr + off) 32 s = .next { s with reply := .regData 0 }) ∧
  ∀ (i : Instr) (s t : State) (r : Reg), exec i s = .next t → readAt (regOffset r) t = (readReg t r, t)

/-- R37, R127 H4 and H5: an access that is not 32-bit aligned faults, and so does any access while `rst` = 1; one outside
the block's 0x8000 bytes is not the block's. Where more than one holds, the order (outside the block, then `rst` = 1, then
width and alignment) is the model's choice (log entry 8, DESIGN CHOICE): no rule gives one. -/
def Obligations.UnacceptedAccessesStop : Prop :=
  ∀ (s : State) (addr bits : Nat) (v : Word),
    ((addr < s.cfg.baseAddr ∨ s.cfg.baseAddr + 0x8000 ≤ addr) →
      hostRegRead addr bits s = .refused .outsideBlock ∧ hostRegWrite addr bits v s = .refused .outsideBlock) ∧
    ∀ off, addr = s.cfg.baseAddr + off → off < 0x8000 →
      (s.rst = true →
        hostRegRead addr bits s = .fault .registerAccessInReset ∧
        hostRegWrite addr bits v s = .fault .registerAccessInReset) ∧
      (s.rst = false → bits ≠ 32 ∨ off % 4 ≠ 0 →
        hostRegRead addr bits s = .fault .badRegisterAccess ∧
        hostRegWrite addr bits v s = .fault .badRegisterAccess)

/-- R23: the fields of STATUS stand at their bits, and the reserved bits read 0. -/
def Obligations.StatusFieldsStandAtTheirBits : Prop :=
  ∀ s : State,
    (statusWord s).getLsbD 0 = s.busy ∧ (statusWord s).getLsbD 1 = s.done ∧ (statusWord s).getLsbD 2 = s.err ∧
    (statusWord s).getLsbD 3 = s.builder.treeValid ∧ (statusWord s).getLsbD 4 = s.builder.codesValid ∧
    (statusWord s).extractLsb' 5 3 = 0 ∧ (statusWord s).extractLsb' 8 4 = s.errCode ∧
    (statusWord s).extractLsb' 12 20 = 0

/-- R40: node i's WEIGHT word is read at offset 0x1000 + 8*i and its LINK word at 0x1004 + 8*i; the fields of a LINK word;
both words of a node that does not exist read 0. -/
def Obligations.NodeWindowLayout : Prop :=
  (∀ n : Node,
    (linkWord n).extractLsb' 0 9 = n.left ∧ (linkWord n).extractLsb' 9 9 = n.right ∧
    (linkWord n).extractLsb' 18 8 = n.symbol ∧ (linkWord n).extractLsb' 26 5 = 0 ∧
    (linkWord n).getLsbD 31 = n.isLeaf) ∧
  (∀ (s : State) (i : Fin 511) (n : Node), s.builder.nodes[i.val]? = some n →
    readReg s (.nodeWeight i) = n.weight ∧ readReg s (.nodeLink i) = linkWord n) ∧
  (∀ (s : State) (i : Fin 511), s.builder.nodes.length ≤ i.val →
    readReg s (.nodeWeight i) = 0 ∧ readReg s (.nodeLink i) = 0) ∧
  ∀ (s : State) (i : Nat), s.busy = false → s.rst = false → i < 511 →
    (∀ n, s.builder.nodes[i]? = some n →
      hostRegRead (s.cfg.baseAddr + 0x1000 + 8 * i) 32 s = .next { s with reply := .regData n.weight } ∧
      hostRegRead (s.cfg.baseAddr + 0x1004 + 8 * i) 32 s = .next { s with reply := .regData (linkWord n) }) ∧
    (s.builder.nodes.length ≤ i →
      hostRegRead (s.cfg.baseAddr + 0x1000 + 8 * i) 32 s = .next { s with reply := .regData 0 } ∧
      hostRegRead (s.cfg.baseAddr + 0x1004 + 8 * i) 32 s = .next { s with reply := .regData 0 })

/-- R41: word w of symbol x is read at offset 0x4000 + 64*x + 4*w; LEN in word 0; code bit k in word 1 + k div 32 at bit
position 31 - k mod 32, and 0 past the code; words 9..15 read 0. -/
def Obligations.CodeWindowLayout : Prop :=
  (∀ (s : State) (x : Byte) (w : Fin 16), s.busy = false → s.rst = false →
    hostRegRead (s.cfg.baseAddr + 0x4000 + 64 * x.toNat + 4 * w.val) 32 s =
      .next { s with reply := .regData (readReg s (.code x w)) }) ∧
  ∀ (s : State) (x : Byte), (s.builder.codes.entry x).length ≤ 255 →
    (readReg s (.code x 0)).toNat = (s.builder.codes.entry x).length ∧
    (∀ (k : Nat) (w : Fin 16), k < 256 → w.val = 1 + k / 32 →
      (readReg s (.code x w)).getLsbD (31 - k % 32) = (s.builder.codes.entry x).getD k false) ∧
    ∀ w : Fin 16, 9 ≤ w.val → readReg s (.code x w) = 0

/-! Writing registers (R21-R27, R37, R74, R77, R80-R82) -/

/-- R22, R24-R27: a write to CMD or a configuration register of an idle block is taken, CMD's in its low byte, and nothing
else changes. -/
def Obligations.IdleConfigurationWritesAreTaken : Prop :=
  ∀ (s : State) (v : Word), s.busy = false → s.rst = false →
    hostRegWrite (s.cfg.baseAddr + 0x000C) 32 v s =
      .next { s with cmd := v.extractLsb' 0 8, reply := .writeOk } ∧
    hostRegWrite (s.cfg.baseAddr + 0x0014) 32 v s = .next { s with srcAddr := v, reply := .writeOk } ∧
    hostRegWrite (s.cfg.baseAddr + 0x0018) 32 v s = .next { s with srcLen := v, reply := .writeOk } ∧
    hostRegWrite (s.cfg.baseAddr + 0x001C) 32 v s = .next { s with dstAddr := v, reply := .writeOk } ∧
    hostRegWrite (s.cfg.baseAddr + 0x0020) 32 v s = .next { s with dstCap := v, reply := .writeOk }

/-- R77: while BUSY, writes to CMD, SRC_ADDR, SRC_LEN, DST_ADDR and DST_CAP are ignored with the response OK, and writes to
CTRL and STATUS still act. -/
def Obligations.BusyConfigurationWritesAreIgnored : Prop :=
  ∀ (s : State) (v : Word), s.busy = true → s.rst = false →
    (∀ off ∈ [0x000C, 0x0014, 0x0018, 0x001C, 0x0020],
      hostRegWrite (s.cfg.baseAddr + off) 32 v s = .next { s with reply := .writeOk }) ∧
    hostRegWrite (s.cfg.baseAddr + 0x0008) 32 v s = .next { writeCtrl v s with reply := .writeOk } ∧
    hostRegWrite (s.cfg.baseAddr + 0x0010) 32 v s = .next { writeStatus v s with reply := .writeOk }

/-- R37: a write to a read-only register, a window word or a reserved offset is ignored with the response OK. -/
def Obligations.ReadOnlyWritesAreIgnored : Prop :=
  ∀ (s : State) (v : Word) (off : Nat), s.rst = false → off < 0x8000 → off % 4 = 0 →
    off ∉ [0x0008, 0x000C, 0x0010, 0x0014, 0x0018, 0x001C, 0x0020] →
    hostRegWrite (s.cfg.baseAddr + off) 32 v s = .next { s with reply := .writeOk }

/-- R74, R82: a CTRL write with bit 1 = 0 sets IRQ_EN to bit 2; with bit 0 = 1 it also starts the command in CMD, whatever
it is, when the block is idle, and is ignored but for IRQ_EN while BUSY. -/
def Obligations.CtrlWriteStartsAndSetsIrqEn : Prop :=
  ∀ (s : State) (v : Word), s.rst = false → v.getLsbD 1 = false →
    (v.getLsbD 0 = false →
      hostRegWrite (s.cfg.baseAddr + 0x0008) 32 v s = .next { s with irqEn := v.getLsbD 2, reply := .writeOk }) ∧
    (v.getLsbD 0 = true → s.busy = true →
      hostRegWrite (s.cfg.baseAddr + 0x0008) 32 v s = .next { s with irqEn := v.getLsbD 2, reply := .writeOk }) ∧
    (v.getLsbD 0 = true → s.busy = false →
      hostRegWrite (s.cfg.baseAddr + 0x0008) 32 v s =
        .next { s with
                irqEn := v.getLsbD 2, done := false, err := false, errCode := 0, busy := true
                reply := .writeOk })

/-- R81: a STATUS write clears DONE by bit 1, ERR with ERR_CODE by bit 2, and nothing else; `irq` follows, and while BUSY
(where a legal STATUS has DONE and ERR at 0) the write has no effect. -/
def Obligations.StatusWriteClearsDoneAndErr : Prop :=
  ∀ (s : State) (v : Word), s.rst = false →
    (∃ t, hostRegWrite (s.cfg.baseAddr + 0x0010) 32 v s = .next t ∧
      t = { s with
            done := s.done && !v.getLsbD 1
            err := s.err && !v.getLsbD 2
            errCode := if v.getLsbD 2 then 0 else s.errCode
            reply := .writeOk } ∧
      irq t = (s.irqEn && (s.done && !v.getLsbD 1 || s.err && !v.getLsbD 2))) ∧
    (s.busy = true → statusLegal s = true →
      hostRegWrite (s.cfg.baseAddr + 0x0010) 32 v s = .next { s with reply := .writeOk })

/-- R111: `irq` is IRQ_EN (bit 2 of CTRL) and one of DONE and ERR (bits 1 and 2 of STATUS), at every instant. -/
def Obligations.IrqIsEnabledDoneOrErr : Prop :=
  ∀ s : State,
    irq s = ((readReg s .ctrl).getLsbD 2 && ((readReg s .status).getLsbD 1 || (readReg s .status).getLsbD 2))

/-! Reset (R44, R80, R122-R124) -/

/-- R123: after a reset every register reads its reset value, `irq` is 0, and DMEM is untouched unless an ENCODE or a
DECODE was running. -/
def Obligations.ResetGivesResetValues : Prop :=
  ∀ s : State,
    atReset (resetBlock s) ∧ (∀ r, readReg (resetBlock s) r = resetValue r) ∧ irq (resetBlock s) = false ∧
    (s.busy = false ∨ (selected s ≠ some .encode ∧ selected s ≠ some .decode) → (resetBlock s).dmem = s.dmem)

/-- R124: a reset while BUSY abandons the command: neither DONE nor ERR is set; each byte of an ENCODE's or DECODE's DST range
that exists gets a free value, each from a draw of its own, and every other DMEM byte is unchanged; any other command
changes no DMEM byte. The model's choice (log entry 2, DESIGN CHOICE): the free value is `Config.freeByte` at draws plus
the byte's place in the range, and a byte that is in the DST and in the SRC range is free, although R124 also calls the
SRC range unchanged. -/
def Obligations.ResetWhileBusyFreesTheDstRange : Prop :=
  ∀ s : State, Memory.wf s.dmem → s.busy = true →
    (resetBlock s).busy = false ∧ (resetBlock s).done = false ∧ (resetBlock s).err = false ∧
    (selected s = some .encode ∨ selected s = some .decode →
      ∀ a, (s.dstAddr.toNat ≤ a ∧ a < s.dstAddr.toNat + s.dstCap.toNat ∧ a < s.cfg.memBytes →
          (resetBlock s).dmem.read a = Config.freeByte (s.draws + (a - s.dstAddr.toNat)) ∧
          s.draws + (a - s.dstAddr.toNat) < (resetBlock s).draws) ∧
        (¬(s.dstAddr.toNat ≤ a ∧ a < s.dstAddr.toNat + s.dstCap.toNat ∧ a < s.cfg.memBytes) →
          (resetBlock s).dmem.read a = s.dmem.read a)) ∧
    (selected s ≠ some .encode → selected s ≠ some .decode → ∀ a, (resetBlock s).dmem.read a = s.dmem.read a)

/-- R80: a CTRL write with bit 1 = 1 resets the block at once, BUSY or not, and bits 0 and 2 of it are discarded: IRQ_EN and
BUSY are 0 afterwards. -/
def Obligations.SoftResetResetsTheBlock : Prop :=
  ∀ (s : State) (v : Word), s.rst = false → v.getLsbD 1 = true →
    hostRegWrite (s.cfg.baseAddr + 0x0008) 32 v s = .next { resetBlock s with reply := .writeOk } ∧
    (resetBlock s).irqEn = false ∧ (resetBlock s).busy = false ∧ atReset (resetBlock s)

/-- R122: a step in which `rst` becomes 1 has the effect of a soft reset, and `rst` = 1 holds the block in its reset state
through every step until it returns to 0; releasing it changes nothing else. That the level of `rst` changes by an entry of the inbox is the model's
choice (log entry 3, DESIGN CHOICE). -/
def Obligations.RstHoldsTheResetState : Prop :=
  (∀ (s : State) (es : List Event),
    (s.inbox = .rst true :: es → step s = .next { resetBlock s with rst := true, inbox := es }) ∧
    (s.inbox = .rst false :: es → step s = .next { s with rst := false, inbox := es })) ∧
  (∀ s : State, atReset (resetBlock s)) ∧
  (∀ s : State, setRst true s = .next { resetBlock s with rst := true } ∧ setRst false s = .next { s with rst := false }) ∧
  (∀ s t : State, s.rst = true → atReset s → step s = .next t → atReset t) ∧
  ∀ s t : State, s.rst = true → (∀ es, s.inbox ≠ .rst false :: es) → step s = .next t → t.rst = true

/-! DMEM: ranges, hazards, host accesses (R46-R49, R127) -/

/-- R49: the range checks on unbounded naturals; two ranges overlap exactly when they share a byte; a failed check raises
RANGE and changes no DMEM byte; NOP, BUILD and DERIVE make none. -/
def Obligations.RangeChecks : Prop :=
  ∀ s : State,
    (rangeOk .count s = true ↔ s.srcAddr.toNat + s.srcLen.toNat ≤ s.cfg.memBytes) ∧
    (∀ i, i = .encode ∨ i = .decode →
      (rangeOk i s = true ↔
        s.srcAddr.toNat + s.srcLen.toNat ≤ s.cfg.memBytes ∧ s.dstAddr.toNat + s.dstCap.toNat ≤ s.cfg.memBytes ∧
        ¬∃ a, s.srcAddr.toNat ≤ a ∧ a < s.srcAddr.toNat + s.srcLen.toNat ∧
          s.dstAddr.toNat ≤ a ∧ a < s.dstAddr.toNat + s.dstCap.toNat)) ∧
    (∀ i, rangeOk i s = false → ∃ t, exec i s = .next t ∧ flagsError 4 t ∧ dmemKept s t) ∧
    ∀ i, i = .nop ∨ i = .build ∨ i = .derive → ∀ t, exec i s = .next t → t.done = true ∨ t.errCode ≠ 4

/-- R127 H1 and H2: a DMEM write to the SRC range of a running COUNT, ENCODE or DECODE faults; so does a DMEM read or write of
the DST range of a running ENCODE or DECODE. That a write that meets both ranges is reported as the SRC range's fault is the
model's choice (log entry 14, DESIGN CHOICE): R127 gives no order. -/
def Obligations.HazardousDmemAccessesFault : Prop :=
  ∀ (s : State) (addr x : Nat) (bytes : List Byte) (n : Nat), s.busy = true →
    (addr + bytes.length ≤ s.cfg.memBytes → addr ≤ x → x < addr + bytes.length →
      selected s = some .count ∨ selected s = some .encode ∨ selected s = some .decode →
      s.srcAddr.toNat ≤ x → x < s.srcAddr.toNat + s.srcLen.toNat →
      hostMemWrite addr bytes s = .fault .srcHazard) ∧
    (selected s = some .encode ∨ selected s = some .decode →
      s.dstAddr.toNat ≤ x → x < s.dstAddr.toNat + s.dstCap.toNat →
      (addr + n ≤ s.cfg.memBytes → addr ≤ x → x < addr + n → hostMemRead addr n s = .fault .dstHazard) ∧
      (addr + bytes.length ≤ s.cfg.memBytes → addr ≤ x → x < addr + bytes.length →
        hostMemWrite addr bytes s = .fault .srcHazard ∨ hostMemWrite addr bytes s = .fault .dstHazard))

/-- R46, R127: a host access inside DMEM that is no hazard completes: a read answers the bytes and changes nothing, a write
stores them and leaves every other byte; "Host reads of the SRC range while BUSY = 1 are allowed". -/
def Obligations.SafeDmemAccessesComplete : Prop :=
  ∀ (s : State) (addr : Nat), Memory.wf s.dmem →
    (∀ n, addr + n ≤ s.cfg.memBytes →
      (s.busy = true → selected s = some .encode ∨ selected s = some .decode →
        ∀ x, addr ≤ x → x < addr + n → ¬(s.dstAddr.toNat ≤ x ∧ x < s.dstAddr.toNat + s.dstCap.toNat)) →
      hostMemRead addr n s = .next { s with reply := .memData ((List.range n).map fun i => s.dmem.read (addr + i)) }) ∧
    ∀ bytes : List Byte, addr + bytes.length ≤ s.cfg.memBytes →
      (s.busy = true → selected s = some .count ∨ selected s = some .encode ∨ selected s = some .decode →
        ∀ x, addr ≤ x → x < addr + bytes.length →
          ¬(s.srcAddr.toNat ≤ x ∧ x < s.srcAddr.toNat + s.srcLen.toNat)) →
      (s.busy = true → selected s = some .encode ∨ selected s = some .decode →
        ∀ x, addr ≤ x → x < addr + bytes.length →
          ¬(s.dstAddr.toNat ≤ x ∧ x < s.dstAddr.toNat + s.dstCap.toNat)) →
      ∃ t, hostMemWrite addr bytes s = .next t ∧ Memory.wf t.dmem ∧
        t = { s with dmem := t.dmem, reply := .writeOk } ∧
        (∀ i, (hi : i < bytes.length) → t.dmem.read (addr + i) = bytes[i]) ∧
        dmemKeptOutside addr bytes.length s t

/-! The step and the command lifecycle (R7, R72, R74-R76, R79, R107, R132) -/

/-- R75: a step in which the engine has its turn and a command is running is `exec` of the command CMD decodes to, at that
state less the engine's own entry of the inbox. That the engine's turn is such an entry, or comes with an empty inbox, is
the model's choice (log entry 3, DESIGN CHOICE). -/
def Obligations.StepRunsTheDecodedCommand : Prop :=
  ∀ (s : State) (i : Instr), s.busy = true → s.rst = false → decode (s.cmd.setWidth 32) = .ok i →
    (s.inbox = [] → step s = exec i s) ∧
    ∀ es, s.inbox = .engineTurn :: es → step s = exec i { s with inbox := es }

/-- R75, R121: the engine acts only while BUSY; an idle block with nothing to answer stays as it is. R7, R71: a step with a
host access first in the inbox, busy or not, is that access. The inbox is the model's choice (log entry 3, DESIGN CHOICE). -/
def Obligations.IdleBlockStaysAsItIs : Prop :=
  (∀ s : State, s.busy = false →
    (s.inbox = [] → step s = .next s) ∧ ∀ es, s.inbox = .engineTurn :: es → step s = .next { s with inbox := es }) ∧
  ∀ (s : State) (es : List Event) (addr bits n : Nat) (v : Word) (bytes : List Byte),
    (s.inbox = .regRead addr bits :: es → step s = hostRegRead addr bits { s with inbox := es }) ∧
    (s.inbox = .regWrite addr bits v :: es → step s = hostRegWrite addr bits v { s with inbox := es }) ∧
    (s.inbox = .memRead addr n :: es → step s = hostMemRead addr n { s with inbox := es }) ∧
    (s.inbox = .memWrite addr bytes :: es → step s = hostMemWrite addr bytes { s with inbox := es })

/-- R79: an OPCODE 0x06..0xFF completes with ILLEGAL_COMMAND; nothing but STATUS and the result registers changes. -/
def Obligations.IllegalOpcodeCompletesWithError : Prop :=
  ∀ s : State, s.busy = true → s.rst = false → s.inbox = [] → 0x06 ≤ s.cmd.toNat →
    step s =
      .next { s with
              outLen := 0, pad := 0, hdrLen := 0, dataLen := 0
              errCode := 7, err := true, done := false, busy := false }

/-- R132: every command completes, with DONE = 1, or with ERR = 1 and a code of R106. -/
def Obligations.EveryCommandCompletes : Prop :=
  ∀ (i : Instr) (s : State),
    ∃ t, exec i s = .next t ∧ t.busy = false ∧
      (t.done = true ∨ (t.done = false ∧ t.err = true ∧ 1 ≤ t.errCode.toNat ∧ t.errCode.toNat ≤ 7))

/-- R76: after a success completion DONE is 1, BUSY is 0, and the four result registers are 0 unless the command is ENCODE
or DECODE. -/
def Obligations.SuccessCompletionEffect : Prop :=
  ∀ (i : Instr) (s t : State), exec i s = .next t → t.done = true →
    flagsDone s t ∧ completionKeeps s t ∧ (i ≠ .encode → i ≠ .decode → resultsZero t ∧ dmemKept s t)

/-- R107: an error completion discards the command's updates; ENCODE and DECODE reset the builder state, every other command
keeps it; the result registers are 0, ERR is 1 with its code, DONE and BUSY are 0; all else, DMEM too, is unchanged. -/
def Obligations.ErrorCompletionEffect : Prop :=
  (∀ (i : Instr) (s t : State), exec i s = .next t → t.done = false →
    (i = .encode ∨ i = .decode → failedClearingBuilder t.errCode s t) ∧
    (i ≠ .encode → i ≠ .decode → failedKeepingBuilder t.errCode s t)) ∧
  ∀ s : State, ∃ t, execIllegal s = .next t ∧ failedKeepingBuilder 7 s t

/-- R48, R52, R62: what a completion leaves unchanged. NOP, COUNT, BUILD and DERIVE store nothing; ENCODE and DECODE store
exactly the OUT_LEN bytes at DST_ADDR, at most DST_CAP; no completion changes CMD, IRQ_EN or a configuration register. -/
def Obligations.CompletionFrame : Prop :=
  ∀ (i : Instr) (s t : State), exec i s = .next t →
    completionKeeps s t ∧
    (i = .nop ∨ i = .count ∨ i = .build ∨ i = .derive → dmemKept s t) ∧
    (i = .encode ∨ i = .decode →
      dmemKeptOutside s.dstAddr.toNat t.outLen.toNat s t ∧ t.outLen.toNat ≤ s.dstCap.toNat) ∧
    (i = .nop ∨ i = .build ∨ i = .derive →
      t.builder.freq = s.builder.freq ∧ t.builder.nsym = s.builder.nsym ∧ t.builder.total = s.builder.total) ∧
    (i = .nop ∨ i = .derive →
      t.builder.nodes = s.builder.nodes ∧ t.builder.nnodes = s.builder.nnodes ∧ t.builder.root = s.builder.root ∧
        t.builder.treeValid = s.builder.treeValid)

/-- R75, R131: whatever waits in the inbox, a machine that does not stop has no running command left after one step for
each entry and one more: the completion step fires after a finite delay. The bound is the model's choice (log entry 3,
DESIGN CHOICE: a finite inbox, and the engine's turn when it is empty): R75 and R131 give a finite delay and no bound. -/
def Obligations.RunningCommandEndsInFiniteTime : Prop :=
  ∀ s t : State, StateInv s → Host.Core.run core (s.inbox.length + 1) s = .next t → t.busy = false ∧ t.inbox = []

/-- R72, R126: `RUN` of a command from an idle block, with `k` polls before the completion: the command completes from the
state the two register writes leave, and the last poll reads STATUS with BUSY = 0. That the host's accesses and the
engine's turn stand in the inbox is the model's choice (log entry 3, DESIGN CHOICE). -/
def Obligations.RunPseudoOperationCompletes : Prop :=
  ∀ (s : State) (i : Instr) (ie : Bool) (k : Nat), s.busy = false → s.rst = false →
    s.inbox = hostRUN s.cfg i ie k →
    ∃ (r : Reply) (t : State),
      exec i { s with
               cmd := opcode i, irqEn := ie, done := false, err := false, errCode := 0, busy := true
               inbox := [hostRD s.cfg .status], reply := r } = .next t ∧
      Host.Core.run core (k + 4) s = .next { t with inbox := [], reply := .regData (statusWord t) } ∧
      (statusWord t).getLsbD 0 = false

/-! NOP (R78) -/

/-- R78: NOP, OPCODE 0x00 and CMD's value after reset, succeeds and changes nothing but STATUS and the result registers. -/
def Obligations.NopCommand : Prop :=
  (∀ w : Word, decode w = .ok .nop ↔ w.extractLsb' 0 8 = 0x00) ∧ State.reset.cmd = 0x00 ∧
    ∀ s : State,
      exec .nop s =
        .next { s with outLen := 0, pad := 0, hdrLen := 0, dataLen := 0, done := true, busy := false }

/-! COUNT, BUILD, DERIVE (R83-R92) -/

/-- R84: COUNT, OPCODE 0x01. FREQ, NSYM and TOTAL are the counts of the SRC bytes, tree and codes are cleared; RANGE keeps
the builder state. -/
def Obligations.CountCommand : Prop :=
  (∀ w : Word, decode w = .ok .count ↔ w.extractLsb' 0 8 = 0x01) ∧
  (∀ s : State, s.srcAddr.toNat + s.srcLen.toNat ≤ s.cfg.memBytes →
    ∃ t, exec .count s = .next t ∧
      (∀ x : Byte, (t.builder.freq.entry x).toNat =
        ((List.range s.srcLen.toNat).map fun i => s.dmem.read (s.srcAddr.toNat + i)).count x) ∧
      t.builder.nsym.toNat = (allSymbols.filter fun x => t.builder.freq.entry x ≠ 0).length ∧
      t.builder.total = s.srcLen ∧ t.builder.total.toNat = (allSymbols.map fun x => (t.builder.freq.entry x).toNat).sum ∧
      t.builder.nodes = [] ∧ t.builder.nnodes = 0 ∧ t.builder.root = 0x1FF ∧ t.builder.treeValid = false ∧
      (∀ x, t.builder.codes.entry x = []) ∧ t.builder.maxlen = 0 ∧ t.builder.codesValid = false ∧
      flagsDone s t ∧ resultsZero t ∧ dmemKept s t ∧ completionKeeps s t) ∧
  ∀ s : State, s.cfg.memBytes < s.srcAddr.toNat + s.srcLen.toNat →
    ∃ t, exec .count s = .next t ∧ failedKeepingBuilder 4 s t

/-- R86: BUILD, OPCODE 0x02. The tree is `build(FREQ)`, the codes are cleared; EMPTY_INPUT where NSYM = 0 keeps the builder
state. -/
def Obligations.BuildCommand : Prop :=
  (∀ w : Word, decode w = .ok .build ↔ w.extractLsb' 0 8 = 0x02) ∧
  (∀ s : State, s.builder.nsym ≠ 0 →
    ∃ t, exec .build s = .next t ∧
      (t.builder.nodes, t.builder.root.toNat) = buildTree (freqNat s.builder.freq) ∧
      t.builder.nnodes.toNat = t.builder.nodes.length ∧ t.builder.treeValid = true ∧
      (∀ x, t.builder.codes.entry x = []) ∧ t.builder.maxlen = 0 ∧ t.builder.codesValid = false ∧
      t.builder.freq = s.builder.freq ∧ t.builder.nsym = s.builder.nsym ∧ t.builder.total = s.builder.total ∧
      flagsDone s t ∧ resultsZero t ∧ dmemKept s t ∧ completionKeeps s t) ∧
  ∀ s : State, s.builder.nsym = 0 → ∃ t, exec .build s = .next t ∧ failedKeepingBuilder 1 s t

/-- R90: DERIVE, OPCODE 0x03. CODE is `derive(NODES, ROOT)` and MAXLEN its longest code, the tree is kept; SEQUENCE where there
is no tree keeps the builder state. The builder invariants bound the code lengths (R91). -/
def Obligations.DeriveCommand : Prop :=
  (∀ w : Word, decode w = .ok .derive ↔ w.extractLsb' 0 8 = 0x03) ∧
  (∀ s : State, BuilderInv s.builder → s.builder.treeValid = true →
    ∃ t, exec .derive s = .next t ∧
      t.builder.codes = deriveCodes s.builder.nodes s.builder.root.toNat ∧
      (∀ x, (t.builder.codes.entry x).length ≤ t.builder.maxlen.toNat) ∧
      (∃ x, (t.builder.codes.entry x).length = t.builder.maxlen.toNat) ∧
      t.builder = { s.builder with codes := t.builder.codes, maxlen := t.builder.maxlen, codesValid := true } ∧
      flagsDone s t ∧ resultsZero t ∧ dmemKept s t ∧ completionKeeps s t) ∧
  ∀ s : State, s.builder.treeValid = false → ∃ t, exec .derive s = .next t ∧ failedKeepingBuilder 6 s t

/-- R85: the selection of the merge loop takes the least element by (weight, index) and leaves exactly the others; where
the indices are distinct, it is strictly the least. One turn of the loop takes the least element a, then the least b of the
others, appends an internal node with the sum of their weights, a on the LEFT and b on the RIGHT (D12), and puts that node's
index back; with one element left the loop ends and ROOT is its index. The loop starts from the leaves in ascending symbol
value and their indices. -/
def Obligations.MergeSelectsTheLeast : Prop :=
  (∀ (e : Entry) (es : List Entry),
    ((extractMin e es).1 :: (extractMin e es).2).Perm (e :: es) ∧
    (∀ f ∈ (extractMin e es).2, f.before (extractMin e es).1 = false) ∧
    (((e :: es).map Entry.index).Nodup → ∀ f ∈ (extractMin e es).2, (extractMin e es).1.before f = true)) ∧
  (∀ e f : Entry, e.before f = true ↔ e.weight < f.weight ∨ (e.weight = f.weight ∧ e.index < f.index)) ∧
  (∀ (fuel : Nat) (nodes : List Node) (e f : Entry) (rest : List Entry), ∃ (a b : Entry) (others : List Entry),
    (a :: b :: others).Perm (e :: f :: rest) ∧
    (∀ x ∈ b :: others, x.before a = false) ∧ (∀ x ∈ others, x.before b = false) ∧
    (((e :: f :: rest).map Entry.index).Nodup →
      (∀ x ∈ b :: others, a.before x = true) ∧ ∀ x ∈ others, b.before x = true) ∧
    mergeLoop (fuel + 1) nodes (e :: f :: rest) =
      mergeLoop fuel
        (nodes ++
          [{ weight := BitVec.ofNat 32 (a.weight + b.weight), isLeaf := false, symbol := 0
             left := BitVec.ofNat 9 a.index, right := BitVec.ofNat 9 b.index }])
        (others ++ [{ weight := a.weight + b.weight, index := nodes.length }])) ∧
  (∀ (fuel : Nat) (nodes : List Node) (e : Entry), mergeLoop fuel nodes [e] = (nodes, e.index)) ∧
  ∀ f : Table Nat, ∃ leaves : List Byte, leaves = allSymbols.filter (fun x => 0 < f.entry x) ∧
    buildTree f =
      mergeLoop leaves.length
        (leaves.map fun x =>
          { weight := BitVec.ofNat 32 (f.entry x), isLeaf := true, symbol := x, left := 0x1FF, right := 0x1FF })
        (leaves.zipIdx.map fun p => { weight := f.entry p.1, index := p.2 })

/-- R85, R87: the arena of `build(F)` has the n leaves in ascending symbol value, then n-1 internal nodes whose children have
smaller indices; ROOT is the last node; every node but ROOT is the child of exactly one node. -/
def Obligations.BuiltTreeShape : Prop :=
  ∀ f : Table Nat, 1 ≤ distinctSymbols f →
    (buildTree f).1.length = 2 * distinctSymbols f - 1 ∧ (buildTree f).2 = 2 * distinctSymbols f - 2 ∧
    (buildTree f).1.take (distinctSymbols f) = (presentCounts f).map (fun e => leafNode e.2 e.1) ∧
    (∀ i n, distinctSymbols f ≤ i → (buildTree f).1[i]? = some n →
      n.isLeaf = false ∧ n.symbol = 0 ∧ n.left.toNat < i ∧ n.right.toNat < i) ∧
    (childIndices (buildTree f).1).Perm (List.range (2 * distinctSymbols f - 2))

/-- R87 item 3: with a total that fits TOTAL, every internal node's weight is the sum of its children's, and ROOT's weight
is the total. -/
def Obligations.BuiltTreeWeights : Prop :=
  ∀ f : Table Nat, 1 ≤ distinctSymbols f → totalCount f ≤ 2 ^ 32 - 1 →
    (∀ n ∈ (buildTree f).1, n.isLeaf = false →
      ∃ l r, (buildTree f).1[n.left.toNat]? = some l ∧ (buildTree f).1[n.right.toNat]? = some r ∧
        n.weight.toNat = l.weight.toNat + r.weight.toNat) ∧
    ∃ n, (buildTree f).1[(buildTree f).2]? = some n ∧ n.weight.toNat = totalCount f

/-- R89: a frequency table with one symbol gives a single-leaf tree, and that symbol the one-bit code "0". -/
def Obligations.SingleSymbolGetsCodeZero : Prop :=
  ∀ (f : Table Nat) (x : Byte), 0 < f.entry x → (∀ y, y ≠ x → f.entry y = 0) →
    buildTree f = ([leafNode (f.entry x) x], 0) ∧
    (deriveCodes (buildTree f).1 (buildTree f).2).entry x = [false] ∧
    (∀ y, y ≠ x → (deriveCodes (buildTree f).1 (buildTree f).2).entry y = []) ∧
    maxCodeLength (deriveCodes (buildTree f).1 (buildTree f).2) = 1

/-- R91 items 1, 2, 4 and 5: the derived codes of the present symbols, and only those, are not empty; no code is a prefix
of another; MAXLEN is between 1 and n-1, and 1 for n = 1. -/
def Obligations.DerivedCodesArePrefixFree : Prop :=
  ∀ (f : Table Nat) (c : Table BitString), 1 ≤ distinctSymbols f →
    c = deriveCodes (buildTree f).1 (buildTree f).2 →
    (∀ x, 1 ≤ (c.entry x).length ↔ 0 < f.entry x) ∧
    (∀ x y, x ≠ y → 0 < f.entry x → 0 < f.entry y → ¬(c.entry x <+: c.entry y)) ∧
    (distinctSymbols f = 1 → maxCodeLength c = 1) ∧
    (2 ≤ distinctSymbols f → 1 ≤ maxCodeLength c ∧ maxCodeLength c ≤ distinctSymbols f - 1)

/-- R91 item 3: for two symbols or more the code is complete: every bit-string of length MAXLEN has exactly one code as a
prefix. -/
def Obligations.DerivedCodesAreComplete : Prop :=
  ∀ (f : Table Nat) (c : Table BitString) (bits : BitString), 2 ≤ distinctSymbols f →
    c = deriveCodes (buildTree f).1 (buildTree f).2 → bits.length = maxCodeLength c →
    ∃ x, 0 < f.entry x ∧ c.entry x <+: bits ∧ ∀ y, 0 < f.entry y → c.entry y <+: bits → y = x

/-- R92: ENCODE and DECODE read nothing of the previous builder state; `load_builder(F)` gives FREQ the counts of F, NSYM
the number of present symbols, TOTAL their sum, NODES and ROOT the tree `build(F)` with NNODES its length, CODE the codes
`derive` gives of it, MAXLEN the length of the longest, and sets both validity bits. -/
def Obligations.CodecIgnoresPreviousBuilderState : Prop :=
  (∀ (s : State) (b : Builder),
    exec .encode { s with builder := b } = exec .encode s ∧ exec .decode { s with builder := b } = exec .decode s) ∧
  ∀ (f : Table Nat) (b : Builder), b = loadBuilder f → 1 ≤ distinctSymbols f → totalCount f ≤ 2 ^ 32 - 1 →
    (∀ x, (b.freq.entry x).toNat = f.entry x) ∧
    b.nsym.toNat = (allSymbols.filter fun x => 0 < f.entry x).length ∧
    b.total.toNat = (allSymbols.map f.entry).sum ∧
    (b.nodes, b.root.toNat) = buildTree f ∧ b.nnodes.toNat = b.nodes.length ∧ b.treeValid = true ∧
    b.codes = deriveCodes b.nodes b.root.toNat ∧
    (∀ x, (b.codes.entry x).length ≤ b.maxlen.toNat) ∧ (∃ x, (b.codes.entry x).length = b.maxlen.toNat) ∧
    b.codesValid = true

/-! The stream (R65-R70, R93-R95, R98) -/

/-- R68: packing and unpacking, MSB first, bit by bit, and each the other's inverse. -/
def Obligations.PackingIsMsbFirst : Prop :=
  (∀ b : BitString, b.length % 8 = 0 →
    (pack b).length = b.length / 8 ∧ unpack (pack b) = b ∧
    ∀ j, j < b.length / 8 →
      ((pack b).getD j 0).toNat =
        ((List.range 8).map fun t => (b.getD (8 * j + t) false).toNat * 2 ^ (7 - t)).sum) ∧
  (∀ bytes : List Byte,
    (unpack bytes).length = 8 * bytes.length ∧ pack (unpack bytes) = bytes ∧
    ∀ j t, j < bytes.length → t < 8 →
      ((unpack bytes).getD (8 * j + t) false).toNat = (bytes.getD j 0).toNat / 2 ^ (7 - t) % 2) ∧
  pack [true, false, true, true, false, false, false, false] = [0xB0]

/-- R69: the padding of a length. -/
def Obligations.PaddingCompletesTheByte : Prop :=
  (∀ n, padding n = (8 - n % 8) % 8 ∧ padding n ≤ 7 ∧ (n + padding n) % 8 = 0 ∧ (padding n = 0 ↔ n % 8 = 0)) ∧
    padding 9 = 7 ∧ padding 8 = 0 ∧ padding 4 = 4 ∧ padding 6 = 2

/-- R67: the big-endian fields: the assembled number, and its bytes, most significant first. -/
def Obligations.BigEndianFieldsRoundTrip : Prop :=
  (∀ b0 b1 : Byte, be16 b0 b1 = b0.toNat * 2 ^ 8 + b1.toNat) ∧
  (∀ b0 b1 b2 b3 : Byte,
    be32 b0 b1 b2 b3 = b0.toNat * 2 ^ 24 + b1.toNat * 2 ^ 16 + b2.toNat * 2 ^ 8 + b3.toNat) ∧
  (∀ v, v < 2 ^ 16 → ∃ b0 b1, be16Bytes v = [b0, b1] ∧ be16 b0 b1 = v ∧ b0.toNat = v / 2 ^ 8) ∧
  ∀ v, v < 2 ^ 32 →
    ∃ b0 b1 b2 b3, be32Bytes v = [b0, b1, b2, b3] ∧ be32 b0 b1 b2 b3 = v ∧ b0.toNat = v / 2 ^ 24 ∧
      b1.toNat = v / 2 ^ 16 % 2 ^ 8 ∧ b2.toNat = v / 2 ^ 8 % 2 ^ 8

/-- R93: the code of every input byte, with the table ENCODE derives, is at least one bit long, and the concatenation has
the length the counts give. -/
def Obligations.CodeConcatenationLength : Prop :=
  ∀ (d : List Byte) (c : Table BitString), d ≠ [] → c = (loadBuilder (countBytes d)).codes →
    concatCodes d c = (d.map c.entry).flatten ∧ (∀ x ∈ d, 1 ≤ (c.entry x).length) ∧
    (concatCodes d c).length = (allSymbols.map fun x => (countBytes d).entry x * (c.entry x).length).sum

/-- R94: the data bytes of a bit-string: padded with zero bits, packed; their number is the ceiling of its length by 8,
and the length comes back from it and the padding; unpacking gives the bits and then the padding zeros. -/
def Obligations.PayloadHoldsTheBits : Prop :=
  ∀ bits : BitString,
    packPadded bits = pack (bits ++ zeros (padding bits.length)) ∧
    8 * (packPadded bits).length = bits.length + padding bits.length ∧
    (packPadded bits).length = (bits.length + 7) / 8 ∧
    8 * (packPadded bits).length - padding bits.length = bits.length ∧
    unpack (packPadded bits) = bits ++ zeros (padding bits.length)

/-- R95: the header: NSYM in two bytes, then symbol and count of each present symbol in ascending order; 2 + 5*n bytes. -/
def Obligations.HeaderListsThePresentSymbols : Prop :=
  ∀ f : Table Nat, 1 ≤ distinctSymbols f →
    header f =
      be16Bytes (allSymbols.filter fun x => 0 < f.entry x).length ++
        (allSymbols.filter fun x => 0 < f.entry x).flatMap (fun x => x :: be32Bytes (f.entry x)) ∧
    (header f).length = 2 + 5 * distinctSymbols f

/-- R98: the parser accepts exactly the headers ENCODE can write, each with a PAD byte of at most 7 and any data bytes, and
gives back the table, its number of symbols, the header length, the padding and the data. -/
def Obligations.ParserAcceptsExactlyEncodedHeaders : Prop :=
  ∀ (bytes : List Byte) (h : Header),
    parseHeader bytes = some h ↔
      (bytes = header h.freq ++ [BitVec.ofNat 8 h.pad] ++ h.data ∧
        h.n = distinctSymbols h.freq ∧ h.len = 2 + 5 * h.n ∧ 1 ≤ h.n ∧ h.n ≤ 256 ∧
        totalCount h.freq ≤ 2 ^ 32 - 1 ∧ h.pad ≤ 7)

/-- R97 items 1 to 3: the lengths of the stream of a byte list, and when its padding is 0. -/
def Obligations.EncodedStreamLengths : Prop :=
  ∀ d : List Byte, d ≠ [] →
    (streamOf d).bytes.length = 3 + 5 * distinctSymbols (countBytes d) + (streamOf d).data.length ∧
    (streamOf d).data.length =
      ((allSymbols.map fun x => d.count x * ((loadBuilder (countBytes d)).codes.entry x).length).sum + 7) / 8 ∧
    1 ≤ (streamOf d).data.length ∧ (streamOf d).pad ≤ 7 ∧
    ((streamOf d).pad = 0 ↔
      8 ∣ (allSymbols.map fun x => d.count x * ((loadBuilder (countBytes d)).codes.entry x).length).sum)

/-- R101: for the tree and the codes of any frequency table with a symbol, the tree walk and the accumulator walk give the
same result on every bit-string. -/
def Obligations.TreeWalkEqualsAccumulatorWalk : Prop :=
  ∀ (f : Table Nat) (bits : BitString), 1 ≤ distinctSymbols f →
    treeWalk bits (buildTree f).1 (buildTree f).2 =
      walk bits (deriveCodes (buildTree f).1 (buildTree f).2)
        (maxCodeLength (deriveCodes (buildTree f).1 (buildTree f).2))

/-! ENCODE and DECODE (R96, R103-R105) -/

/-- R96: ENCODE, OPCODE 0x04. RANGE, then EMPTY_INPUT, then CAPACITY; else the stream of the SRC bytes is written at DST_ADDR and
the result registers tell its lengths. -/
def Obligations.EncodeCommand : Prop :=
  (∀ w : Word, decode w = .ok .encode ↔ w.extractLsb' 0 8 = 0x04) ∧
  ∀ (s : State) (d : List Byte) (c : Table BitString) (bits : BitString) (data out : List Byte),
    Memory.wf s.dmem →
    d = ((List.range s.srcLen.toNat).map fun i => s.dmem.read (s.srcAddr.toNat + i)) →
    c = (loadBuilder (countBytes d)).codes →
    bits = concatCodes d c →
    data = pack (bits ++ zeros (padding bits.length)) →
    out = header (countBytes d) ++ [BitVec.ofNat 8 (padding bits.length)] ++ data →
    (rangeOk .encode s = false → ∃ t, exec .encode s = .next t ∧ failedClearingBuilder 4 s t) ∧
    (rangeOk .encode s = true → s.srcLen = 0 → ∃ t, exec .encode s = .next t ∧ failedClearingBuilder 1 s t) ∧
    (rangeOk .encode s = true → s.srcLen ≠ 0 → s.dstCap.toNat < out.length →
      ∃ t, exec .encode s = .next t ∧ failedClearingBuilder 5 s t) ∧
    (rangeOk .encode s = true → s.srcLen ≠ 0 → out.length ≤ s.dstCap.toNat →
      ∃ t, exec .encode s = .next t ∧
        t.builder = loadBuilder (countBytes d) ∧ t.builder.treeValid = true ∧ t.builder.codesValid = true ∧
        t.outLen.toNat = out.length ∧ t.pad.toNat = padding bits.length ∧
        t.hdrLen.toNat = 2 + 5 * distinctSymbols (countBytes d) ∧ t.dataLen.toNat = data.length ∧
        (∀ i, (hi : i < out.length) → t.dmem.read (s.dstAddr.toNat + i) = out[i]) ∧
        dmemKeptOutside s.dstAddr.toNat out.length s t ∧ flagsDone s t ∧ completionKeeps s t)

/-- R103: DECODE, OPCODE 0x05. RANGE, then MALFORMED_HEADER, then CAPACITY, then CORRUPT_STREAM; else the decoded bytes are
written at DST_ADDR and the result registers tell the lengths. R99: the strip fails exactly where the padding is more than the
data bits; else it gives the unpacked bits less the last p, whatever those are (D17). -/
def Obligations.DecodeCommand : Prop :=
  (∀ w : Word, decode w = .ok .decode ↔ w.extractLsb' 0 8 = 0x05) ∧
  (∀ (data : List Byte) (p : Nat),
    (stripPayload data p = none ↔ 8 * data.length < p) ∧
    ∀ bits tail : BitString, unpack data = bits ++ tail → tail.length = p → stripPayload data p = some bits) ∧
  ∀ (s : State) (stream : List Byte), Memory.wf s.dmem →
    stream = ((List.range s.srcLen.toNat).map fun i => s.dmem.read (s.srcAddr.toNat + i)) →
    (rangeOk .decode s = false → ∃ t, exec .decode s = .next t ∧ failedClearingBuilder 4 s t) ∧
    (rangeOk .decode s = true → parseHeader stream = none →
      ∃ t, exec .decode s = .next t ∧ failedClearingBuilder 2 s t) ∧
    ∀ (h : Header) (c : Table BitString), rangeOk .decode s = true → parseHeader stream = some h →
      c = (loadBuilder h.freq).codes →
      (s.dstCap.toNat < totalCount h.freq → ∃ t, exec .decode s = .next t ∧ failedClearingBuilder 5 s t) ∧
      (totalCount h.freq ≤ s.dstCap.toNat →
        (∀ bits out, stripPayload h.data h.pad = some bits → walk bits c (maxCodeLength c) = some out →
          out.length ≠ totalCount h.freq) →
        ∃ t, exec .decode s = .next t ∧ failedClearingBuilder 3 s t) ∧
      (∀ bits out, totalCount h.freq ≤ s.dstCap.toNat → stripPayload h.data h.pad = some bits →
        walk bits c (maxCodeLength c) = some out → out.length = totalCount h.freq →
        ∃ t, exec .decode s = .next t ∧
          t.builder = loadBuilder h.freq ∧ t.builder.treeValid = true ∧ t.builder.codesValid = true ∧
          t.outLen.toNat = out.length ∧ t.pad.toNat = h.pad ∧ t.hdrLen.toNat = h.len ∧
          t.dataLen.toNat = h.data.length ∧
          (∀ i, (hi : i < out.length) → t.dmem.read (s.dstAddr.toNat + i) = out[i]) ∧
          dmemKeptOutside s.dstAddr.toNat out.length s t ∧ flagsDone s t ∧ completionKeeps s t)

/-- R97 item 4, R53: what ENCODE writes depends only on its input bytes: two successful ENCODEs of the same bytes write the
same stream and the same result registers, wherever their input and output stand. -/
def Obligations.EncodeDependsOnlyOnItsInput : Prop :=
  ∀ s s' t t' : State, Memory.wf s.dmem → Memory.wf s'.dmem → srcBytes s = srcBytes s' →
    exec .encode s = .next t → exec .encode s' = .next t' → t.done = true → t'.done = true →
    memRead t.dmem s.dstAddr.toNat t.outLen.toNat = memRead t'.dmem s'.dstAddr.toNat t'.outLen.toNat ∧
    t.outLen = t'.outLen ∧ t.pad = t'.pad ∧ t.hdrLen = t'.hdrLen ∧ t.dataLen = t'.dataLen ∧ t.builder = t'.builder

/-- R104: the round trip. A DECODE of a stream that a successful ENCODE wrote, with ranges that pass and room for the output,
succeeds and writes the encoded bytes. -/
def Obligations.DecodeInvertsEncode : Prop :=
  ∀ s t u : State, Memory.wf s.dmem → Memory.wf u.dmem →
    exec .encode s = .next t → t.done = true →
    srcBytes u = memRead t.dmem s.dstAddr.toNat t.outLen.toNat →
    rangeOk .decode u = true → s.srcLen.toNat ≤ u.dstCap.toNat →
    ∃ v, exec .decode u = .next v ∧ v.done = true ∧ v.outLen = s.srcLen ∧
      memRead v.dmem u.dstAddr.toNat v.outLen.toNat = srcBytes s ∧
      v.pad = t.pad ∧ v.hdrLen = t.hdrLen ∧ v.dataLen = t.dataLen ∧ v.builder = t.builder

/-- R105: truncation. A DECODE of a stream that a successful ENCODE wrote, less its last byte, with ranges that pass, ends
with CORRUPT_STREAM where DST_CAP has room for TOTAL bytes and with CAPACITY otherwise, and writes no DMEM byte. -/
def Obligations.TruncatedStreamIsRejected : Prop :=
  ∀ s t u : State, Memory.wf s.dmem →
    exec .encode s = .next t → t.done = true →
    srcBytes u = memRead t.dmem s.dstAddr.toNat (t.outLen.toNat - 1) →
    rangeOk .decode u = true →
    ∃ v, exec .decode u = .next v ∧
      (t.builder.total.toNat ≤ u.dstCap.toNat → failedClearingBuilder 3 u v) ∧
      (u.dstCap.toNat < t.builder.total.toNat → failedClearingBuilder 5 u v)

/-! The invariants (R23, R38, R46, R122) -/

/-- R38, R44: the state after reset is sound, whatever the parameters are. -/
def Obligations.ResetStateIsSound : Prop :=
  ∀ (c : Config) (es : List Event), StateInv { State.reset with cfg := c, inbox := es }

/-- R23, R38, R46, R122: every step from a sound state that gives a next state gives a sound one: the builder invariants hold
after every completion, STATUS keeps a legal value, DMEM its canonical form inside the address space, and `rst` = 1 holds
the block in its reset state. -/
def Obligations.StepKeepsStateSound : Prop :=
  ∀ s t : State, StateInv s → step s = .next t → StateInv t
end

