-- ==== Sys2Proof/Laws/Memory.lean ====
section
/-! SUPPORT. DMEM: every operation keeps the canonical form, a read after a write gives the byte written, a write leaves
every other byte alone, and nothing is listed outside the addresses written. -/

namespace Sys2Proof.Machine

theorem Memory.wf_nil : Memory.wf [] := ⟨List.Pairwise.nil, by simp⟩

theorem Memory.wf_tail {c : Host.Cell} {m : Memory} (h : Memory.wf (c :: m)) : Memory.wf m :=
  ⟨(List.pairwise_cons.1 h.1).2, fun d hd => h.2 d (List.mem_cons_of_mem _ hd)⟩

theorem Memory.wf_cons {k : Nat} {v : Byte} {m : Memory} (hm : Memory.wf m) (hk : ∀ c ∈ m, k < c.1)
    (hv : v ≠ Memory.unlisted) : Memory.wf ((k, v) :: m) :=
  ⟨List.pairwise_cons.2 ⟨hk, hm.1⟩, fun c hc => by
    rcases List.mem_cons.1 hc with rfl | hc
    · exact hv
    · exact hm.2 c hc⟩

theorem Memory.head_lt {c : Host.Cell} {m : Memory} (h : Memory.wf (c :: m)) : ∀ d ∈ m, c.1 < d.1 :=
  (List.pairwise_cons.1 h.1).1

/-- An address below every listed one is unlisted. -/
theorem Memory.read_of_lt {m : Memory} {a : Nat} (h : ∀ c ∈ m, a < c.1) : m.read a = Memory.unlisted := by
  induction m with
  | nil => rfl
  | cons c m ih =>
    have hc : a < c.1 := h c (List.mem_cons_self ..)
    simp only [Memory.read, if_neg (Nat.ne_of_gt hc)]
    exact ih fun d hd => h d (List.mem_cons_of_mem _ hd)

/-- What a write can list: cells that were listed, and the address written. -/
theorem Memory.mem_write {m : Memory} {a : Nat} {v : Byte} {c : Host.Cell} (h : c ∈ m.write a v) :
    c ∈ m ∨ (c = (a, v) ∧ v ≠ Memory.unlisted) := by
  induction m with
  | nil =>
    simp only [Memory.write] at h
    split at h
    · simp at h
    · exact .inr ⟨by simpa using h, ‹_›⟩
  | cons d m ih =>
    obtain ⟨k, w⟩ := d
    simp only [Memory.write] at h
    split at h
    · split at h
      · exact .inl h
      · rcases List.mem_cons.1 h with h | h
        · exact .inr ⟨h, ‹_›⟩
        · exact .inl h
    · split at h
      · split at h
        · exact .inl (List.mem_cons_of_mem _ h)
        · rcases List.mem_cons.1 h with h | h
          · exact .inr ⟨h, ‹_›⟩
          · exact .inl (List.mem_cons_of_mem _ h)
      · rcases List.mem_cons.1 h with h | h
        · exact .inl (h ▸ List.mem_cons_self ..)
        · exact (ih h).imp_left (List.mem_cons_of_mem _)

/-- A write keeps the canonical form. -/
theorem Memory.write_wf {m : Memory} (h : Memory.wf m) (a : Nat) (v : Byte) : Memory.wf (m.write a v) := by
  induction m with
  | nil =>
    simp only [Memory.write]
    split
    · exact Memory.wf_nil
    · exact Memory.wf_cons Memory.wf_nil (by simp) ‹_›
  | cons d m ih =>
    obtain ⟨k, w⟩ := d
    simp only [Memory.write]
    split
    · rename_i hak
      split
      · exact h
      · refine Memory.wf_cons h (fun c hc => ?_) ‹_›
        rcases List.mem_cons.1 hc with rfl | hc
        · exact hak
        · exact Nat.lt_trans hak (Memory.head_lt h c hc)
    · split
      · rename_i _ hk
        split
        · exact Memory.wf_tail h
        · exact Memory.wf_cons (Memory.wf_tail h) (hk ▸ Memory.head_lt h) ‹_›
      · refine Memory.wf_cons (ih (Memory.wf_tail h)) (fun c hc => ?_) (h.2 (k, w) (List.mem_cons_self ..))
        rcases Memory.mem_write hc with hc | ⟨rfl, -⟩
        · exact Memory.head_lt h c hc
        · show k < a
          omega

/-- A read after a write to the same address gives the byte written. -/
theorem Memory.read_write_same {m : Memory} (h : Memory.wf m) (a : Nat) (v : Byte) : (m.write a v).read a = v := by
  induction m with
  | nil =>
    simp only [Memory.write]
    split <;> simp_all [Memory.read]
  | cons d m ih =>
    obtain ⟨k, w⟩ := d
    simp only [Memory.write]
    split
    · rename_i hak
      split
      · rename_i hv
        rw [hv]
        refine Memory.read_of_lt fun c hc => ?_
        rcases List.mem_cons.1 hc with rfl | hc
        · exact hak
        · exact Nat.lt_trans hak (Memory.head_lt h c hc)
      · simp [Memory.read]
    · split
      · rename_i _ hk
        split
        · rename_i hv
          rw [hv]
          exact Memory.read_of_lt (hk ▸ Memory.head_lt h)
        · simp [Memory.read]
      · rename_i hk
        simp only [Memory.read, if_neg (fun e => hk (Eq.symm e))]
        exact ih (Memory.wf_tail h)

/-- A write leaves every other address alone. -/
theorem Memory.read_write_other (m : Memory) {a b : Nat} (v : Byte) (hab : b ≠ a) :
    (m.write a v).read b = m.read b := by
  induction m with
  | nil =>
    simp only [Memory.write]
    split <;> simp [Memory.read, hab.symm]
  | cons d m ih =>
    obtain ⟨k, w⟩ := d
    simp only [Memory.write]
    split
    · split <;> simp [Memory.read, hab.symm]
    · split
      · rename_i _ hk
        subst hk
        split <;> simp [Memory.read, hab.symm]
      · simp only [Memory.read, ih]

/-! `memRead` -/

@[simp] theorem memRead_length (m : Memory) (a n : Nat) : (memRead m a n).length = n := by simp [memRead]

theorem memRead_congr {m m' : Memory} {a n : Nat} (h : ∀ x, a ≤ x → x < a + n → m'.read x = m.read x) :
    memRead m' a n = memRead m a n := by
  refine List.map_congr_left fun i hi => h _ (Nat.le_add_right ..) ?_
  have := List.mem_range.1 hi
  omega

theorem memRead_succ (m : Memory) (a n : Nat) : memRead m a (n + 1) = m.read a :: memRead m (a + 1) n := by
  simp only [memRead, List.range_succ_eq_map, List.map_cons, List.map_map, Nat.add_zero]
  exact congrArg _ (List.map_congr_left fun i _ => by simp [Nat.add_assoc, Nat.add_comm 1])

/-! `memWrite` -/

theorem memWrite_wf {m : Memory} (h : Memory.wf m) (a : Nat) (bs : List Byte) : Memory.wf (memWrite m a bs) := by
  induction bs generalizing m a with
  | nil => exact h
  | cons b bs ih => exact ih (Memory.write_wf h a b) _

/-- Every byte outside the bytes written reads as before. -/
theorem memWrite_read_outside (m : Memory) (a : Nat) (bs : List Byte) {x : Nat}
    (hx : x < a ∨ a + bs.length ≤ x) : (memWrite m a bs).read x = m.read x := by
  induction bs generalizing m a with
  | nil => rfl
  | cons b bs ih =>
    simp only [List.length_cons] at hx
    rw [memWrite, ih _ _ (by omega), Memory.read_write_other _ _ (by omega)]

/-- Reading back what was written. -/
theorem memRead_memWrite {m : Memory} (h : Memory.wf m) (a : Nat) (bs : List Byte) :
    memRead (memWrite m a bs) a bs.length = bs := by
  induction bs generalizing m a with
  | nil => rfl
  | cons b bs ih =>
    rw [List.length_cons, memRead_succ, memWrite, ih (Memory.write_wf h a b),
      memWrite_read_outside _ _ _ (by omega), Memory.read_write_same h]

/-- What a write of bytes can list: cells that were listed, and addresses it wrote. -/
theorem mem_memWrite {m : Memory} {a : Nat} {bs : List Byte} {c : Host.Cell} (h : c ∈ memWrite m a bs) :
    c ∈ m ∨ (a ≤ c.1 ∧ c.1 < a + bs.length) := by
  induction bs generalizing m a with
  | nil => exact .inl h
  | cons b bs ih =>
    rcases ih h with h | h
    · rcases Memory.mem_write h with h | ⟨rfl, -⟩
      · exact .inl h
      · exact .inr (by simp)
    · exact .inr (by simp only [List.length_cons]; omega)

/-! `memScramble` -/

theorem memScramble_wf {m : Memory} (h : Memory.wf m) (a k n : Nat) : Memory.wf (memScramble m a k n) := by
  induction n generalizing m a k with
  | zero => exact h
  | succ n ih => exact ih (Memory.write_wf h _ _) _ _

/-- Every byte outside the scrambled range reads as before. -/
theorem memScramble_read_outside (m : Memory) (a k n : Nat) {x : Nat} (hx : x < a ∨ a + n ≤ x) :
    (memScramble m a k n).read x = m.read x := by
  induction n generalizing m a k with
  | zero => rfl
  | succ n ih => rw [memScramble, ih _ _ _ (by omega), Memory.read_write_other _ _ (by omega)]

/-- A byte inside the scrambled range is a free value. -/
theorem memScramble_read_inside {m : Memory} (h : Memory.wf m) (a k n : Nat) {i : Nat} (hi : i < n) :
    (memScramble m a k n).read (a + i) = Config.freeByte (k + i) := by
  induction n generalizing m a k i with
  | zero => omega
  | succ n ih =>
    rw [memScramble]
    rcases Nat.eq_zero_or_pos i with rfl | hpos
    · rw [memScramble_read_outside _ _ _ _ (by omega)]
      exact Memory.read_write_same h _ _
    · have := ih (Memory.write_wf h a (Config.freeByte k)) (a + 1) (k + 1) (i := i - 1) (by omega)
      rwa [show a + 1 + (i - 1) = a + i by omega, show k + 1 + (i - 1) = k + i by omega] at this

/-- What scrambling can list: cells that were listed, and addresses of the range. -/
theorem mem_memScramble {m : Memory} {a k n : Nat} {c : Host.Cell} (h : c ∈ memScramble m a k n) :
    c ∈ m ∨ (a ≤ c.1 ∧ c.1 < a + n) := by
  induction n generalizing m a k with
  | zero => exact .inl h
  | succ n ih =>
    rcases ih h with h | h
    · rcases Memory.mem_write h with h | ⟨rfl, -⟩
      · exact .inl h
      · exact .inr (by simp)
    · exact .inr (by omega)

end Sys2Proof.Machine
end

