-- ==== Sys2Proof/Laws/State.lean ====
section
/-! SUPPORT. One lemma per field per update of State and of Builder, each true by rfl: a later proof rewrites with these
and unfolds no record update. -/

namespace Sys2Proof.Machine

/-! `clearDone` (R81) -/

@[simp] theorem clearDone_cfg (s : State) : (clearDone s).cfg = s.cfg := rfl
@[simp] theorem clearDone_cmd (s : State) : (clearDone s).cmd = s.cmd := rfl
@[simp] theorem clearDone_srcAddr (s : State) : (clearDone s).srcAddr = s.srcAddr := rfl
@[simp] theorem clearDone_srcLen (s : State) : (clearDone s).srcLen = s.srcLen := rfl
@[simp] theorem clearDone_dstAddr (s : State) : (clearDone s).dstAddr = s.dstAddr := rfl
@[simp] theorem clearDone_dstCap (s : State) : (clearDone s).dstCap = s.dstCap := rfl
@[simp] theorem clearDone_irqEn (s : State) : (clearDone s).irqEn = s.irqEn := rfl
@[simp] theorem clearDone_busy (s : State) : (clearDone s).busy = s.busy := rfl
@[simp] theorem clearDone_done (s : State) : (clearDone s).done = false := rfl
@[simp] theorem clearDone_err (s : State) : (clearDone s).err = s.err := rfl
@[simp] theorem clearDone_errCode (s : State) : (clearDone s).errCode = s.errCode := rfl
@[simp] theorem clearDone_outLen (s : State) : (clearDone s).outLen = s.outLen := rfl
@[simp] theorem clearDone_pad (s : State) : (clearDone s).pad = s.pad := rfl
@[simp] theorem clearDone_hdrLen (s : State) : (clearDone s).hdrLen = s.hdrLen := rfl
@[simp] theorem clearDone_dataLen (s : State) : (clearDone s).dataLen = s.dataLen := rfl
@[simp] theorem clearDone_builder (s : State) : (clearDone s).builder = s.builder := rfl
@[simp] theorem clearDone_dmem (s : State) : (clearDone s).dmem = s.dmem := rfl
@[simp] theorem clearDone_rst (s : State) : (clearDone s).rst = s.rst := rfl
@[simp] theorem clearDone_inbox (s : State) : (clearDone s).inbox = s.inbox := rfl
@[simp] theorem clearDone_reply (s : State) : (clearDone s).reply = s.reply := rfl
@[simp] theorem clearDone_draws (s : State) : (clearDone s).draws = s.draws := rfl

/-! `clearErr` (R81) -/

@[simp] theorem clearErr_cfg (s : State) : (clearErr s).cfg = s.cfg := rfl
@[simp] theorem clearErr_cmd (s : State) : (clearErr s).cmd = s.cmd := rfl
@[simp] theorem clearErr_srcAddr (s : State) : (clearErr s).srcAddr = s.srcAddr := rfl
@[simp] theorem clearErr_srcLen (s : State) : (clearErr s).srcLen = s.srcLen := rfl
@[simp] theorem clearErr_dstAddr (s : State) : (clearErr s).dstAddr = s.dstAddr := rfl
@[simp] theorem clearErr_dstCap (s : State) : (clearErr s).dstCap = s.dstCap := rfl
@[simp] theorem clearErr_irqEn (s : State) : (clearErr s).irqEn = s.irqEn := rfl
@[simp] theorem clearErr_busy (s : State) : (clearErr s).busy = s.busy := rfl
@[simp] theorem clearErr_done (s : State) : (clearErr s).done = s.done := rfl
@[simp] theorem clearErr_err (s : State) : (clearErr s).err = false := rfl
@[simp] theorem clearErr_errCode (s : State) : (clearErr s).errCode = 0 := rfl
@[simp] theorem clearErr_outLen (s : State) : (clearErr s).outLen = s.outLen := rfl
@[simp] theorem clearErr_pad (s : State) : (clearErr s).pad = s.pad := rfl
@[simp] theorem clearErr_hdrLen (s : State) : (clearErr s).hdrLen = s.hdrLen := rfl
@[simp] theorem clearErr_dataLen (s : State) : (clearErr s).dataLen = s.dataLen := rfl
@[simp] theorem clearErr_builder (s : State) : (clearErr s).builder = s.builder := rfl
@[simp] theorem clearErr_dmem (s : State) : (clearErr s).dmem = s.dmem := rfl
@[simp] theorem clearErr_rst (s : State) : (clearErr s).rst = s.rst := rfl
@[simp] theorem clearErr_inbox (s : State) : (clearErr s).inbox = s.inbox := rfl
@[simp] theorem clearErr_reply (s : State) : (clearErr s).reply = s.reply := rfl
@[simp] theorem clearErr_draws (s : State) : (clearErr s).draws = s.draws := rfl

/-! `acceptStart` (R74) -/

@[simp] theorem acceptStart_cfg (s : State) : (acceptStart s).cfg = s.cfg := rfl
@[simp] theorem acceptStart_cmd (s : State) : (acceptStart s).cmd = s.cmd := rfl
@[simp] theorem acceptStart_srcAddr (s : State) : (acceptStart s).srcAddr = s.srcAddr := rfl
@[simp] theorem acceptStart_srcLen (s : State) : (acceptStart s).srcLen = s.srcLen := rfl
@[simp] theorem acceptStart_dstAddr (s : State) : (acceptStart s).dstAddr = s.dstAddr := rfl
@[simp] theorem acceptStart_dstCap (s : State) : (acceptStart s).dstCap = s.dstCap := rfl
@[simp] theorem acceptStart_irqEn (s : State) : (acceptStart s).irqEn = s.irqEn := rfl
@[simp] theorem acceptStart_busy (s : State) : (acceptStart s).busy = true := rfl
@[simp] theorem acceptStart_done (s : State) : (acceptStart s).done = false := rfl
@[simp] theorem acceptStart_err (s : State) : (acceptStart s).err = false := rfl
@[simp] theorem acceptStart_errCode (s : State) : (acceptStart s).errCode = 0 := rfl
@[simp] theorem acceptStart_outLen (s : State) : (acceptStart s).outLen = s.outLen := rfl
@[simp] theorem acceptStart_pad (s : State) : (acceptStart s).pad = s.pad := rfl
@[simp] theorem acceptStart_hdrLen (s : State) : (acceptStart s).hdrLen = s.hdrLen := rfl
@[simp] theorem acceptStart_dataLen (s : State) : (acceptStart s).dataLen = s.dataLen := rfl
@[simp] theorem acceptStart_builder (s : State) : (acceptStart s).builder = s.builder := rfl
@[simp] theorem acceptStart_dmem (s : State) : (acceptStart s).dmem = s.dmem := rfl
@[simp] theorem acceptStart_rst (s : State) : (acceptStart s).rst = s.rst := rfl
@[simp] theorem acceptStart_inbox (s : State) : (acceptStart s).inbox = s.inbox := rfl
@[simp] theorem acceptStart_reply (s : State) : (acceptStart s).reply = s.reply := rfl
@[simp] theorem acceptStart_draws (s : State) : (acceptStart s).draws = s.draws := rfl

/-! `successCompletion` (R76) -/

@[simp] theorem successCompletion_cfg (u : Updates) (s : State) : (successCompletion u s).cfg = s.cfg := rfl
@[simp] theorem successCompletion_cmd (u : Updates) (s : State) : (successCompletion u s).cmd = s.cmd := rfl
@[simp] theorem successCompletion_srcAddr (u : Updates) (s : State) : (successCompletion u s).srcAddr = s.srcAddr := rfl
@[simp] theorem successCompletion_srcLen (u : Updates) (s : State) : (successCompletion u s).srcLen = s.srcLen := rfl
@[simp] theorem successCompletion_dstAddr (u : Updates) (s : State) : (successCompletion u s).dstAddr = s.dstAddr := rfl
@[simp] theorem successCompletion_dstCap (u : Updates) (s : State) : (successCompletion u s).dstCap = s.dstCap := rfl
@[simp] theorem successCompletion_irqEn (u : Updates) (s : State) : (successCompletion u s).irqEn = s.irqEn := rfl
@[simp] theorem successCompletion_busy (u : Updates) (s : State) : (successCompletion u s).busy = false := rfl
@[simp] theorem successCompletion_done (u : Updates) (s : State) : (successCompletion u s).done = true := rfl
@[simp] theorem successCompletion_err (u : Updates) (s : State) : (successCompletion u s).err = s.err := rfl
@[simp] theorem successCompletion_errCode (u : Updates) (s : State) : (successCompletion u s).errCode = s.errCode := rfl
@[simp] theorem successCompletion_outLen (u : Updates) (s : State) : (successCompletion u s).outLen = BitVec.ofNat 32 u.outLen := rfl
@[simp] theorem successCompletion_pad (u : Updates) (s : State) : (successCompletion u s).pad = BitVec.ofNat 3 u.pad := rfl
@[simp] theorem successCompletion_hdrLen (u : Updates) (s : State) : (successCompletion u s).hdrLen = BitVec.ofNat 11 u.hdrLen := rfl
@[simp] theorem successCompletion_dataLen (u : Updates) (s : State) : (successCompletion u s).dataLen = BitVec.ofNat 32 u.dataLen := rfl
@[simp] theorem successCompletion_builder (u : Updates) (s : State) : (successCompletion u s).builder = u.builder := rfl
@[simp] theorem successCompletion_dmem (u : Updates) (s : State) : (successCompletion u s).dmem = u.dmem := rfl
@[simp] theorem successCompletion_rst (u : Updates) (s : State) : (successCompletion u s).rst = s.rst := rfl
@[simp] theorem successCompletion_inbox (u : Updates) (s : State) : (successCompletion u s).inbox = s.inbox := rfl
@[simp] theorem successCompletion_reply (u : Updates) (s : State) : (successCompletion u s).reply = s.reply := rfl
@[simp] theorem successCompletion_draws (u : Updates) (s : State) : (successCompletion u s).draws = s.draws := rfl

/-! `errorCompletion` (R107) -/

@[simp] theorem errorCompletion_cfg (c : Bool) (e : CmdError) (s : State) : (errorCompletion c e s).cfg = s.cfg := rfl
@[simp] theorem errorCompletion_cmd (c : Bool) (e : CmdError) (s : State) : (errorCompletion c e s).cmd = s.cmd := rfl
@[simp] theorem errorCompletion_srcAddr (c : Bool) (e : CmdError) (s : State) : (errorCompletion c e s).srcAddr = s.srcAddr := rfl
@[simp] theorem errorCompletion_srcLen (c : Bool) (e : CmdError) (s : State) : (errorCompletion c e s).srcLen = s.srcLen := rfl
@[simp] theorem errorCompletion_dstAddr (c : Bool) (e : CmdError) (s : State) : (errorCompletion c e s).dstAddr = s.dstAddr := rfl
@[simp] theorem errorCompletion_dstCap (c : Bool) (e : CmdError) (s : State) : (errorCompletion c e s).dstCap = s.dstCap := rfl
@[simp] theorem errorCompletion_irqEn (c : Bool) (e : CmdError) (s : State) : (errorCompletion c e s).irqEn = s.irqEn := rfl
@[simp] theorem errorCompletion_busy (c : Bool) (e : CmdError) (s : State) : (errorCompletion c e s).busy = false := rfl
@[simp] theorem errorCompletion_done (c : Bool) (e : CmdError) (s : State) : (errorCompletion c e s).done = false := rfl
@[simp] theorem errorCompletion_err (c : Bool) (e : CmdError) (s : State) : (errorCompletion c e s).err = true := rfl
@[simp] theorem errorCompletion_errCode (c : Bool) (e : CmdError) (s : State) : (errorCompletion c e s).errCode = e.code := rfl
@[simp] theorem errorCompletion_outLen (c : Bool) (e : CmdError) (s : State) : (errorCompletion c e s).outLen = 0 := rfl
@[simp] theorem errorCompletion_pad (c : Bool) (e : CmdError) (s : State) : (errorCompletion c e s).pad = 0 := rfl
@[simp] theorem errorCompletion_hdrLen (c : Bool) (e : CmdError) (s : State) : (errorCompletion c e s).hdrLen = 0 := rfl
@[simp] theorem errorCompletion_dataLen (c : Bool) (e : CmdError) (s : State) : (errorCompletion c e s).dataLen = 0 := rfl
@[simp] theorem errorCompletion_builder (c : Bool) (e : CmdError) (s : State) : (errorCompletion c e s).builder = if c then Builder.reset else s.builder := rfl
@[simp] theorem errorCompletion_dmem (c : Bool) (e : CmdError) (s : State) : (errorCompletion c e s).dmem = s.dmem := rfl
@[simp] theorem errorCompletion_rst (c : Bool) (e : CmdError) (s : State) : (errorCompletion c e s).rst = s.rst := rfl
@[simp] theorem errorCompletion_inbox (c : Bool) (e : CmdError) (s : State) : (errorCompletion c e s).inbox = s.inbox := rfl
@[simp] theorem errorCompletion_reply (c : Bool) (e : CmdError) (s : State) : (errorCompletion c e s).reply = s.reply := rfl
@[simp] theorem errorCompletion_draws (c : Bool) (e : CmdError) (s : State) : (errorCompletion c e s).draws = s.draws := rfl

/-! `resetBlock` (R123, R124) -/

@[simp] theorem resetBlock_cfg (s : State) : (resetBlock s).cfg = s.cfg := rfl
@[simp] theorem resetBlock_cmd (s : State) : (resetBlock s).cmd = 0 := rfl
@[simp] theorem resetBlock_srcAddr (s : State) : (resetBlock s).srcAddr = 0 := rfl
@[simp] theorem resetBlock_srcLen (s : State) : (resetBlock s).srcLen = 0 := rfl
@[simp] theorem resetBlock_dstAddr (s : State) : (resetBlock s).dstAddr = 0 := rfl
@[simp] theorem resetBlock_dstCap (s : State) : (resetBlock s).dstCap = 0 := rfl
@[simp] theorem resetBlock_irqEn (s : State) : (resetBlock s).irqEn = false := rfl
@[simp] theorem resetBlock_busy (s : State) : (resetBlock s).busy = false := rfl
@[simp] theorem resetBlock_done (s : State) : (resetBlock s).done = false := rfl
@[simp] theorem resetBlock_err (s : State) : (resetBlock s).err = false := rfl
@[simp] theorem resetBlock_errCode (s : State) : (resetBlock s).errCode = 0 := rfl
@[simp] theorem resetBlock_outLen (s : State) : (resetBlock s).outLen = 0 := rfl
@[simp] theorem resetBlock_pad (s : State) : (resetBlock s).pad = 0 := rfl
@[simp] theorem resetBlock_hdrLen (s : State) : (resetBlock s).hdrLen = 0 := rfl
@[simp] theorem resetBlock_dataLen (s : State) : (resetBlock s).dataLen = 0 := rfl
@[simp] theorem resetBlock_builder (s : State) : (resetBlock s).builder = Builder.reset := rfl
@[simp] theorem resetBlock_dmem (s : State) : (resetBlock s).dmem = memScramble s.dmem s.dstAddr.toNat s.draws (abandonedBytes s) := rfl
@[simp] theorem resetBlock_rst (s : State) : (resetBlock s).rst = s.rst := rfl
@[simp] theorem resetBlock_inbox (s : State) : (resetBlock s).inbox = s.inbox := rfl
@[simp] theorem resetBlock_reply (s : State) : (resetBlock s).reply = s.reply := rfl
@[simp] theorem resetBlock_draws (s : State) : (resetBlock s).draws = s.draws + abandonedBytes s := rfl

/-! `placeCommand` (R74) -/

@[simp] theorem placeCommand_cfg (w : Word) (s : State) : (placeCommand w s).cfg = s.cfg := rfl
@[simp] theorem placeCommand_cmd (w : Word) (s : State) : (placeCommand w s).cmd = opcodeField w := rfl
@[simp] theorem placeCommand_srcAddr (w : Word) (s : State) : (placeCommand w s).srcAddr = s.srcAddr := rfl
@[simp] theorem placeCommand_srcLen (w : Word) (s : State) : (placeCommand w s).srcLen = s.srcLen := rfl
@[simp] theorem placeCommand_dstAddr (w : Word) (s : State) : (placeCommand w s).dstAddr = s.dstAddr := rfl
@[simp] theorem placeCommand_dstCap (w : Word) (s : State) : (placeCommand w s).dstCap = s.dstCap := rfl
@[simp] theorem placeCommand_irqEn (w : Word) (s : State) : (placeCommand w s).irqEn = s.irqEn := rfl
@[simp] theorem placeCommand_busy (w : Word) (s : State) : (placeCommand w s).busy = true := rfl
@[simp] theorem placeCommand_done (w : Word) (s : State) : (placeCommand w s).done = false := rfl
@[simp] theorem placeCommand_err (w : Word) (s : State) : (placeCommand w s).err = false := rfl
@[simp] theorem placeCommand_errCode (w : Word) (s : State) : (placeCommand w s).errCode = 0 := rfl
@[simp] theorem placeCommand_outLen (w : Word) (s : State) : (placeCommand w s).outLen = s.outLen := rfl
@[simp] theorem placeCommand_pad (w : Word) (s : State) : (placeCommand w s).pad = s.pad := rfl
@[simp] theorem placeCommand_hdrLen (w : Word) (s : State) : (placeCommand w s).hdrLen = s.hdrLen := rfl
@[simp] theorem placeCommand_dataLen (w : Word) (s : State) : (placeCommand w s).dataLen = s.dataLen := rfl
@[simp] theorem placeCommand_builder (w : Word) (s : State) : (placeCommand w s).builder = s.builder := rfl
@[simp] theorem placeCommand_dmem (w : Word) (s : State) : (placeCommand w s).dmem = s.dmem := rfl
@[simp] theorem placeCommand_rst (w : Word) (s : State) : (placeCommand w s).rst = false := rfl
@[simp] theorem placeCommand_inbox (w : Word) (s : State) : (placeCommand w s).inbox = engineFirst s.inbox := rfl
@[simp] theorem placeCommand_reply (w : Word) (s : State) : (placeCommand w s).reply = s.reply := rfl
@[simp] theorem placeCommand_draws (w : Word) (s : State) : (placeCommand w s).draws = s.draws := rfl

/-! `builderUpdate` (R76) -/

@[simp] theorem builderUpdate_builder (s : State) (b : Builder) : (builderUpdate s b).builder = b := rfl
@[simp] theorem builderUpdate_dmem (s : State) (b : Builder) : (builderUpdate s b).dmem = s.dmem := rfl
@[simp] theorem builderUpdate_outLen (s : State) (b : Builder) : (builderUpdate s b).outLen = 0 := rfl
@[simp] theorem builderUpdate_pad (s : State) (b : Builder) : (builderUpdate s b).pad = 0 := rfl
@[simp] theorem builderUpdate_hdrLen (s : State) (b : Builder) : (builderUpdate s b).hdrLen = 0 := rfl
@[simp] theorem builderUpdate_dataLen (s : State) (b : Builder) : (builderUpdate s b).dataLen = 0 := rfl

/-! `clearTree` (R83) -/

@[simp] theorem clearTree_freq (b : Builder) : (b.clearTree).freq = b.freq := rfl
@[simp] theorem clearTree_nsym (b : Builder) : (b.clearTree).nsym = b.nsym := rfl
@[simp] theorem clearTree_total (b : Builder) : (b.clearTree).total = b.total := rfl
@[simp] theorem clearTree_nodes (b : Builder) : (b.clearTree).nodes = [] := rfl
@[simp] theorem clearTree_nnodes (b : Builder) : (b.clearTree).nnodes = 0 := rfl
@[simp] theorem clearTree_root (b : Builder) : (b.clearTree).root = 0x1FF := rfl
@[simp] theorem clearTree_treeValid (b : Builder) : (b.clearTree).treeValid = false := rfl
@[simp] theorem clearTree_codes (b : Builder) : (b.clearTree).codes = b.codes := rfl
@[simp] theorem clearTree_maxlen (b : Builder) : (b.clearTree).maxlen = b.maxlen := rfl
@[simp] theorem clearTree_codesValid (b : Builder) : (b.clearTree).codesValid = b.codesValid := rfl

/-! `clearCodes` (R83) -/

@[simp] theorem clearCodes_freq (b : Builder) : (b.clearCodes).freq = b.freq := rfl
@[simp] theorem clearCodes_nsym (b : Builder) : (b.clearCodes).nsym = b.nsym := rfl
@[simp] theorem clearCodes_total (b : Builder) : (b.clearCodes).total = b.total := rfl
@[simp] theorem clearCodes_nodes (b : Builder) : (b.clearCodes).nodes = b.nodes := rfl
@[simp] theorem clearCodes_nnodes (b : Builder) : (b.clearCodes).nnodes = b.nnodes := rfl
@[simp] theorem clearCodes_root (b : Builder) : (b.clearCodes).root = b.root := rfl
@[simp] theorem clearCodes_treeValid (b : Builder) : (b.clearCodes).treeValid = b.treeValid := rfl
@[simp] theorem clearCodes_codes (b : Builder) : (b.clearCodes).codes = noCodes := rfl
@[simp] theorem clearCodes_maxlen (b : Builder) : (b.clearCodes).maxlen = 0 := rfl
@[simp] theorem clearCodes_codesValid (b : Builder) : (b.clearCodes).codesValid = false := rfl

/-! `withFreq` (R92) -/

@[simp] theorem withFreq_freq (b : Builder) (f : Table Nat) : (b.withFreq f).freq = freqWord f := rfl
@[simp] theorem withFreq_nsym (b : Builder) (f : Table Nat) : (b.withFreq f).nsym = BitVec.ofNat 9 (distinctSymbols f) := rfl
@[simp] theorem withFreq_total (b : Builder) (f : Table Nat) : (b.withFreq f).total = BitVec.ofNat 32 (totalCount f) := rfl
@[simp] theorem withFreq_nodes (b : Builder) (f : Table Nat) : (b.withFreq f).nodes = b.nodes := rfl
@[simp] theorem withFreq_nnodes (b : Builder) (f : Table Nat) : (b.withFreq f).nnodes = b.nnodes := rfl
@[simp] theorem withFreq_root (b : Builder) (f : Table Nat) : (b.withFreq f).root = b.root := rfl
@[simp] theorem withFreq_treeValid (b : Builder) (f : Table Nat) : (b.withFreq f).treeValid = b.treeValid := rfl
@[simp] theorem withFreq_codes (b : Builder) (f : Table Nat) : (b.withFreq f).codes = b.codes := rfl
@[simp] theorem withFreq_maxlen (b : Builder) (f : Table Nat) : (b.withFreq f).maxlen = b.maxlen := rfl
@[simp] theorem withFreq_codesValid (b : Builder) (f : Table Nat) : (b.withFreq f).codesValid = b.codesValid := rfl

/-! `withTree` (R86) -/

@[simp] theorem withTree_freq (b : Builder) (t : List Node × Nat) : (b.withTree t).freq = b.freq := rfl
@[simp] theorem withTree_nsym (b : Builder) (t : List Node × Nat) : (b.withTree t).nsym = b.nsym := rfl
@[simp] theorem withTree_total (b : Builder) (t : List Node × Nat) : (b.withTree t).total = b.total := rfl
@[simp] theorem withTree_nodes (b : Builder) (t : List Node × Nat) : (b.withTree t).nodes = t.1 := rfl
@[simp] theorem withTree_nnodes (b : Builder) (t : List Node × Nat) : (b.withTree t).nnodes = BitVec.ofNat 10 t.1.length := rfl
@[simp] theorem withTree_root (b : Builder) (t : List Node × Nat) : (b.withTree t).root = BitVec.ofNat 9 t.2 := rfl
@[simp] theorem withTree_treeValid (b : Builder) (t : List Node × Nat) : (b.withTree t).treeValid = true := rfl
@[simp] theorem withTree_codes (b : Builder) (t : List Node × Nat) : (b.withTree t).codes = b.codes := rfl
@[simp] theorem withTree_maxlen (b : Builder) (t : List Node × Nat) : (b.withTree t).maxlen = b.maxlen := rfl
@[simp] theorem withTree_codesValid (b : Builder) (t : List Node × Nat) : (b.withTree t).codesValid = b.codesValid := rfl

/-! `withCodes` (R90) -/

@[simp] theorem withCodes_freq (b : Builder) (c : Table BitString) : (b.withCodes c).freq = b.freq := rfl
@[simp] theorem withCodes_nsym (b : Builder) (c : Table BitString) : (b.withCodes c).nsym = b.nsym := rfl
@[simp] theorem withCodes_total (b : Builder) (c : Table BitString) : (b.withCodes c).total = b.total := rfl
@[simp] theorem withCodes_nodes (b : Builder) (c : Table BitString) : (b.withCodes c).nodes = b.nodes := rfl
@[simp] theorem withCodes_nnodes (b : Builder) (c : Table BitString) : (b.withCodes c).nnodes = b.nnodes := rfl
@[simp] theorem withCodes_root (b : Builder) (c : Table BitString) : (b.withCodes c).root = b.root := rfl
@[simp] theorem withCodes_treeValid (b : Builder) (c : Table BitString) : (b.withCodes c).treeValid = b.treeValid := rfl
@[simp] theorem withCodes_codes (b : Builder) (c : Table BitString) : (b.withCodes c).codes = c := rfl
@[simp] theorem withCodes_maxlen (b : Builder) (c : Table BitString) : (b.withCodes c).maxlen = BitVec.ofNat 9 (maxCodeLength c) := rfl
@[simp] theorem withCodes_codesValid (b : Builder) (c : Table BitString) : (b.withCodes c).codesValid = true := rfl

/-! Updates with a case split: what they leave unchanged -/

@[simp] theorem start_cfg (s : State) : (start s).cfg = s.cfg := by
  unfold start; split <;> rfl
@[simp] theorem start_cmd (s : State) : (start s).cmd = s.cmd := by
  unfold start; split <;> rfl
@[simp] theorem start_srcAddr (s : State) : (start s).srcAddr = s.srcAddr := by
  unfold start; split <;> rfl
@[simp] theorem start_srcLen (s : State) : (start s).srcLen = s.srcLen := by
  unfold start; split <;> rfl
@[simp] theorem start_dstAddr (s : State) : (start s).dstAddr = s.dstAddr := by
  unfold start; split <;> rfl
@[simp] theorem start_dstCap (s : State) : (start s).dstCap = s.dstCap := by
  unfold start; split <;> rfl
@[simp] theorem start_irqEn (s : State) : (start s).irqEn = s.irqEn := by
  unfold start; split <;> rfl
@[simp] theorem start_outLen (s : State) : (start s).outLen = s.outLen := by
  unfold start; split <;> rfl
@[simp] theorem start_pad (s : State) : (start s).pad = s.pad := by
  unfold start; split <;> rfl
@[simp] theorem start_hdrLen (s : State) : (start s).hdrLen = s.hdrLen := by
  unfold start; split <;> rfl
@[simp] theorem start_dataLen (s : State) : (start s).dataLen = s.dataLen := by
  unfold start; split <;> rfl
@[simp] theorem start_builder (s : State) : (start s).builder = s.builder := by
  unfold start; split <;> rfl
@[simp] theorem start_dmem (s : State) : (start s).dmem = s.dmem := by
  unfold start; split <;> rfl
@[simp] theorem start_rst (s : State) : (start s).rst = s.rst := by
  unfold start; split <;> rfl
@[simp] theorem start_inbox (s : State) : (start s).inbox = s.inbox := by
  unfold start; split <;> rfl
@[simp] theorem start_reply (s : State) : (start s).reply = s.reply := by
  unfold start; split <;> rfl
@[simp] theorem start_draws (s : State) : (start s).draws = s.draws := by
  unfold start; split <;> rfl
@[simp] theorem writeStatus_cfg (v : Word) (s : State) : (writeStatus v s).cfg = s.cfg := by
  unfold writeStatus; dsimp only; split <;> split <;> rfl
@[simp] theorem writeStatus_cmd (v : Word) (s : State) : (writeStatus v s).cmd = s.cmd := by
  unfold writeStatus; dsimp only; split <;> split <;> rfl
@[simp] theorem writeStatus_srcAddr (v : Word) (s : State) : (writeStatus v s).srcAddr = s.srcAddr := by
  unfold writeStatus; dsimp only; split <;> split <;> rfl
@[simp] theorem writeStatus_srcLen (v : Word) (s : State) : (writeStatus v s).srcLen = s.srcLen := by
  unfold writeStatus; dsimp only; split <;> split <;> rfl
@[simp] theorem writeStatus_dstAddr (v : Word) (s : State) : (writeStatus v s).dstAddr = s.dstAddr := by
  unfold writeStatus; dsimp only; split <;> split <;> rfl
@[simp] theorem writeStatus_dstCap (v : Word) (s : State) : (writeStatus v s).dstCap = s.dstCap := by
  unfold writeStatus; dsimp only; split <;> split <;> rfl
@[simp] theorem writeStatus_irqEn (v : Word) (s : State) : (writeStatus v s).irqEn = s.irqEn := by
  unfold writeStatus; dsimp only; split <;> split <;> rfl
@[simp] theorem writeStatus_busy (v : Word) (s : State) : (writeStatus v s).busy = s.busy := by
  unfold writeStatus; dsimp only; split <;> split <;> rfl
@[simp] theorem writeStatus_outLen (v : Word) (s : State) : (writeStatus v s).outLen = s.outLen := by
  unfold writeStatus; dsimp only; split <;> split <;> rfl
@[simp] theorem writeStatus_pad (v : Word) (s : State) : (writeStatus v s).pad = s.pad := by
  unfold writeStatus; dsimp only; split <;> split <;> rfl
@[simp] theorem writeStatus_hdrLen (v : Word) (s : State) : (writeStatus v s).hdrLen = s.hdrLen := by
  unfold writeStatus; dsimp only; split <;> split <;> rfl
@[simp] theorem writeStatus_dataLen (v : Word) (s : State) : (writeStatus v s).dataLen = s.dataLen := by
  unfold writeStatus; dsimp only; split <;> split <;> rfl
@[simp] theorem writeStatus_builder (v : Word) (s : State) : (writeStatus v s).builder = s.builder := by
  unfold writeStatus; dsimp only; split <;> split <;> rfl
@[simp] theorem writeStatus_dmem (v : Word) (s : State) : (writeStatus v s).dmem = s.dmem := by
  unfold writeStatus; dsimp only; split <;> split <;> rfl
@[simp] theorem writeStatus_rst (v : Word) (s : State) : (writeStatus v s).rst = s.rst := by
  unfold writeStatus; dsimp only; split <;> split <;> rfl
@[simp] theorem writeStatus_inbox (v : Word) (s : State) : (writeStatus v s).inbox = s.inbox := by
  unfold writeStatus; dsimp only; split <;> split <;> rfl
@[simp] theorem writeStatus_reply (v : Word) (s : State) : (writeStatus v s).reply = s.reply := by
  unfold writeStatus; dsimp only; split <;> split <;> rfl
@[simp] theorem writeStatus_draws (v : Word) (s : State) : (writeStatus v s).draws = s.draws := by
  unfold writeStatus; dsimp only; split <;> split <;> rfl
@[simp] theorem complete_cfg (c : Bool) (r : CmdResult) (s : State) : (complete c r s).cfg = s.cfg := by
  cases r <;> rfl
@[simp] theorem complete_cmd (c : Bool) (r : CmdResult) (s : State) : (complete c r s).cmd = s.cmd := by
  cases r <;> rfl
@[simp] theorem complete_srcAddr (c : Bool) (r : CmdResult) (s : State) : (complete c r s).srcAddr = s.srcAddr := by
  cases r <;> rfl
@[simp] theorem complete_srcLen (c : Bool) (r : CmdResult) (s : State) : (complete c r s).srcLen = s.srcLen := by
  cases r <;> rfl
@[simp] theorem complete_dstAddr (c : Bool) (r : CmdResult) (s : State) : (complete c r s).dstAddr = s.dstAddr := by
  cases r <;> rfl
@[simp] theorem complete_dstCap (c : Bool) (r : CmdResult) (s : State) : (complete c r s).dstCap = s.dstCap := by
  cases r <;> rfl
@[simp] theorem complete_irqEn (c : Bool) (r : CmdResult) (s : State) : (complete c r s).irqEn = s.irqEn := by
  cases r <;> rfl
@[simp] theorem complete_rst (c : Bool) (r : CmdResult) (s : State) : (complete c r s).rst = s.rst := by
  cases r <;> rfl
@[simp] theorem complete_inbox (c : Bool) (r : CmdResult) (s : State) : (complete c r s).inbox = s.inbox := by
  cases r <;> rfl
@[simp] theorem complete_reply (c : Bool) (r : CmdResult) (s : State) : (complete c r s).reply = s.reply := by
  cases r <;> rfl
@[simp] theorem complete_draws (c : Bool) (r : CmdResult) (s : State) : (complete c r s).draws = s.draws := by
  cases r <;> rfl
@[simp] theorem complete_busy (c : Bool) (r : CmdResult) (s : State) : (complete c r s).busy = false := by
  cases r <;> rfl
@[simp] theorem complete_ok (c : Bool) (u : Updates) (s : State) : complete c (.ok u) s = successCompletion u s := rfl
@[simp] theorem complete_error (c : Bool) (e : CmdError) (s : State) :
    complete c (.error e) s = errorCompletion c e s := rfl

end Sys2Proof.Machine
end

