-- ==== Sys2Proof/Laws/Tables.lean ====
section
/-! SUPPORT. Symbol tables: an entry of each table operation, equality by entries, and the tables' lists as maps over
the symbols. -/

namespace Sys2Proof

@[simp] theorem allSymbols_length : allSymbols.length = 256 := by simp [allSymbols]

@[simp] theorem allSymbols_getElem (i : Nat) (h : i < allSymbols.length) : allSymbols[i] = BitVec.ofNat 8 i := by
  simp [allSymbols]

@[simp] theorem mem_allSymbols (s : Byte) : s ∈ allSymbols :=
  List.mem_map.2 ⟨s.toNat, List.mem_range.2 s.isLt, by simp⟩

/-- The symbols are listed in strictly ascending order. -/
theorem allSymbols_ascending : allSymbols.Pairwise fun s t => s.toNat < t.toNat := by
  refine List.pairwise_map.2 (List.Pairwise.imp_of_mem (fun {a b} ha hb h => ?_) (List.pairwise_lt_range (n := 256)))
  have ha := List.mem_range.1 ha
  have hb := List.mem_range.1 hb
  simpa [Nat.mod_eq_of_lt ha, Nat.mod_eq_of_lt hb] using h

theorem allSymbols_nodup : allSymbols.Nodup :=
  allSymbols_ascending.imp fun {_ _} h e => by simp [e] at h

variable {α β : Type}

@[simp] theorem Table.entry_tabulate (f : Byte → α) (s : Byte) : (Table.tabulate f).entry s = f s := by
  have hs : s.toNat < 256 := s.isLt
  simp [Table.tabulate, Table.entry]

/-- Tables with equal entries are equal. -/
theorem Table.ext_entry {t u : Table α} (h : ∀ s, t.entry s = u.entry s) : t = u := by
  refine Vector.ext fun i hi => ?_
  have := h (BitVec.ofNat 8 i)
  simpa [Table.entry, Nat.mod_eq_of_lt hi] using this

theorem Table.entry_put (t : Table α) (s x : Byte) (v : α) :
    (t.put s v).entry x = if s = x then v else t.entry x := by
  simp only [Table.put, Table.entry, Vector.getElem_set, ← BitVec.toNat_inj]

@[simp] theorem Table.entry_put_same (t : Table α) (s : Byte) (v : α) : (t.put s v).entry s = v := by
  simp [Table.entry_put]

@[simp] theorem Table.entry_mapEntries (f : α → β) (t : Table α) (s : Byte) :
    (t.mapEntries f).entry s = f (t.entry s) := by
  simp [Table.mapEntries, Table.entry]

@[simp] theorem Table.entry_replicate (v : α) (s : Byte) : Table.entry (Vector.replicate 256 v) s = v := by
  simp [Table.entry]

/-- The list of a table is its entries over the symbols. -/
theorem Table.toList_eq_map (t : Table α) : t.toList = allSymbols.map t.entry := by
  refine List.ext_getElem (by simp) fun i hi _ => ?_
  have hi : i < 256 := by simpa using hi
  simp [Table.entry, Nat.mod_eq_of_lt hi]

theorem Table.pairs_eq_map (t : Table α) : t.pairs = allSymbols.map fun s => (s, t.entry s) := by
  rw [Table.pairs, Table.toList_eq_map, List.zip_map_right]
  generalize allSymbols = l
  induction l with
  | nil => rfl
  | cons a l ih => simpa using ih

@[simp] theorem Table.mem_pairs (t : Table α) (e : Byte × α) : e ∈ t.pairs ↔ e.2 = t.entry e.1 := by
  rw [Table.pairs_eq_map, List.mem_map]
  exact ⟨fun ⟨_, _, h⟩ => h ▸ rfl, fun h => ⟨e.1, mem_allSymbols _, by rw [← h]⟩⟩

theorem Table.pairs_ascending (t : Table α) : t.pairs.Pairwise fun e f => e.1.toNat < f.1.toNat := by
  rw [Table.pairs_eq_map]
  exact List.pairwise_map.2 allSymbols_ascending

namespace Machine

@[simp] theorem countBytes_entry (d : List Byte) (s : Byte) : (countBytes d).entry s = d.count s := by
  simp [countBytes]

@[simp] theorem freqNat_entry (f : Table Word) (s : Byte) : (freqNat f).entry s = (f.entry s).toNat := by
  simp [freqNat]

@[simp] theorem freqWord_entry (f : Table Nat) (s : Byte) : (freqWord f).entry s = BitVec.ofNat 32 (f.entry s) := by
  simp [freqWord]

@[simp] theorem noCodes_entry (s : Byte) : noCodes.entry s = [] := by simp [noCodes]

theorem totalCount_eq_sum (f : Table Nat) : totalCount f = (allSymbols.map f.entry).sum := by
  rw [totalCount, Table.toList_eq_map]

@[simp] theorem mem_presentCounts (f : Table Nat) (e : Byte × Nat) :
    e ∈ presentCounts f ↔ e.2 = f.entry e.1 ∧ 0 < e.2 := by
  simp [presentCounts]

theorem presentCounts_ascending (f : Table Nat) : (presentCounts f).Pairwise fun e g => e.1.toNat < g.1.toNat :=
  (Table.pairs_ascending f).filter _

/-- No table has more than 256 present symbols. -/
theorem distinctSymbols_le (f : Table Nat) : distinctSymbols f ≤ 256 := by
  refine (List.length_filter_le ..).trans (Nat.le_of_eq ?_)
  simp [Table.pairs_eq_map]

/-- An entry is at most the total. -/
theorem entry_le_totalCount (f : Table Nat) (s : Byte) : f.entry s ≤ totalCount f := by
  rw [totalCount_eq_sum]
  exact List.single_le_sum (by simp) _ (List.mem_map.2 ⟨s, mem_allSymbols s, rfl⟩)

/-- A table whose counts fit 32 bits comes back from FREQ unchanged (R39). -/
theorem freqNat_freqWord {f : Table Nat} (h : totalCount f < 2 ^ 32) : freqNat (freqWord f) = f :=
  Table.ext_entry fun s => by
    simpa using Nat.lt_of_le_of_lt (entry_le_totalCount f s) h

theorem sum_map_count_eq_length (d : List Byte) (l : List Byte) (hl : l.Nodup) (h : ∀ b ∈ d, b ∈ l) :
    (l.map fun s => d.count s).sum = d.length := by
  induction d with
  | nil => induction l <;> simp_all
  | cons b d ih =>
    have hb : b ∈ l := h b (List.mem_cons_self ..)
    have key : (l.map fun s => if b = s then 1 else 0).sum = 1 := by
      clear ih h
      induction l with
      | nil => simp at hb
      | cons a l ihl =>
        obtain ⟨hal, hl⟩ := List.nodup_cons.1 hl
        rcases List.mem_cons.1 hb with rfl | hb
        · have h0 : (l.map fun s => if b = s then 1 else 0).sum = 0 := by
            refine List.sum_eq_zero fun x hx => ?_
            obtain ⟨s, hs, rfl⟩ := List.mem_map.1 hx
            simp [show b ≠ s from fun e => hal (e ▸ hs)]
          simp [h0]
        · have hba : b ≠ a := fun e => hal (e ▸ hb)
          simp [hba, ihl hl hb]
    simp only [List.count_cons, List.length_cons, List.sum_map_add, beq_iff_eq]
    rw [ih fun x hx => h x (List.mem_cons_of_mem _ hx), key]

/-- "The sum of the counts equals the input length" (R84). -/
theorem totalCount_countBytes (d : List Byte) : totalCount (countBytes d) = d.length := by
  rw [totalCount_eq_sum, List.map_congr_left fun s _ => countBytes_entry d s]
  exact sum_map_count_eq_length d allSymbols allSymbols_nodup fun b _ => mem_allSymbols b

end Machine

end Sys2Proof
end

