-- ==== Sys2Proof/Laws/Commands.lean ====
section
/-! SUPPORT. One inversion lemma per command's rule and one for `exec`: what each can answer, said once. -/

namespace Sys2Proof.Machine

/-- The rule of a command (R14, R75). -/
def ruleOf (i : Instr) (s : State) : CmdResult :=
  match i with
  | .nop => nopRule s
  | .count => countRule s
  | .build => buildRule s
  | .derive => deriveRule s
  | .encode => encodeRule s
  | .decode => decodeRule s

/-- `exec` is the completion step of the command's rule; ENCODE and DECODE, which write DST, clear the builder state on an
error (R75, R107). -/
theorem exec_eq_complete (i : Instr) (s : State) : exec i s = .next (complete (writesDst i) (ruleOf i s) s) := by
  cases i <;> rfl

theorem execIllegal_eq (s : State) : execIllegal s = .next (errorCompletion false .illegalCommand s) := rfl

/-- Every error code is 1..7 (R106). -/
theorem CmdError.code_bounds (e : CmdError) : 1 ≤ e.code.toNat ∧ e.code.toNat ≤ 7 := by cases e <;> decide

theorem nopRule_eq (s : State) : nopRule s = .ok (builderUpdate s s.builder) := rfl

theorem countRule_ok {s : State} {u : Updates} (h : countRule s = .ok u) :
    srcOk s = true ∧
      u = builderUpdate s
        { s.builder.clearTree.clearCodes with
          freq := freqWord (countBytes (srcBytes s))
          nsym := BitVec.ofNat 9 (distinctSymbols (countBytes (srcBytes s)))
          total := s.srcLen } := by
  unfold countRule at h
  split at h
  · exact ⟨‹_›, by cases h; rfl⟩
  · cases h

theorem countRule_error {s : State} {e : CmdError} (h : countRule s = .error e) : srcOk s = false ∧ e = .range := by
  unfold countRule at h
  split at h
  · cases h
  · exact ⟨by rename_i hn; simpa [rangeOk] using hn, by cases h; rfl⟩

theorem buildRule_ok {s : State} {u : Updates} (h : buildRule s = .ok u) :
    s.builder.nsym ≠ 0 ∧
      u = builderUpdate s (s.builder.withTree (buildTree (freqNat s.builder.freq))).clearCodes := by
  unfold buildRule at h
  split at h
  · cases h
  · exact ⟨‹_›, by cases h; rfl⟩

theorem buildRule_error {s : State} {e : CmdError} (h : buildRule s = .error e) :
    s.builder.nsym = 0 ∧ e = .emptyInput := by
  unfold buildRule at h
  split at h
  · exact ⟨‹_›, by cases h; rfl⟩
  · cases h

theorem deriveRule_ok {s : State} {u : Updates} (h : deriveRule s = .ok u) :
    s.builder.treeValid = true ∧
      u = builderUpdate s (s.builder.withCodes (deriveCodes s.builder.nodes s.builder.root.toNat)) := by
  unfold deriveRule at h
  split at h
  · exact ⟨‹_›, by cases h; rfl⟩
  · cases h

theorem deriveRule_error {s : State} {e : CmdError} (h : deriveRule s = .error e) :
    s.builder.treeValid = false ∧ e = .sequence := by
  unfold deriveRule at h
  split at h
  · cases h
  · exact ⟨by rename_i hn; simpa using hn, by cases h; rfl⟩

theorem encodeRule_ok {s : State} {u : Updates} (h : encodeRule s = .ok u) :
    rangeOk .encode s = true ∧ s.srcLen ≠ 0 ∧ (streamOf (srcBytes s)).bytes.length ≤ s.dstCap.toNat ∧
      u.builder = loadBuilder (countBytes (srcBytes s)) ∧
      u.dmem = memWrite s.dmem s.dstAddr.toNat (streamOf (srcBytes s)).bytes ∧
      u.outLen = (streamOf (srcBytes s)).bytes.length ∧ u.pad = (streamOf (srcBytes s)).pad ∧
      u.hdrLen = (streamOf (srcBytes s)).hdr.length ∧ u.dataLen = (streamOf (srcBytes s)).data.length := by
  unfold encodeRule at h
  split at h
  · split at h
    · cases h
    · dsimp only at h
      split at h
      · cases h
      · cases h
        exact ⟨‹_›, ‹_›, by omega, rfl, rfl, rfl, rfl, rfl, rfl⟩
  · cases h

theorem encodeRule_error {s : State} {e : CmdError} (h : encodeRule s = .error e) :
    (rangeOk .encode s = false ∧ e = .range) ∨
      (rangeOk .encode s = true ∧ s.srcLen = 0 ∧ e = .emptyInput) ∨
      (rangeOk .encode s = true ∧ s.srcLen ≠ 0 ∧ s.dstCap.toNat < (streamOf (srcBytes s)).bytes.length ∧
        e = .capacity) := by
  unfold encodeRule at h
  split at h
  · split at h
    · cases h
      exact .inr (.inl ⟨‹_›, ‹_›, rfl⟩)
    · dsimp only at h
      split at h
      · cases h
        exact .inr (.inr ⟨‹_›, ‹_›, by omega, rfl⟩)
      · cases h
  · cases h
    exact .inl ⟨by rename_i hn; simpa using hn, rfl⟩

/-- What `decodePayload` accepts (R99, R100, R102). -/
theorem decodePayload_some {h : Header} {out : List Byte} (hd : decodePayload h = some out) :
    ∃ bits, stripPayload h.data h.pad = some bits ∧
      walk bits (loadBuilder h.freq).codes (maxCodeLength (loadBuilder h.freq).codes) = some out ∧
      out.length = totalCount h.freq := by
  unfold decodePayload at hd
  dsimp only at hd
  split at hd
  · cases hd
  · rename_i bits hs
    split at hd
    · cases hd
    · rename_i out' hw
      split at hd
      · cases hd
        exact ⟨bits, hs, hw, ‹_›⟩
      · cases hd

theorem decodePayload_eq {h : Header} {bits : BitString} {out : List Byte}
    (hs : stripPayload h.data h.pad = some bits)
    (hw : walk bits (loadBuilder h.freq).codes (maxCodeLength (loadBuilder h.freq).codes) = some out)
    (ht : out.length = totalCount h.freq) : decodePayload h = some out := by
  simp [decodePayload, hs, hw, ht]

theorem decodeRule_ok {s : State} {u : Updates} (h : decodeRule s = .ok u) :
    ∃ (hd : Header) (out : List Byte), rangeOk .decode s = true ∧ parseHeader (srcBytes s) = some hd ∧
      totalCount hd.freq ≤ s.dstCap.toNat ∧ decodePayload hd = some out ∧
      u.builder = loadBuilder hd.freq ∧ u.dmem = memWrite s.dmem s.dstAddr.toNat out ∧
      u.outLen = out.length ∧ u.pad = hd.pad ∧ u.hdrLen = hd.len ∧ u.dataLen = hd.data.length := by
  unfold decodeRule at h
  split at h
  · split at h
    · cases h
    · split at h
      · cases h
      · split at h
        · cases h
        · cases h
          exact ⟨_, _, ‹_›, ‹_›, by omega, ‹_›, rfl, rfl, rfl, rfl, rfl, rfl⟩
  · cases h

theorem decodeRule_error {s : State} {e : CmdError} (h : decodeRule s = .error e) :
    (rangeOk .decode s = false ∧ e = .range) ∨
      (rangeOk .decode s = true ∧ parseHeader (srcBytes s) = none ∧ e = .malformedHeader) ∨
      ∃ hd, rangeOk .decode s = true ∧ parseHeader (srcBytes s) = some hd ∧
        ((s.dstCap.toNat < totalCount hd.freq ∧ e = .capacity) ∨
          (totalCount hd.freq ≤ s.dstCap.toNat ∧ decodePayload hd = none ∧ e = .corruptStream)) := by
  unfold decodeRule at h
  split at h
  · split at h
    · cases h
      exact .inr (.inl ⟨‹_›, ‹_›, rfl⟩)
    · split at h
      · cases h
        exact .inr (.inr ⟨_, ‹_›, ‹_›, .inl ⟨by omega, rfl⟩⟩)
      · split at h
        · cases h
          exact .inr (.inr ⟨_, ‹_›, ‹_›, .inr ⟨by omega, ‹_›, rfl⟩⟩)
        · cases h
  · cases h
    exact .inl ⟨by rename_i hn; simpa using hn, rfl⟩

/-- What the ranges of an accepted ENCODE or DECODE meet (R49). -/
theorem rangeOk_dst {i : Instr} {s : State} (hi : writesDst i = true) (h : rangeOk i s = true) :
    s.srcAddr.toNat + s.srcLen.toNat ≤ s.cfg.memBytes ∧ s.dstAddr.toNat + s.dstCap.toNat ≤ s.cfg.memBytes ∧
      overlap s = false := by
  cases i <;> simp_all [writesDst, rangeOk, srcOk, dstOk]

/-- What any command's success updates are: the SRC-reading and storing commands apart, DMEM and the result registers are
not touched; ENCODE and DECODE store a byte list that fits DST_CAP (R48, R62, R76). -/
theorem ruleOf_ok_stores {i : Instr} {s : State} {u : Updates} (h : ruleOf i s = .ok u) :
    (writesDst i = false ∧ u.dmem = s.dmem ∧ u.outLen = 0 ∧ u.pad = 0 ∧ u.hdrLen = 0 ∧ u.dataLen = 0) ∨
      (writesDst i = true ∧ rangeOk i s = true ∧
        ∃ out : List Byte, u.dmem = memWrite s.dmem s.dstAddr.toNat out ∧ u.outLen = out.length ∧
          out.length ≤ s.dstCap.toNat) := by
  cases i with
  | nop => cases h; exact .inl ⟨rfl, rfl, rfl, rfl, rfl, rfl⟩
  | count => obtain ⟨-, rfl⟩ := countRule_ok h; exact .inl ⟨rfl, rfl, rfl, rfl, rfl, rfl⟩
  | build => obtain ⟨-, rfl⟩ := buildRule_ok h; exact .inl ⟨rfl, rfl, rfl, rfl, rfl, rfl⟩
  | derive => obtain ⟨-, rfl⟩ := deriveRule_ok h; exact .inl ⟨rfl, rfl, rfl, rfl, rfl, rfl⟩
  | encode =>
    obtain ⟨hr, -, hc, -, hm, ho, -⟩ := encodeRule_ok h
    exact .inr ⟨rfl, hr, _, hm, ho, hc⟩
  | decode =>
    obtain ⟨hd, out, hr, -, hc, hp, -, hm, ho, -⟩ := decodeRule_ok h
    obtain ⟨-, -, -, hl⟩ := decodePayload_some hp
    exact .inr ⟨rfl, hr, out, hm, ho, by omega⟩

end Sys2Proof.Machine
end

