-- ==== Sys2Proof/Laws/Huffman.lean ====
section
/-! SUPPORT. The node arena as a tree. `mergeLoop_induction` is the induction of R85's loop, packaged once;
`buildTree_rep` says that the arena of `build(F)` represents a tree whose leaves are the present symbols; `deriveWalk_entry`
that the derived code of a symbol is its path in that tree. -/

namespace Sys2Proof.Machine

/-! The merge loop (R85) -/

/-- Extraction neither loses nor adds an element (R85). -/
theorem extractMin_perm (e : Entry) (es : List Entry) : ((extractMin e es).1 :: (extractMin e es).2).Perm (e :: es) := by
  induction es generalizing e with
  | nil => exact .refl _
  | cons f fs ih =>
    simp only [extractMin]
    split
    · exact (List.Perm.swap ..).trans ((ih f).cons e)
    · exact (List.Perm.swap ..).trans (((ih e).cons f).trans (List.Perm.swap ..))

@[simp] theorem extractMin_length (e : Entry) (es : List Entry) : (extractMin e es).2.length = es.length := by
  simpa using (extractMin_perm e es).length_eq

/-- The induction of R85's loop: what holds of the first arena and priority structure, and is kept by merging two of its
elements, holds at the end, when one element is left and ROOT is its index. -/
theorem mergeLoop_induction (M : List Node → List Entry → Prop)
    (hstep : ∀ nodes p a b rest, M nodes p → (a :: b :: rest).Perm p →
      M (nodes ++ [internalNode (a.weight + b.weight) a.index b.index])
        (rest ++ [⟨a.weight + b.weight, nodes.length⟩])) :
    ∀ fuel nodes p, M nodes p → p ≠ [] → p.length ≤ fuel + 1 →
      ∃ e, M (mergeLoop fuel nodes p).1 [e] ∧ (mergeLoop fuel nodes p).2 = e.index := by
  intro fuel
  induction fuel with
  | zero =>
    intro nodes p hM hne hl
    obtain ⟨e, rfl⟩ := List.length_eq_one_iff.1 (Nat.le_antisymm hl (List.length_pos_iff.2 hne))
    exact ⟨e, hM, rfl⟩
  | succ fuel ih =>
    intro nodes p hM hne hl
    match p, hM, hne, hl with
    | [e], hM, _, _ => exact ⟨e, hM, rfl⟩
    | e :: f :: rest, hM, _, hl =>
      have hp := extractMin_perm e (f :: rest)
      have hlen := extractMin_length e (f :: rest)
      simp only [mergeLoop]
      split
      · rename_i g gs hg
        rw [hg] at hp hlen
        have hp2 := ((extractMin_perm g gs).cons (extractMin e (f :: rest)).1).trans hp
        refine ih _ _ (hstep _ _ _ _ _ hM hp2) (by simp) ?_
        simp only [List.length_cons] at hlen hl
        simp only [List.length_append, extractMin_length, List.length_cons, List.length_nil]
        omega
      · rename_i hg
        rw [hg] at hlen
        simp at hlen

/-! Trees -/

/-- A binary tree whose leaves carry symbols: the source's CodeTree. -/
inductive HTree where
  | leaf (s : Byte)
  | node (l r : HTree)
  deriving DecidableEq, Repr

/-- The symbols of a tree, left to right. -/
def HTree.symbols : HTree → List Byte
  | .leaf s => [s]
  | .node l r => l.symbols ++ r.symbols

/-- The subtree a bit-string leads to; none where it leads past a leaf (R88: `0` left, `1` right). -/
def HTree.follow : HTree → BitString → Option HTree
  | t, [] => some t
  | .leaf _, _ :: _ => none
  | .node l r, b :: bs => if b then r.follow bs else l.follow bs

/-- The path to a symbol (R88). -/
def HTree.path : HTree → Byte → BitString
  | .leaf _, _ => []
  | .node l r, s => if s ∈ l.symbols then false :: l.path s else true :: r.path s

/-- The length of the longest path. -/
def HTree.depth : HTree → Nat
  | .leaf _ => 0
  | .node l r => max l.depth r.depth + 1

theorem HTree.symbols_ne_nil (t : HTree) : t.symbols ≠ [] := by
  cases t with
  | leaf s => simp [symbols]
  | node l r => simpa [symbols] using fun h => absurd h l.symbols_ne_nil

@[simp] theorem HTree.follow_nil (t : HTree) : t.follow [] = some t := by cases t <;> rfl

theorem HTree.follow_append (t : HTree) (p q : BitString) : t.follow (p ++ q) = (t.follow p).bind (·.follow q) := by
  induction p generalizing t with
  | nil => simp
  | cons b p ih =>
    cases t with
    | leaf s => rfl
    | node l r => cases b <;> simp [follow, ih]

theorem HTree.follow_path {t : HTree} {s : Byte} (h : s ∈ t.symbols) : t.follow (t.path s) = some (.leaf s) := by
  induction t with
  | leaf x =>
    simp only [symbols, List.mem_singleton] at h
    simp [path, h]
  | node l r ihl ihr =>
    simp only [symbols, List.mem_append] at h
    simp only [path]
    split
    · simpa [follow] using ihl ‹_›
    · simpa [follow] using ihr (h.resolve_left ‹_›)

/-- A bit-string that leads to a leaf is that leaf's path, where the symbols are distinct. -/
theorem HTree.path_of_follow {t : HTree} {p : BitString} {s : Byte} (hn : t.symbols.Nodup)
    (h : t.follow p = some (.leaf s)) : s ∈ t.symbols ∧ p = t.path s := by
  induction t generalizing p with
  | leaf x =>
    cases p with
    | nil =>
      simp only [follow, Option.some.injEq, leaf.injEq] at h
      simp [symbols, path, h]
    | cons b p => simp [follow] at h
  | node l r ihl ihr =>
    obtain ⟨hl, hr, hd⟩ := List.nodup_append.1 hn
    cases p with
    | nil => simp [follow] at h
    | cons b p =>
      cases b with
      | false =>
        obtain ⟨hs, rfl⟩ := ihl hl (by simpa [follow] using h)
        simp [symbols, path, hs]
      | true =>
        obtain ⟨hs, rfl⟩ := ihr hr (by simpa [follow] using h)
        have : s ∉ l.symbols := fun h' => hd s h' s hs rfl
        simp [symbols, path, hs, this]

theorem HTree.path_length_le (t : HTree) (s : Byte) : (t.path s).length ≤ t.depth := by
  induction t with
  | leaf x => simp [path]
  | node l r ihl ihr =>
    simp only [path, depth]
    split <;> simp only [List.length_cons] <;> omega

/-- Some symbol's path is as long as the tree is deep. -/
theorem HTree.exists_path_length (t : HTree) (hn : t.symbols.Nodup) :
    ∃ s ∈ t.symbols, (t.path s).length = t.depth := by
  induction t with
  | leaf x => exact ⟨x, by simp [symbols], rfl⟩
  | node l r ihl ihr =>
    obtain ⟨hl, hr, hd⟩ := List.nodup_append.1 hn
    simp only [symbols, path, depth, List.mem_append]
    rcases Nat.le_total r.depth l.depth with h | h
    · obtain ⟨s, hs, he⟩ := ihl hl
      exact ⟨s, .inl hs, by simp only [hs, if_true, List.length_cons]; omega⟩
    · obtain ⟨s, hs, he⟩ := ihr hr
      have : s ∉ l.symbols := fun h' => hd s h' s hs rfl
      exact ⟨s, .inr hs, by simp only [this, if_false, List.length_cons]; omega⟩

/-- A tree is at most as deep as it has symbols less one (R87 item 4). -/
theorem HTree.depth_lt (t : HTree) : t.depth < t.symbols.length := by
  induction t with
  | leaf s => simp [depth, symbols]
  | node l r ihl ihr =>
    simp only [depth, symbols, List.length_append]
    omega

/-- A bit-string as long as the tree is deep passes a leaf (R91 item 3). -/
theorem HTree.exists_leaf_prefix (t : HTree) {bits : BitString} (h : t.depth ≤ bits.length) :
    ∃ p s, p <+: bits ∧ t.follow p = some (.leaf s) := by
  induction t generalizing bits with
  | leaf s => exact ⟨[], s, List.nil_prefix, rfl⟩
  | node l r ihl ihr =>
    match bits with
    | [] => simp [depth] at h
    | b :: bits =>
      simp only [depth, List.length_cons] at h
      cases b with
      | false =>
        obtain ⟨p, s, hp, hs⟩ := ihl (bits := bits) (by omega)
        exact ⟨false :: p, s, by simpa using hp, by simpa [follow] using hs⟩
      | true =>
        obtain ⟨p, s, hp, hs⟩ := ihr (bits := bits) (by omega)
        exact ⟨true :: p, s, by simpa using hp, by simpa [follow] using hs⟩

/-! The arena represents a tree (R40, R85) -/

/-- Node `i` of the arena is the root of this tree; children have smaller indices (R87 item 2). -/
inductive Rep (nodes : List Node) : Nat → HTree → Prop where
  | leaf {i : Nat} {n : Node} (h : nodes[i]? = some n) (hl : n.isLeaf = true) : Rep nodes i (.leaf n.symbol)
  | node {i : Nat} {n : Node} {l r : HTree} (h : nodes[i]? = some n) (hl : n.isLeaf = false)
      (hli : n.left.toNat < i) (hri : n.right.toNat < i) (hL : Rep nodes n.left.toNat l)
      (hR : Rep nodes n.right.toNat r) : Rep nodes i (.node l r)

theorem Rep.lt_length {nodes : List Node} {i : Nat} {t : HTree} (h : Rep nodes i t) : i < nodes.length := by
  cases h <;> exact (List.getElem?_eq_some_iff.1 ‹_›).1

/-- A longer arena represents the same tree at the same index. -/
theorem Rep.append {nodes : List Node} {i : Nat} {t : HTree} (h : Rep nodes i t) (more : List Node) :
    Rep (nodes ++ more) i t := by
  induction h with
  | leaf h hl => exact .leaf (by rw [List.getElem?_append_left (List.getElem?_eq_some_iff.1 h).1, h]) hl
  | node h hl hli hri _ _ ihl ihr =>
    exact .node (by rw [List.getElem?_append_left (List.getElem?_eq_some_iff.1 h).1, h]) hl hli hri ihl ihr

/-- The walk of R88 records at each symbol of the tree the path to it, and changes no other entry. -/
theorem deriveWalk_entry {nodes : List Node} {i : Nat} {t : HTree} (h : Rep nodes i t) (hn : t.symbols.Nodup)
    (fuel : Nat) (hf : i < fuel) (p : BitString) (c : Table BitString) (s : Byte) :
    (deriveWalk nodes fuel i p c).entry s = if s ∈ t.symbols then p ++ t.path s else c.entry s := by
  induction h generalizing fuel p c with
  | @leaf i n h hl =>
    obtain ⟨fuel, rfl⟩ : ∃ k, fuel = k + 1 := ⟨fuel - 1, by omega⟩
    simp only [deriveWalk, h, hl, if_true, Table.entry_put, HTree.symbols, List.mem_singleton, HTree.path,
      List.append_nil, eq_comm (a := n.symbol)]
  | @node i n l r h hl hli hri hL hR ihl ihr =>
    obtain ⟨fuel, rfl⟩ : ∃ k, fuel = k + 1 := ⟨fuel - 1, by omega⟩
    obtain ⟨hnl, hnr, hd⟩ := List.nodup_append.1 hn
    simp only [deriveWalk, h, hl, Bool.false_eq_true, if_false]
    rw [ihr hnr fuel (by omega), ihl hnl fuel (by omega)]
    simp only [HTree.symbols, List.mem_append, HTree.path]
    by_cases hr : s ∈ r.symbols
    · have : s ∉ l.symbols := fun h' => hd s h' s hr rfl
      simp [hr, this]
    · by_cases hl' : s ∈ l.symbols <;> simp [hr, hl']

/-- What the loop of R85 keeps: the arena has room for the merges left, and the priority structure's elements represent
trees whose symbols, together, are the given ones. -/
def Forest (n : Nat) (symbols : List Byte) (nodes : List Node) (p : List Entry) : Prop :=
  p ≠ [] ∧ nodes.length + p.length = 2 * n ∧ p.length ≤ n ∧
    ∃ ts : List HTree, List.Forall₂ (fun e t => Rep nodes e.index t) p ts ∧ (ts.flatMap HTree.symbols).Perm symbols

theorem Forest.merge {n : Nat} {symbols : List Byte} (hn : n ≤ 256) {nodes : List Node} {p : List Entry} {a b : Entry}
    {rest : List Entry} (h : Forest n symbols nodes p) (hp : (a :: b :: rest).Perm p) :
    Forest n symbols (nodes ++ [internalNode (a.weight + b.weight) a.index b.index])
      (rest ++ [⟨a.weight + b.weight, nodes.length⟩]) := by
  obtain ⟨-, hlen, hle, ts, hts, hs⟩ := h
  obtain ⟨us, hus, hperm⟩ := List.perm_comp_forall₂ hp hts
  have hpl := hp.length_eq
  simp only [List.length_cons] at hpl
  match us, hus with
  | ta :: tb :: us, .cons ha (.cons hb hus) =>
    have hal := ha.lt_length
    have hbl := hb.lt_length
    refine ⟨by simp, by simp only [List.length_append, List.length_cons, List.length_nil]; omega,
      by simp only [List.length_append, List.length_cons, List.length_nil]; omega,
      us ++ [.node ta tb], ?_, ?_⟩
    · refine List.rel_append (hus.imp fun _ _ h => h.append _) (.cons ?_ .nil)
      have ea : (BitVec.ofNat 9 a.index).toNat = a.index := by
        simp only [BitVec.toNat_ofNat]; exact Nat.mod_eq_of_lt (by omega)
      have eb : (BitVec.ofNat 9 b.index).toNat = b.index := by
        simp only [BitVec.toNat_ofNat]; exact Nat.mod_eq_of_lt (by omega)
      refine .node (n := internalNode (a.weight + b.weight) a.index b.index) (by simp) rfl ?_ ?_ ?_ ?_
      · simpa only [internalNode, ea] using hal
      · simpa only [internalNode, eb] using hbl
      · simpa only [internalNode, ea] using ha.append _
      · simpa only [internalNode, eb] using hb.append _
    · refine List.Perm.trans ?_ ((hperm.flatMap_right HTree.symbols).trans hs)
      simp only [List.flatMap_append, List.flatMap_cons, List.flatMap_nil, List.append_nil, HTree.symbols]
      exact List.perm_append_comm.trans (by rw [List.append_assoc])

/-- The symbols of a frequency table that are present, ascending. -/
theorem presentCounts_symbols_nodup (f : Table Nat) : ((presentCounts f).map Prod.fst).Nodup :=
  List.pairwise_map.2 ((presentCounts_ascending f).imp fun {_ _} h e => by simp [e] at h)

/-- Before the first merge, the leaves are the trees (R85). -/
theorem leaves_forest (f : Table Nat) (h : 1 ≤ distinctSymbols f) :
    Forest (distinctSymbols f) ((presentCounts f).map Prod.fst) (leafNodes f) (leafEntries f) := by
  have hl : (leafEntries f).length = distinctSymbols f := by simp [leafEntries, distinctSymbols]
  refine ⟨List.ne_nil_of_length_pos (by omega), ?_, by omega, (presentCounts f).map fun e => .leaf e.1, ?_, ?_⟩
  · rw [hl]
    simp only [leafNodes, List.length_map]
    unfold distinctSymbols
    omega
  · refine List.forall₂_iff_get.2 ⟨by simp [leafEntries], fun i h1 h2 => ?_⟩
    have hi : i < (presentCounts f).length := by simpa using h2
    have := Rep.leaf (nodes := leafNodes f) (i := i)
      (n := leafNode (presentCounts f)[i].2 (presentCounts f)[i].1) (by simp [leafNodes, hi]) rfl
    simpa [leafEntries, leafNode] using this
  · exact .of_eq (by rw [List.flatMap_map, List.map_eq_flatMap]; rfl)

/-- The arena of `build(F)` represents, at ROOT, a tree whose leaves are the present symbols; it has 2n-1 nodes (R85,
R87). -/
theorem buildTree_rep (f : Table Nat) (h : 1 ≤ distinctSymbols f) :
    ∃ t : HTree, Rep (buildTree f).1 (buildTree f).2 t ∧ t.symbols.Perm ((presentCounts f).map Prod.fst) ∧
      t.symbols.Nodup ∧ (buildTree f).1.length + 1 = 2 * distinctSymbols f := by
  have h0 := leaves_forest f h
  have hl : (leafEntries f).length = distinctSymbols f := by simp [leafEntries, distinctSymbols]
  obtain ⟨e, ⟨-, hlen, -, ts, hts, hs⟩, he⟩ :=
    mergeLoop_induction (Forest (distinctSymbols f) ((presentCounts f).map Prod.fst))
      (fun _ _ _ _ _ hM hp => hM.merge (distinctSymbols_le f) hp) (distinctSymbols f) (leafNodes f) (leafEntries f) h0 h0.1
      (by omega)
  match ts, hts with
  | [t], .cons ht .nil =>
    have hs : t.symbols.Perm ((presentCounts f).map Prod.fst) := by simpa using hs
    refine ⟨t, ?_, hs, hs.symm.nodup (presentCounts_symbols_nodup f), by simpa [buildTree] using hlen⟩
    rw [buildTree, he]
    exact ht

/-- The symbols of the built tree are the present ones. -/
theorem mem_presentSymbols (f : Table Nat) (s : Byte) : s ∈ (presentCounts f).map Prod.fst ↔ 0 < f.entry s := by
  simp only [List.mem_map, mem_presentCounts, Prod.exists]
  constructor
  · rintro ⟨x, k, ⟨hk, hp⟩, rfl⟩
    simpa [← hk] using hp
  · exact fun hp => ⟨s, _, ⟨rfl, hp⟩, rfl⟩

/-- For two symbols or more, the derived code of a present symbol is its path in the built tree; every other entry is
empty (R88, R89). -/
theorem deriveCodes_buildTree (f : Table Nat) (h : 2 ≤ distinctSymbols f) :
    ∃ t : HTree, Rep (buildTree f).1 (buildTree f).2 t ∧ t.symbols.Nodup ∧ t.symbols.length = distinctSymbols f ∧
      (∀ s, s ∈ t.symbols ↔ 0 < f.entry s) ∧
      ∀ s, (deriveCodes (buildTree f).1 (buildTree f).2).entry s = if 0 < f.entry s then t.path s else [] := by
  obtain ⟨t, ht, hp, hn, hl⟩ := buildTree_rep f (by omega)
  have hm : ∀ s, s ∈ t.symbols ↔ 0 < f.entry s := fun s => hp.mem_iff.trans (mem_presentSymbols f s)
  refine ⟨t, ht, hn, by simpa [distinctSymbols] using hp.length_eq, hm, fun s => ?_⟩
  have hd : deriveCodes (buildTree f).1 (buildTree f).2 = deriveRaw (buildTree f).1 (buildTree f).2 := by
    unfold deriveCodes
    split
    · rename_i he
      simp only [he, List.length_cons, List.length_nil] at hl
      omega
    · rfl
  rw [hd, deriveRaw, deriveWalk_entry ht hn _ ht.lt_length]
  simp [hm]

/-- The book's codes are the table's codes that are not empty. -/
theorem mem_codeBook {c : Table BitString} {s : Byte} {b : BitString} :
    (s, b) ∈ codeBook c ↔ b = c.entry s ∧ b ≠ [] := by
  rw [codeBook, List.mem_filter, Table.mem_pairs]
  simp only [Bool.not_eq_true', List.isEmpty_eq_false_iff]

/-- Where the codes are distinct, the accumulator finds the symbol whose code it is (R100). -/
theorem symbolOf_codeBook {c : Table BitString} (hc : ∀ x y, c.entry x ≠ [] → c.entry x = c.entry y → x = y)
    (b : BitString) (s : Byte) : symbolOf (codeBook c) b = some s ↔ c.entry s = b ∧ b ≠ [] := by
  simp only [symbolOf, Option.map_eq_some_iff, Prod.exists]
  constructor
  · rintro ⟨x, a, h, rfl⟩
    have hm := mem_codeBook.1 (List.mem_of_find?_eq_some h)
    have he : a = b := by simpa using List.find?_some h
    exact ⟨hm.1.symm.trans he, he ▸ hm.2⟩
  · rintro ⟨h, hb⟩
    have hs : ((codeBook c).find? fun e => e.2 == b).isSome :=
      List.find?_isSome.2 ⟨(s, b), mem_codeBook.2 ⟨h.symm, hb⟩, by simp⟩
    obtain ⟨⟨x, a⟩, hx⟩ := Option.isSome_iff_exists.1 hs
    have hm := mem_codeBook.1 (List.mem_of_find?_eq_some hx)
    have he : a = b := by simpa using List.find?_some hx
    refine ⟨x, a, hx, hc x s (hm.1 ▸ hm.2) ?_⟩
    rw [← hm.1, he, h]

end Sys2Proof.Machine
end

