-- ==== Sys2Proof/Laws/PerInstr.lean ====
section
/-! SUPPORT. Statements about every command as syntax, one lemma per constructor. -/

namespace Sys2Proof.Laws

/-- A command's word is legal, and is its OPCODE alone: the reserved bits 31:8 are zero (R61, R63). -/
def CommandWords.Statement (i : Instr) : Prop :=
  i.wf = true ∧ CommandWord.wf (encode i) = true ∧ (encode i).toNat = (opcode i).toNat

theorem CommandWords.nop : CommandWords.Statement .nop := by unfold Statement; decide
theorem CommandWords.count : CommandWords.Statement .count := by unfold Statement; decide
theorem CommandWords.build : CommandWords.Statement .build := by unfold Statement; decide
theorem CommandWords.derive : CommandWords.Statement .derive := by unfold Statement; decide
theorem CommandWords.encode : CommandWords.Statement .encode := by unfold Statement; decide
theorem CommandWords.decode : CommandWords.Statement .decode := by unfold Statement; decide

end Sys2Proof.Laws
end

