-- ==== Sys2Proof/Laws/Step.lean ====
section
/-! SUPPORT. What a register access, a host action and a step can answer, said once: an access that completes is an
accepted one, and a step is the first entry of the inbox, or the engine. -/

namespace Sys2Proof.Machine

/-- A bus address inside the block's 0x8000 bytes decodes to its offset (R18, R37). -/
@[simp] theorem offsetOf_base (c : Config) {off : Nat} (h : off < 0x8000) : offsetOf c (c.baseAddr + off) = some off := by
  simp [offsetOf, h]

theorem offsetOf_none {c : Config} {addr : Nat} (h : addr < c.baseAddr ∨ c.baseAddr + 0x8000 ≤ addr) :
    offsetOf c addr = none := by
  unfold offsetOf
  rw [if_neg (by omega)]

theorem offsetOf_some {c : Config} {addr off : Nat} (h : offsetOf c addr = some off) :
    addr = c.baseAddr + off ∧ off < 0x8000 := by
  unfold offsetOf at h
  split at h
  · cases h
    omega
  · cases h

/-- An accepted access acts at its offset (R37). -/
theorem withAccess_accepted {s : State} {off : Nat} (act : Nat → State) (hr : s.rst = false) (hl : off < 0x8000)
    (ha : off % 4 = 0) : withAccess (s.cfg.baseAddr + off) 32 s act = .next (act off) := by
  simp [withAccess, hl, hr, RegAccess.wf, ha]

/-- Only an accepted access completes (R37, R127 H4 and H5). -/
theorem withAccess_next {addr bits : Nat} {s t : State} {act : Nat → State} (h : withAccess addr bits s act = .next t) :
    ∃ off, addr = s.cfg.baseAddr + off ∧ off < 0x8000 ∧ off % 4 = 0 ∧ bits = 32 ∧ s.rst = false ∧ t = act off := by
  unfold withAccess at h
  split at h
  · cases h
  · rename_i off ho
    split at h
    · cases h
    · split at h
      · rename_i hr hw
        obtain ⟨ha, hl⟩ := offsetOf_some ho
        simp only [RegAccess.wf, Bool.and_eq_true, beq_iff_eq] at hw
        cases h
        exact ⟨off, ha, hl, hw.2, hw.1, by simpa using hr, rfl⟩
      · cases h

theorem hostRegWrite_accepted {s : State} {off : Nat} (v : Word) (hr : s.rst = false) (hl : off < 0x8000)
    (ha : off % 4 = 0) :
    hostRegWrite (s.cfg.baseAddr + off) 32 v s = .next { writeAt off v s with reply := .writeOk } :=
  withAccess_accepted _ hr hl ha

theorem hostRegRead_accepted {s : State} {off : Nat} (hr : s.rst = false) (hl : off < 0x8000) (ha : off % 4 = 0) :
    hostRegRead (s.cfg.baseAddr + off) 32 s =
      .next { (readAt off s).2 with reply := .regData (readAt off s).1 } :=
  withAccess_accepted _ hr hl ha

/-- What a register read does to the state: nothing, or one draw (R37, R45). -/
theorem readAt_state (off : Nat) (s : State) : (readAt off s).2 = s ∨ (readAt off s).2 = { s with draws := s.draws + 1 } := by
  unfold readAt
  split
  · exact .inl rfl
  · split
    · exact .inr rfl
    · exact .inl rfl

/-- What a register write can do: nothing, a CTRL write, a STATUS write, or a new value in one idle configuration register
(R21-R27, R37, R77). -/
theorem writeAt_cases (off : Nat) (v : Word) (s : State) :
    writeAt off v s = s ∨ writeAt off v s = writeCtrl v s ∨ writeAt off v s = writeStatus v s ∨
      (s.busy = false ∧
        (writeAt off v s = { s with cmd := opcodeField v } ∨ writeAt off v s = { s with srcAddr := v } ∨
          writeAt off v s = { s with srcLen := v } ∨ writeAt off v s = { s with dstAddr := v } ∨
          writeAt off v s = { s with dstCap := v })) := by
  unfold writeAt
  split
  · exact .inl rfl
  · rename_i r _
    cases r <;> unfold writeReg <;> dsimp only
    all_goals first
      | exact .inl rfl
      | exact .inr (.inl rfl)
      | exact .inr (.inr (.inl rfl))
      | (split
         · exact .inl rfl
         · simp_all)

/-- What a CTRL write can do: reset, or a new IRQ_EN, with or without a START (R74, R80, R82). -/
theorem writeCtrl_cases (v : Word) (s : State) :
    writeCtrl v s = resetBlock s ∨ writeCtrl v s = { s with irqEn := v.getLsbD 2 } ∨
      (s.busy = false ∧ writeCtrl v s = acceptStart { s with irqEn := v.getLsbD 2 }) := by
  unfold writeCtrl
  split
  · exact .inl rfl
  · dsimp only
    split
    · unfold start
      split
      · exact .inr (.inl rfl)
      · rename_i hb
        exact .inr (.inr ⟨by simpa using hb, rfl⟩)
    · exact .inr (.inl rfl)

@[simp] theorem writeCtrl_inbox (v : Word) (s : State) : (writeCtrl v s).inbox = s.inbox := by
  rcases writeCtrl_cases v s with h | h | ⟨-, h⟩ <;> rw [h] <;> rfl

@[simp] theorem writeAt_inbox (off : Nat) (v : Word) (s : State) : (writeAt off v s).inbox = s.inbox := by
  rcases writeAt_cases off v s with h | h | h | ⟨-, h | h | h | h | h⟩ <;> rw [h] <;> simp

@[simp] theorem readAt_inbox (off : Nat) (s : State) : (readAt off s).2.inbox = s.inbox := by
  rcases readAt_state off s with h | h <;> rw [h]

/-! DMEM accesses of the host -/

theorem hostMemWrite_next {addr : Nat} {bytes : List Byte} {s t : State} (h : hostMemWrite addr bytes s = .next t) :
    inMemory s addr bytes.length = true ∧ meetsSrc s addr bytes.length = false ∧
      meetsDst s addr bytes.length = false ∧
      t = { s with dmem := memWrite s.dmem addr bytes, reply := .writeOk } := by
  unfold hostMemWrite at h
  split at h
  · cases h
  · split at h
    · cases h
    · split at h
      · cases h
      · rename_i h1 h2 h3
        cases h
        exact ⟨by simpa using h1, by simpa using h2, by simpa using h3, rfl⟩

theorem hostMemRead_next {addr n : Nat} {s t : State} (h : hostMemRead addr n s = .next t) :
    inMemory s addr n = true ∧ meetsDst s addr n = false ∧
      t = { s with reply := .memData (memRead s.dmem addr n) } := by
  unfold hostMemRead at h
  split at h
  · cases h
  · split at h
    · cases h
    · rename_i h1 h2
      cases h
      exact ⟨by simpa using h1, by simpa using h2, rfl⟩

/-! The engine and the step -/

/-- The engine's turn: the completion of a running command, or nothing (R75, R122). -/
theorem engineTurn_cases (s : State) :
    (s.busy = true ∧ s.rst = false ∧
      ∃ (c : Bool) (r : CmdResult), engineTurn s = .next (complete c r s) ∧
        ((∃ i, selected s = some i ∧ c = writesDst i ∧ r = ruleOf i s) ∨
          (selected s = none ∧ c = false ∧ r = .error .illegalCommand))) ∨
      ((s.busy = false ∨ s.rst = true) ∧ engineTurn s = .next s) := by
  unfold engineTurn
  split
  · rename_i hb
    simp only [Bool.and_eq_true, Bool.not_eq_true'] at hb
    refine .inl ⟨hb.1, hb.2, ?_⟩
    unfold completeSelected
    split
    · rename_i i hi
      exact ⟨_, _, exec_eq_complete i s, .inl ⟨i, hi, rfl, rfl⟩⟩
    · exact ⟨false, .error .illegalCommand, execIllegal_eq s, .inr ⟨‹_›, rfl, rfl⟩⟩
  · rename_i hb
    exact .inr ⟨by simp only [Bool.and_eq_true, Bool.not_eq_true'] at hb
                   by_cases h : s.busy = true <;> simp_all, rfl⟩

theorem step_nil {s : State} (h : s.inbox = []) : step s = engineTurn s := by simp [step, h]

theorem step_cons {s : State} {e : Event} {es : List Event} (h : s.inbox = e :: es) :
    step s = act e { s with inbox := es } := by simp [step, h]

/-- An entry of the inbox leaves the rest of the inbox as it is (R7). -/
theorem act_inbox {e : Event} {s t : State} (h : act e s = .next t) : t.inbox = s.inbox := by
  cases e with
  | regWrite addr bits v =>
    obtain ⟨off, -, -, -, -, -, rfl⟩ := withAccess_next h
    simp
  | regRead addr bits =>
    obtain ⟨off, -, -, -, -, -, rfl⟩ := withAccess_next h
    simp
  | memWrite addr bytes => obtain ⟨-, -, -, rfl⟩ := hostMemWrite_next h; rfl
  | memRead addr n => obtain ⟨-, -, rfl⟩ := hostMemRead_next h; rfl
  | rst level => cases level <;> cases h <;> rfl
  | engineTurn =>
    rcases engineTurn_cases s with ⟨-, -, c, r, hs, -⟩ | ⟨-, hs⟩ <;>
      (simp only [act, hs] at h; cases h; simp)

/-- A step takes one entry from the inbox, if there is one (R7). -/
theorem step_inbox {s t : State} (h : step s = .next t) : t.inbox = s.inbox.tail := by
  cases hi : s.inbox with
  | nil =>
    rw [step_nil hi] at h
    rw [act_inbox (e := .engineTurn) h, hi]
    rfl
  | cons e es =>
    rw [step_cons hi] at h
    exact act_inbox h

end Sys2Proof.Machine
end

