-- ==== Sys2Proof/Tests/Slice0.lean ====
section
/-! SUPPORT. Tests: expected values are the spec's own (95_test_vectors.md, the tables of 10_state.md and 30_encoding.md, the
examples of the rules), and for each statement with hypotheses a witness that meets them all. Each test is one step on a
small state. -/

namespace Sys2Proof.Tests

-- One test at a time: each is a kernel evaluation with a stack of its own.
set_option Elab.async false

open Sys2Proof Sys2Proof.Machine

/-! Small states -/

/-- The state an outcome leaves; the reset state where there is none. -/
def after (o : Host.Outcome State Fault Refusal) : State :=
  match o with
  | .next t => t
  | .fault _ => State.reset
  | .refused _ => State.reset

/-- Whether an outcome is a next state. -/
def completes (o : Host.Outcome State Fault Refusal) : Bool :=
  match o with
  | .next _ => true
  | .fault _ => false
  | .refused _ => false

/-- An idle block: `src` at 0x100 is the SRC range, the DST range is `cap` bytes at 0x200, MEM_BYTES is 0x400,
BASE_ADDR is 0x1000. -/
def idle (src : List Byte) (cap : Word) : State :=
  { State.reset with
    cfg := ⟨0x3FF, 0x1000⟩
    srcAddr := 0x100, srcLen := BitVec.ofNat 32 src.length, dstAddr := 0x200, dstCap := cap
    dmem := memWrite [] 0x100 src }

/-- The same block with a command running. -/
def running (op : Byte) (src : List Byte) (cap : Word) : State := { idle src cap with cmd := op, busy := true }

/-- One step of the running command. -/
def ran (op : Byte) (src : List Byte) (cap : Word) : State := after (step (running op src cap))

/-- "abcc" (R84 example, vectors C1, B6, D5). -/
def abcc : List Byte := [0x61, 0x62, 0x63, 0x63]

/-- "aaaaaaaab" (R96 example, vector E1). -/
def a8b : List Byte := [0x61, 0x61, 0x61, 0x61, 0x61, 0x61, 0x61, 0x61, 0x62]

/-- The stream of vector E1. -/
def streamE1 : List Byte := [0x00, 0x02, 0x61, 0x00, 0x00, 0x00, 0x08, 0x62, 0x00, 0x00, 0x00, 0x01, 0x07, 0xFF, 0x00]

/-- The stream of vector X14: "x" with a padding bit that is not zero. -/
def streamX14 : List Byte := [0x00, 0x01, 0x78, 0x00, 0x00, 0x00, 0x01, 0x07, 0x01]

/-- The block after COUNT of "abcc", with `op` running. -/
def counted (op : Byte) : State := { ran 0x01 abcc 0 with cmd := op, busy := true, done := false }

/-- The block after COUNT and BUILD of "abcc", with `op` running. -/
def built (op : Byte) : State := { after (step (counted 0x02)) with cmd := op, busy := true, done := false }

/-! WellFormed: each check refuses an ill-formed term -/

theorem test_wf_refuses_opcode_06 : CommandWord.wf 0x06 = false := by decide
theorem test_wf_refuses_opcode_FF : CommandWord.wf 0x1FF = false := by decide
theorem test_wf_accepts_reserved_bits : CommandWord.wf 0x00000105 = true := by decide
theorem test_wf_refuses_16_bit_access : RegAccess.wf 0x0010 16 = false := by decide
theorem test_wf_refuses_unaligned_access : RegAccess.wf 0x0012 32 = false := by decide
theorem test_wf_accepts_aligned_access : RegAccess.wf 0x0010 32 = true := by decide
theorem test_wf_of_every_command : ∀ i ∈ [Instr.nop, .count, .build, .derive, .encode, .decode], i.wf = true := by decide

/-! Decode: every command's word, written from R61 and R63 (OPCODE in bits 7:0, bits 31:8 ignored) -/

theorem test_decode_nop : decode 0b00000000000000000000000000000000 = .ok .nop := by decide
theorem test_decode_count : decode 0b00000000000000000000000000000001 = .ok .count := by decide
theorem test_decode_build : decode 0b11111111111111111111111100000010 = .ok .build := by decide
theorem test_decode_derive : decode 0b10000000000000000000000000000011 = .ok .derive := by decide
theorem test_decode_encode : decode 0b00000000000000000000000000000100 = .ok .encode := by decide
theorem test_decode_decode : decode 0x00000105 = .ok .decode := by decide
theorem test_decode_refuses_06 : decode 0x00000006 = .error (.illegalOpcode 0x06) := by decide
theorem test_decode_table_word : decodeTableWord 8 0x03 = some .derive ∧ decodeTableWord 32 0xFF = none := by decide

/-! The commands, one step each -/

/-- Vector K1. -/
theorem test_nop_status : statusWord (ran 0x00 [] 0) = 0x00000002 := by decide +kernel

/-- Vector K2. -/
theorem test_illegal_status : statusWord (ran 0x06 [] 0) = 0x00000704 := by decide +kernel

/-- Vector C1. -/
theorem test_count_abcc : statusWord (ran 0x01 abcc 0) = 0x00000002 ∧ (ran 0x01 abcc 0).builder.nsym = 3 ∧
    readReg (ran 0x01 abcc 0) (.freq 0x63) = 2 := by decide +kernel

/-- Vector C8: SRC_ADDR = MEM_BYTES, SRC_LEN = 1. -/
theorem test_count_range : statusWord (after (step { running 0x01 [0x61] 0 with srcAddr := 0x400 })) = 0x00000404 := by
  decide +kernel

/-- Vector B6, its internal nodes and its last leaf. -/
theorem test_build_abcc : readReg (built 0x03) .root = 4 ∧ readReg (built 0x03) (.nodeLink 4) = 0x00000602 ∧
    readReg (built 0x03) (.nodeLink 3) = 0x00000200 ∧ readReg (built 0x03) (.nodeLink 2) = 0x818FFFFF := by
  decide +kernel

/-- Vector B12. -/
theorem test_build_empty : statusWord (ran 0x02 [] 0) = 0x00000104 := by decide +kernel

/-- Vector D5, with the window words of R90's example. -/
theorem test_derive_abcc : readReg (after (step (built 0x03))) (.code 0x62 1) = 0xC0000000 ∧
    readReg (after (step (built 0x03))) (.code 0x63 0) = 1 ∧ readReg (after (step (built 0x03))) .maxlen = 2 := by
  decide +kernel

/-- Vector D11. -/
theorem test_derive_without_tree : statusWord (ran 0x03 [] 0) = 0x00000604 := by decide +kernel

/-- Vector E17: E1 exactly fills the buffer. -/
theorem test_encode_e1 : statusWord (ran 0x04 a8b 15) = 0x0000001A ∧
    memRead (ran 0x04 a8b 15).dmem 0x200 15 = streamE1 := by decide +kernel

/-- Vector E18. -/
theorem test_encode_capacity : statusWord (ran 0x04 a8b 14) = 0x00000504 ∧ (ran 0x04 a8b 14).builder.nsym = 0 := by
  decide +kernel

/-- Vector X19, the stream of E1 decoded into 9 bytes. -/
theorem test_decode_e1 : statusWord (ran 0x05 streamE1 9) = 0x0000001A ∧ memRead (ran 0x05 streamE1 9).dmem 0x200 9 = a8b := by
  decide +kernel

/-- Vector X17: E1 without its last byte. -/
theorem test_decode_truncated : statusWord (ran 0x05 (streamE1.take 14) 64) = 0x00000304 := by decide +kernel

/-- Vector X14: the stripped padding bits are not checked. -/
theorem test_decode_ignores_padding_bits : memRead (ran 0x05 streamX14 64).dmem 0x200 1 = [0x78] := by decide +kernel

/-- Vectors X9 and X10: a sum of 2^32, and a PAD byte of 8 (reported before CAPACITY). -/
theorem test_decode_malformed :
    statusWord (ran 0x05 [0, 2, 0x61, 0xFF, 0xFF, 0xFF, 0xFF, 0x62, 0, 0, 0, 1, 0, 0] 64) = 0x00000204 ∧
      statusWord (ran 0x05 [0, 1, 0x78, 0, 0, 0, 1, 8] 0) = 0x00000204 := by decide +kernel

/-! The register port -/

/-- Vector K12, and ROOT's reset value. -/
theorem test_reset_reads : readReg State.reset .id = 0x48554646 ∧ readReg State.reset .version = 0x00070001 ∧
    readReg State.reset .root = 0x1FF := by decide +kernel

/-- The edges of the register map (R18): the last and the first offset of each region, and of each reserved gap. -/
theorem test_register_map_edges :
    [0x0044, 0x0048, 0x03FC, 0x0400, 0x07FC, 0x0800, 0x0FFC, 0x1000, 0x1FF4, 0x1FF8, 0x3FFC, 0x4000, 0x7FFC, 0x8000].map
        regAt =
      [some .maxlen, none, none, some (.freq 0), some (.freq 255), none, none, some (.nodeWeight 0),
       some (.nodeLink 510), none, none, some (.code 0 0), some (.code 255 15), none] := by decide +kernel

/-- R90's example: the CODE entry of 0x61 is at 0x5840; R40: NODE[4].LINK is at 0x1024 (program P2). -/
theorem test_window_offsets : regOffset (.code 0x61 0) = 0x5840 ∧ regOffset (.nodeLink 4) = 0x1024 ∧
    regOffset (.freq 0x63) = 0x058C := by decide +kernel

/-- Vector K3: bits 31:8 of CMD are ignored. -/
theorem test_cmd_write : (after (hostRegWrite 0x100C 32 0x00000105 (idle [] 0))).cmd = 0x05 := by decide +kernel

/-- Vector K8: IRQ_EN is set while BUSY. -/
theorem test_irq_en_while_busy : (after (hostRegWrite 0x1008 32 0x4 (running 0x00 [] 0))).irqEn = true := by decide +kernel

/-- Vector K6: the read-only bits of STATUS are ignored. -/
theorem test_status_write : statusWord (after (hostRegWrite 0x1010 32 0xFFFFFFFF (ran 0x00 [] 0))) = 0 := by decide +kernel

/-- Vector K9: SOFT_RESET wins over START. -/
theorem test_soft_reset_wins : (after (hostRegWrite 0x1008 32 0x3 (idle abcc 8))).busy = false ∧
    (after (hostRegWrite 0x1008 32 0x3 (idle abcc 8))).srcLen = 0 := by decide +kernel

/-- Vector K13: a 16-bit read. -/
theorem test_narrow_read : completes (hostRegRead 0x1010 16 (idle [] 0)) = false := by decide +kernel

/-- R68's example and R69's. -/
theorem test_pack_and_padding : pack [true, false, true, true, false, false, false, false] = [0xB0] ∧
    [9, 8, 4, 6].map padding = [7, 0, 4, 2] := by decide

/-- log entry 7: a placed command runs in the next step. -/
theorem test_placed_command_runs : statusWord (after (step (State.reset.withFetchWord 8 0x02))) = 0x00000104 := by
  decide +kernel

/-! Witnesses: each statement's hypotheses are met together, each clause's at a boundary value -/

theorem witness_CommandWordRoundTrip : ∃ (w : Word) (i : Instr), decode w = .ok i := ⟨0xFFFFFF05, .decode, by decide⟩

theorem witness_RegisterMapRoundTrip : ∃ (off : Nat) (r : Reg), off % 4 = 0 ∧ regAt off = some r :=
  ⟨0x7FFC, .code 255 15, by decide +kernel⟩

/-- The last register of the map, the first reserved offset, and a state whose FREQ ends in a count of its own. -/
theorem witness_IdleReadReturnsRegister :
    (∃ (s : State) (off : Nat) (r : Reg),
      s.busy = false ∧ s.rst = false ∧ off < 0x8000 ∧ off % 4 = 0 ∧ regAt off = some r) ∧
    (∃ (s : State) (off : Nat), s.busy = false ∧ s.rst = false ∧ off < 0x8000 ∧ off % 4 = 0 ∧ regAt off = none) ∧
    ∃ s : State, s.busy = false ∧ s.rst = false ∧ s.builder.freq.entry 255 = 7 :=
  ⟨⟨idle [] 0, 0x7FFC, .code 255 15, by decide +kernel⟩, ⟨idle [] 0, 0x0048, by decide +kernel⟩,
    ⟨{ State.reset with builder := { Builder.reset with freq := Builder.reset.freq.put 255 7 } }, by decide +kernel⟩⟩

theorem witness_BusyReadsAreSteadyOrFree :
    (∃ s : State, s.busy = true ∧ s.rst = false ∧
      Reg.dstCap ∈ [Reg.id, .version, .ctrl, .cmd, .status, .srcAddr, .srcLen, .dstAddr, .dstCap] ∧
      Reg.outLen ∉ [Reg.id, .version, .ctrl, .cmd, .status, .srcAddr, .srcLen, .dstAddr, .dstCap] ∧ regAt 0x0048 = none) ∧
    ∃ s t : State, exec .nop s = .next t :=
  ⟨⟨running 0x04 a8b 15, by decide +kernel⟩, ⟨State.reset, _, rfl⟩⟩

/-- Each clause at the ends of the block, an aligned and a misaligned access during `rst`, and one outside during `rst`. -/
theorem witness_UnacceptedAccessesStop :
    ∃ s u : State, (0x0FFF < s.cfg.baseAddr ∧ s.cfg.baseAddr + 0x8000 ≤ 0x9000) ∧
      (0x8FFF = s.cfg.baseAddr + 0x7FFF ∧ s.rst = false ∧ 0x7FFF % 4 ≠ 0) ∧
      (0x8FFC = s.cfg.baseAddr + 0x7FFC ∧ (16 : Nat) ≠ 32) ∧ (0x1000 = u.cfg.baseAddr + 0 ∧ u.rst = true) ∧
      (0x1002 = u.cfg.baseAddr + 2 ∧ 2 % 4 ≠ 0) ∧ u.cfg.baseAddr + 0x8000 ≤ 0x9000 :=
  ⟨idle [] 0, { idle [] 0 with rst := true }, by decide +kernel⟩

/-- The last node of a tree, the first index past it and the last index of the window, read by an idle block. -/
theorem witness_NodeWindowLayout :
    (∃ (s : State) (n : Node), s.builder.nodes[(4 : Fin 511).val]? = some n) ∧
      (∃ s : State, s.builder.nodes.length ≤ (5 : Fin 511).val) ∧
      ∃ (s : State) (n : Node), s.busy = false ∧ s.rst = false ∧ s.builder.nodes[4]? = some n ∧
        s.builder.nodes.length ≤ 5 ∧ s.builder.nodes.length ≤ 510 :=
  ⟨⟨built 0x03, internalNode 4 2 3, by decide +kernel⟩, ⟨built 0x03, by decide +kernel⟩,
    ⟨{ built 0x03 with busy := false }, internalNode 4 2 3, by decide +kernel⟩⟩

/-- A code of 255 bits of an idle block, read at its first and last bit and one past it. -/
theorem witness_CodeWindowLayout :
    ∃ s : State, s.busy = false ∧ s.rst = false ∧ (s.builder.codes.entry 0x61).length ≤ 255 ∧ (8 : Fin 16).val = 1 + 254 / 32 ∧
      (8 : Fin 16).val = 1 + 255 / 32 ∧ (1 : Fin 16).val = 1 + 0 / 32 ∧ 9 ≤ (9 : Fin 16).val ∧
      (readReg s (.code 0x61 8)).getLsbD (31 - 254 % 32) = true ∧
      (readReg s (.code 0x61 8)).getLsbD (31 - 255 % 32) = false :=
  ⟨{ State.reset with
     builder := { Builder.reset with codes := Builder.reset.codes.put 0x61 (List.replicate 255 true) } },
   by decide +kernel⟩

theorem witness_IdleConfigurationWritesAreTaken : ∃ s : State, s.busy = false ∧ s.rst = false :=
  ⟨State.reset, by decide⟩

theorem witness_BusyConfigurationWritesAreIgnored : ∃ s : State, s.busy = true ∧ s.rst = false :=
  ⟨running 0x00 [] 0, by decide +kernel⟩

theorem witness_ReadOnlyWritesAreIgnored : ∃ s : State, s.rst = false ∧ (0x0024 : Nat) < 0x8000 ∧ 0x0024 % 4 = 0 ∧
    0x0024 ∉ [0x0008, 0x000C, 0x0010, 0x0014, 0x0018, 0x001C, 0x0020] := ⟨State.reset, by decide⟩

theorem witness_CtrlWriteStartsAndSetsIrqEn :
    ∃ s u : State, s.rst = false ∧ s.busy = false ∧ u.rst = false ∧ u.busy = true ∧
      (0x5 : Word).getLsbD 1 = false ∧ (0x5 : Word).getLsbD 0 = true ∧ (0x4 : Word).getLsbD 1 = false ∧
      (0x4 : Word).getLsbD 0 = false := ⟨idle [] 0, running 0x00 [] 0, by decide +kernel⟩

theorem witness_StatusWriteClearsDoneAndErr :
    ∃ s u : State, s.rst = false ∧ s.done = true ∧ u.rst = false ∧ u.busy = true ∧ statusLegal u = true :=
  ⟨ran 0x00 [] 0, running 0x00 [] 0, by decide +kernel⟩

theorem witness_ResetGivesResetValues :
    ∃ s u : State, s.busy = false ∧ u.busy = true ∧ selected u ≠ some .encode ∧ selected u ≠ some .decode :=
  ⟨idle [] 0, running 0x01 abcc 8, by decide +kernel⟩

/-- The first and the last byte of the DST range, the byte after it, and a range cut off by the end of DMEM. -/
theorem witness_ResetWhileBusyFreesTheDstRange :
    ∃ s u v : State, Memory.wf s.dmem ∧ s.busy = true ∧ selected s = some .encode ∧
      (s.dstAddr.toNat ≤ 0x200 ∧ 0x20E < s.dstAddr.toNat + s.dstCap.toNat ∧ 0x20E < s.cfg.memBytes) ∧
      ¬(0x20F < s.dstAddr.toNat + s.dstCap.toNat) ∧
      Memory.wf u.dmem ∧ u.busy = true ∧ selected u = some .decode ∧
      (0x400 < u.dstAddr.toNat + u.dstCap.toNat ∧ 0x3FF < u.cfg.memBytes ∧ ¬(0x400 < u.cfg.memBytes)) ∧
      Memory.wf v.dmem ∧ v.busy = true ∧ selected v ≠ some .encode ∧ selected v ≠ some .decode :=
  ⟨running 0x04 a8b 15, running 0x05 a8b 0x300, running 0x01 a8b 15, by decide +kernel⟩

theorem witness_SoftResetResetsTheBlock : ∃ s : State, s.rst = false ∧ s.busy = true ∧ (0x7 : Word).getLsbD 1 = true :=
  ⟨running 0x04 a8b 15, by decide +kernel⟩

/-- A level of `rst` in the inbox of a busy block, and one that releases it. -/
theorem witness_RstBecomesOne : ∃ s u : State, s.busy = true ∧ s.inbox = [.rst true] ∧ u.inbox = [.rst false] :=
  ⟨{ running 0x04 a8b 15 with inbox := [.rst true] }, { State.reset with rst := true, inbox := [.rst false] }, rfl, rfl,
    rfl⟩

theorem witness_RstHoldsTheResetState :
    ∃ s t : State, s.rst = true ∧ atReset s ∧ (∀ es, s.inbox ≠ .rst false :: es) ∧ step s = .next t :=
  ⟨{ State.reset with rst := true, inbox := [.engineTurn] }, { State.reset with rst := true }, rfl, rfl,
    fun es h => by simp at h, rfl⟩

/-- Ranges that touch (vector E20), that share one byte (vector E19), and a range that ends past DMEM (vector C8). -/
theorem witness_RangeChecks :
    ∃ s u v : State, rangeOk .encode s = true ∧ rangeOk .encode u = false ∧ rangeOk .count v = false :=
  ⟨{ running 0x04 a8b 16 with dstAddr := 0x109 }, { running 0x04 a8b 16 with dstAddr := 0x108 },
    { running 0x01 [0x61] 0 with srcAddr := 0x400 }, by decide +kernel⟩

/-- Accesses to the last byte of the SRC range and to the first and the last byte of the DST range; a write of 0xF9 bytes
from the one to the other meets both ranges. -/
theorem witness_HazardousDmemAccessesFault :
    ∃ s : State, s.busy = true ∧ selected s = some .encode ∧
      (0x108 + [0xAA#8].length ≤ s.cfg.memBytes ∧ s.srcAddr.toNat ≤ 0x108 ∧ 0x108 < s.srcAddr.toNat + s.srcLen.toNat) ∧
      (0x200 + 1 ≤ s.cfg.memBytes ∧ s.dstAddr.toNat ≤ 0x200 ∧ 0x20E < s.dstAddr.toNat + s.dstCap.toNat) ∧
      (0x108 + (List.replicate 0xF9 0xAA#8).length ≤ s.cfg.memBytes ∧
        0x200 < 0x108 + (List.replicate 0xF9 0xAA#8).length) :=
  ⟨running 0x04 a8b 15, by decide +kernel⟩

/-- A write that meets both ranges: the first clause's fault (log entry 14). -/
theorem test_write_of_both_ranges :
    hostMemWrite 0x108 (List.replicate 0xF9 0xAA) (running 0x04 a8b 15) = .fault .srcHazard := by
  rw [hostMemWrite, if_neg (by decide +kernel), if_pos (by decide +kernel)]

/-- A read of the SRC range while BUSY, a write just below it and one just above it, and a write of the last byte of DMEM. -/
theorem witness_SafeDmemAccessesComplete :
    completes (hostMemRead 0x100 9 (running 0x04 a8b 15)) = true ∧
      completes (hostMemWrite 0x0FF [0xAA] (running 0x04 a8b 15)) = true ∧
      completes (hostMemWrite 0x109 [0xAA] (running 0x04 a8b 15)) = true ∧
      completes (hostMemWrite 0x3FF [0xAA] (idle a8b 15)) = true ∧ Memory.wf (running 0x04 a8b 15).dmem := by
  decide +kernel

theorem witness_StepRunsTheDecodedCommand :
    ∃ s u : State, s.busy = true ∧ s.rst = false ∧ decode (s.cmd.setWidth 32) = .ok .count ∧ s.inbox = [] ∧
      u.busy = true ∧ u.rst = false ∧ decode (u.cmd.setWidth 32) = .ok .decode ∧ u.inbox = [.engineTurn] :=
  ⟨running 0x01 abcc 0, { running 0x05 streamE1 9 with inbox := [.engineTurn] }, by decide +kernel⟩

theorem witness_IdleBlockStaysAsItIs : ∃ s u : State, s.busy = false ∧ s.inbox = [] ∧ u.busy = false ∧
    u.inbox = [.engineTurn] := ⟨State.reset, { State.reset with inbox := [.engineTurn] }, by decide +kernel⟩

/-- Each host access first in the inbox. -/
theorem witness_HostAccessSteps :
    ∃ r w m n : State, r.inbox = [.regRead 0x1000 32] ∧ w.inbox = [.regWrite 0x1008 32 1] ∧ m.inbox = [.memRead 0x100 9] ∧
      n.inbox = [.memWrite 0x100 [0x61]] :=
  ⟨{ State.reset with inbox := [.regRead 0x1000 32] }, { State.reset with inbox := [.regWrite 0x1008 32 1] },
    { State.reset with inbox := [.memRead 0x100 9] }, { State.reset with inbox := [.memWrite 0x100 [0x61]] }, rfl, rfl,
    rfl, rfl⟩

/-- The first and the last illegal OPCODE. -/
theorem witness_IllegalOpcodeCompletesWithError :
    ∃ s u : State, s.busy = true ∧ s.rst = false ∧ s.inbox = [] ∧ s.cmd.toNat = 0x06 ∧
      u.busy = true ∧ u.rst = false ∧ u.inbox = [] ∧ u.cmd.toNat = 0xFF :=
  ⟨running 0x06 [] 0, running 0xFF [] 0, by decide +kernel⟩

theorem witness_SuccessCompletionEffect : ∃ s t : State, exec .count s = .next t ∧ t.done = true :=
  ⟨running 0x01 abcc 0, _, rfl, by decide +kernel⟩

theorem witness_ErrorCompletionEffect :
    (∃ s t : State, exec .encode s = .next t ∧ t.done = false) ∧ ∃ s t : State, exec .build s = .next t ∧ t.done = false :=
  ⟨⟨running 0x04 a8b 14, _, rfl, by decide +kernel⟩, ⟨running 0x02 [] 0, _, rfl, by decide +kernel⟩⟩

theorem witness_CompletionFrame :
    (∃ s t : State, exec .derive s = .next t) ∧ ∃ s t : State, exec .decode s = .next t ∧ t.outLen = 9 :=
  ⟨⟨built 0x03, _, rfl⟩, ⟨running 0x05 streamE1 9, _, rfl, by decide +kernel⟩⟩

/-- The builder state after COUNT and BUILD of "abcc", written from its frequency table. -/
def treeBuilder : Builder :=
  (Builder.reset.withFreq (countBytes abcc)).withTree (buildTree (countBytes abcc))

theorem treeBuilder_sound : BuilderInv treeBuilder where
  nsym := by decide +kernel
  total := by decide +kernel
  noTree := fun h => nomatch h
  tree := fun _ => by decide +kernel
  nnodes := by decide +kernel
  noCodes := fun _ => ⟨fun x => by simp [treeBuilder, Builder.withTree, Builder.withFreq, Builder.reset], rfl⟩
  codes := fun h => nomatch h

/-- DERIVE running on the tree of "abcc", with a read of STATUS and the engine waiting. -/
def derivingAbcc : State :=
  { State.reset with builder := treeBuilder, cmd := 0x03, busy := true, inbox := [hostRD ⟨0xFFFFFFFF, 0⟩ .status, .engineTurn] }

theorem derivingAbcc_sound : StateInv derivingAbcc where
  status := by decide +kernel
  builder := treeBuilder_sound
  memForm := Memory.wf_nil
  memRange := fun _ h => nomatch h
  held := fun h => nomatch h

theorem witness_RunningCommandEndsInFiniteTime :
    ∃ s : State, StateInv s ∧ s.busy = true ∧ completes (Host.Core.run core (s.inbox.length + 1) s) = true :=
  ⟨derivingAbcc, derivingAbcc_sound, rfl, by decide +kernel⟩

theorem witness_RunPseudoOperationCompletes :
    ∃ s : State, s.busy = false ∧ s.rst = false ∧ s.inbox = hostRUN s.cfg .encode true 2 :=
  ⟨{ idle a8b 15 with inbox := hostRUN (idle a8b 15).cfg .encode true 2 }, rfl, rfl, rfl⟩

/-- COUNT: the whole of DMEM, an empty range at its end (vector C7), one byte past it (vector C8). -/
theorem witness_CountCommand :
    (∃ s : State, s.srcAddr.toNat + s.srcLen.toNat = s.cfg.memBytes ∧ s.srcLen ≠ 0) ∧
      (∃ s : State, s.srcAddr.toNat + s.srcLen.toNat = s.cfg.memBytes ∧ s.srcLen = 0) ∧
      ∃ s : State, s.srcAddr.toNat + s.srcLen.toNat = s.cfg.memBytes + 1 :=
  ⟨⟨{ running 0x01 [0x61] 0 with srcAddr := 0x3FF }, by decide +kernel⟩,
    ⟨{ running 0x01 [] 0 with srcAddr := 0x400 }, by decide +kernel⟩,
    ⟨{ running 0x01 [0x61] 0 with srcAddr := 0x400 }, by decide +kernel⟩⟩

theorem witness_BuildCommand : ∃ s u : State, s.builder.nsym ≠ 0 ∧ u.builder.nsym = 0 :=
  ⟨counted 0x02, State.reset, by decide +kernel⟩

theorem witness_DeriveCommand :
    ∃ s u : State, BuilderInv s.builder ∧ s.builder.treeValid = true ∧ u.builder.treeValid = false :=
  ⟨derivingAbcc, State.reset, treeBuilder_sound, rfl, rfl⟩

theorem witness_MergeSelectsTheLeast :
    ∃ (e : Entry) (es : List Entry), ((e :: es).map Entry.index).Nodup ∧ (extractMin e es).1 = ⟨2, 1⟩ :=
  ⟨⟨2, 5⟩, [⟨2, 1⟩, ⟨2, 4⟩], by decide⟩

/-- Two elements of equal weight: the lower index is the left child (R85, D12). -/
theorem test_merge_first_extracted_is_left :
    mergeLoop 1 [] [⟨3, 1⟩, ⟨3, 0⟩] = ([⟨6, false, 0, 0, 1⟩], 0) := by decide +kernel

/-- The largest total a table may have. -/
theorem witness_CodecIgnoresPreviousBuilderState :
    ∃ f : Table Nat, 1 ≤ distinctSymbols f ∧ totalCount f = 2 ^ 32 - 1 :=
  ⟨Table.tabulate fun s => if s = 0x78 then 2 ^ 32 - 1 else 0, by decide +kernel⟩

theorem witness_BuiltTree : ∃ f : Table Nat, 1 ≤ distinctSymbols f ∧ totalCount f ≤ 2 ^ 32 - 1 ∧ distinctSymbols f = 3 :=
  ⟨countBytes abcc, by decide +kernel⟩

theorem witness_SingleSymbolGetsCodeZero :
    ∃ f : Table Nat, 0 < f.entry 0x78 ∧ ∀ y, y ≠ 0x78 → f.entry y = 0 :=
  ⟨Table.tabulate fun s => if s = 0x78 then 4 else 0, by decide +kernel⟩

/-- One symbol and two, the boundaries of R91. -/
theorem witness_DerivedCodes :
    ∃ f g : Table Nat, distinctSymbols f = 1 ∧ distinctSymbols g = 2 ∧
      maxCodeLength (deriveCodes (buildTree g).1 (buildTree g).2) = [true].length :=
  ⟨countBytes [0x78], countBytes a8b, by decide +kernel⟩

theorem witness_PackingIsMsbFirst : ∃ b : BitString, b.length % 8 = 0 ∧ 1 < b.length / 8 :=
  ⟨List.replicate 16 true, by decide⟩

theorem witness_BigEndianFieldsRoundTrip : ∃ v w : Nat, v < 2 ^ 16 ∧ be16Bytes v = [0x01, 0x00] ∧ w < 2 ^ 32 ∧
    be32Bytes w = [0xFF, 0xFF, 0xFF, 0xFF] := ⟨256, 2 ^ 32 - 1, by decide +kernel⟩

theorem witness_HeaderListsThePresentSymbols : ∃ f : Table Nat, 1 ≤ distinctSymbols f ∧
    header f = [0, 1, 0x78, 0, 0, 0, 4] := ⟨countBytes [0x78, 0x78, 0x78, 0x78], by decide +kernel⟩

theorem witness_ParserAcceptsExactlyEncodedHeaders :
    ∃ h : Header, parseHeader streamE1 = some h ∧ h.pad = 7 ∧ h.data = [0xFF, 0x00] ∧ h.freq.entry 0x61 = 8 :=
  ⟨{ freq := countBytes a8b, n := 2, len := 12, pad := 7, data := [0xFF, 0x00] }, by decide +kernel⟩

/-- A byte list, its table of codes and a symbol of it. -/
theorem witness_CodeConcatenationLength : ∃ d : List Byte, d ≠ [] ∧ 0x62 ∈ d ∧ (streamOf d).pad = 7 :=
  ⟨a8b, by decide +kernel⟩

/-- ENCODE, each clause: RANGE, EMPTY_INPUT, CAPACITY one byte short (vector E18), success at the exact size (vector E17). -/
theorem witness_EncodeCommand :
    rangeOk .encode { running 0x04 a8b 16 with dstAddr := 0x108 } = false ∧
      (rangeOk .encode (running 0x04 [] 16) = true ∧ (running 0x04 [] 16).srcLen = 0) ∧
      (rangeOk .encode (running 0x04 a8b 14) = true ∧ (running 0x04 a8b 14).srcLen ≠ 0 ∧
        (running 0x04 a8b 14).dstCap.toNat < (streamOf a8b).bytes.length) ∧
      (rangeOk .encode (running 0x04 a8b 15) = true ∧ (running 0x04 a8b 15).srcLen ≠ 0 ∧
        (streamOf a8b).bytes.length ≤ (running 0x04 a8b 15).dstCap.toNat) ∧
      srcBytes (running 0x04 a8b 15) = a8b ∧ Memory.wf (running 0x04 a8b 15).dmem := by decide +kernel

/-- DECODE, each clause: RANGE, MALFORMED_HEADER (vector X1), CAPACITY one byte short (vector X18), CORRUPT_STREAM (vector
X11), success at the exact size (vector X19); R99: one padding bit too many, and padding bits that are not zero. -/
theorem witness_DecodeCommand :
    rangeOk .decode { running 0x05 streamE1 9 with dstAddr := 0x10E } = false ∧
      (rangeOk .decode (running 0x05 [] 64) = true ∧ parseHeader (srcBytes (running 0x05 [] 64)) = none) ∧
      (rangeOk .decode (running 0x05 streamE1 8) = true ∧
        ((parseHeader (srcBytes (running 0x05 streamE1 8))).map fun h => totalCount h.freq) = some 9) ∧
      ((parseHeader [0, 1, 0x78, 0, 0, 0, 1, 7]).map fun h => stripPayload h.data h.pad) = some none ∧
      ((parseHeader (srcBytes (running 0x05 streamE1 9))).bind decodePayload) = some a8b ∧
      (8 * ([] : List Byte).length < 1 ∧ unpack [0xFF] = [true] ++ List.replicate 7 true) ∧
      Memory.wf (running 0x05 streamE1 9).dmem := by decide +kernel

/-- Two places of the same input. -/
theorem witness_EncodeDependsOnlyOnItsInput :
    ∃ s s' t t' : State, Memory.wf s.dmem ∧ Memory.wf s'.dmem ∧ srcBytes s = srcBytes s' ∧
      exec .encode s = .next t ∧ exec .encode s' = .next t' ∧ t.done = true ∧ t'.done = true ∧
      s.dstAddr ≠ s'.dstAddr :=
  ⟨running 0x04 a8b 15, { running 0x04 a8b 64 with dstAddr := 0x300 }, _, _, by decide +kernel, by decide +kernel,
    by decide +kernel, rfl, rfl, by decide +kernel, by decide +kernel, by decide +kernel⟩

/-- A stream as ENCODE wrote it, and room for exactly its 9 bytes. -/
theorem witness_DecodeInvertsEncode :
    ∃ s t u : State, Memory.wf s.dmem ∧ Memory.wf u.dmem ∧ exec .encode s = .next t ∧ t.done = true ∧
      srcBytes u = memRead t.dmem s.dstAddr.toNat t.outLen.toNat ∧ rangeOk .decode u = true ∧
      s.srcLen.toNat = u.dstCap.toNat :=
  ⟨running 0x04 a8b 15, _, running 0x05 streamE1 9, by decide +kernel, by decide +kernel, rfl, by decide +kernel,
    by decide +kernel, by decide +kernel, by decide +kernel⟩

/-- The same stream less its last byte, with room and with one byte too few. -/
theorem witness_TruncatedStreamIsRejected :
    ∃ s t u v : State, Memory.wf s.dmem ∧ exec .encode s = .next t ∧ t.done = true ∧
      srcBytes u = memRead t.dmem s.dstAddr.toNat (t.outLen.toNat - 1) ∧ rangeOk .decode u = true ∧
      t.builder.total.toNat = u.dstCap.toNat ∧
      srcBytes v = memRead t.dmem s.dstAddr.toNat (t.outLen.toNat - 1) ∧ rangeOk .decode v = true ∧
      v.dstCap.toNat + 1 = t.builder.total.toNat :=
  ⟨running 0x04 a8b 15, _, running 0x05 (streamE1.take 14) 9, running 0x05 (streamE1.take 14) 8, by decide +kernel, rfl,
    by decide +kernel, by decide +kernel, by decide +kernel, by decide +kernel, by decide +kernel, by decide +kernel,
    by decide +kernel⟩

theorem witness_StepKeepsStateSound : ∃ s t : State, StateInv s ∧ step s = .next t :=
  ⟨derivingAbcc, _, derivingAbcc_sound, rfl⟩

end Sys2Proof.Tests
end

section
/-! The engine's turn outside a running command (R75, R122), and what a step with a given first entry of the inbox is. -/

namespace Sys2Proof.Machine

/-- The engine has nothing to complete while the block is idle (R75) or held in reset (R122). -/
theorem engineTurn_of_not_running {s : State} (h : s.busy = false ∨ s.rst = true) : engineTurn s = .next s := by
  rcases engineTurn_cases s with ⟨hbusy, hrst, -⟩ | ⟨-, hturn⟩
  · simp [hbusy, hrst] at h
  · exact hturn

/-- Settles O26: an idle block's engine turn changes nothing, and a host access first in the inbox is the step. -/
theorem idleBlockStaysAsItIs : Obligations.IdleBlockStaysAsItIs := by
  refine ⟨fun s hidle => ⟨fun hnil => ?_, fun es hturn => ?_⟩, fun s es addr bits n v bytes => ?_⟩
  · rw [step_nil hnil]
    exact engineTurn_of_not_running (.inl hidle)
  · rw [step_cons hturn]
    exact engineTurn_of_not_running (s := { s with inbox := es }) (.inl hidle)
  · exact ⟨step_cons, step_cons, step_cons, step_cons⟩

end Sys2Proof.Machine
end

section
/-! The builder invariants of R38 hold of every builder state a command leaves: the counted, the built, the derived, the
loaded and the cleared one. -/

namespace Sys2Proof.Machine

/-- A table has a present symbol exactly when its count is positive (R32). -/
theorem distinctSymbols_pos (f : Table Nat) : 1 ≤ distinctSymbols f ↔ ∃ x, 0 < f.entry x := by
  have hlen : distinctSymbols f = ((presentCounts f).map Prod.fst).length := by simp [distinctSymbols]
  rw [hlen, Nat.succ_le_iff, List.length_pos_iff_exists_mem]
  exact exists_congr (mem_presentSymbols f)

/-- The counts of a byte list that is not empty have a present symbol (R83). -/
theorem distinctSymbols_countBytes_pos {d : List Byte} (hd : d ≠ []) : 1 ≤ distinctSymbols (countBytes d) := by
  obtain ⟨x, hx⟩ := List.exists_mem_of_ne_nil d hd
  exact (distinctSymbols_pos _).2 ⟨x, by simpa [List.count_pos_iff] using hx⟩

/-- The parser takes as many entries as the header announces (R98). -/
theorem parseEntries_length {n : Nat} {bytes rest : List Byte} {es : List (Byte × Nat)}
    (h : parseEntries n bytes = some (es, rest)) : es.length = n := by
  fun_induction parseEntries n bytes generalizing es with
  | case1 => cases h; rfl
  | case2 n s c0 c1 c2 c3 bytes es' rest' htail ih => cases h; simp [ih htail]
  | case3 => cases h
  | case4 => cases h

/-- The frequency table of accepted entries, of which there is one at least, has a present symbol: the first entry's. -/
theorem entriesFreq_present {es : List (Byte × Nat)} (hne : es ≠ []) (hok : entriesOk es = true) :
    1 ≤ distinctSymbols (entriesFreq es) := by
  match es, hne with
  | e :: es, _ =>
    have hcount : e.2 ≠ 0 := by
      simp only [entriesOk, Bool.and_eq_true, List.all_cons, bne_iff_ne] at hok
      exact hok.1.2.1
    exact (distinctSymbols_pos _).2 ⟨e.1, by simpa [entriesFreq, List.lookup] using Nat.pos_of_ne_zero hcount⟩

/-- Every header the parser accepts has a present symbol (R98). -/
theorem parseHeader_present {bytes : List Byte} {h : Header} (hp : parseHeader bytes = some h) :
    1 ≤ distinctSymbols h.freq := by
  unfold parseHeader at hp
  dsimp only at hp
  split at hp
  · split at hp
    · cases hp
    · rename_i hn
      split at hp
      · rename_i es p data hentries
        split at hp
        · rename_i hok
          cases hp
          refine entriesFreq_present (fun hnil => hn (.inl ?_)) hok.1
          rw [← parseEntries_length hentries, hnil, List.length_nil]
        · cases hp
      · cases hp
      · cases hp
  · cases hp

/-- ROOT and the arena's length fit their fields (R34, R35). -/
theorem buildTree_fits {f : Table Nat} (hf : 1 ≤ distinctSymbols f) :
    (buildTree f).1.length ≤ 511 ∧ (buildTree f).2 < 512 := by
  obtain ⟨t, hrep, -, -, hlen⟩ := buildTree_rep f hf
  have hroot := hrep.lt_length
  have hle := distinctSymbols_le f
  omega

/-- No derived code is longer than 255 bits (R91). -/
theorem deriveCodes_length_le {f : Table Nat} (hf : 1 ≤ distinctSymbols f) (x : Byte) :
    ((deriveCodes (buildTree f).1 (buildTree f).2).entry x).length ≤ 255 := by
  rcases Nat.lt_or_ge 1 (distinctSymbols f) with hmany | hone
  · obtain ⟨t, -, -, hsymbols, -, hentry⟩ := deriveCodes_buildTree f hmany
    have hpath := t.path_length_le x
    have hdepth := t.depth_lt
    have hle := distinctSymbols_le f
    rw [hentry]
    split
    · omega
    · simp
  · obtain ⟨-, -, -, -, hlen⟩ := buildTree_rep f hf
    obtain ⟨n, hn⟩ := List.length_eq_one_iff.1 (show (buildTree f).1.length = 1 by omega)
    rw [hn, deriveCodes, Table.entry_put]
    split <;> simp

theorem maxCodeLength_le {c : Table BitString} {k : Nat} (h : ∀ x, (c.entry x).length ≤ k) : maxCodeLength c ≤ k := by
  refine List.max_le_of_forall_le _ _ fun n hn => ?_
  simp only [Table.toList_eq_map, List.map_map, List.mem_map] at hn
  obtain ⟨x, -, rfl⟩ := hn
  exact h x

/-- R84: a frequency table whose sum fits 32 bits, with tree and codes cleared. -/
theorem builderInv_counted (b : Builder) {f : Table Nat} (hf : totalCount f < 2 ^ 32) :
    BuilderInv (b.clearTree.clearCodes.withFreq f) where
  nsym := by
    have hle := distinctSymbols_le f
    rw [withFreq_nsym, withFreq_freq, freqNat_freqWord hf, BitVec.toNat_ofNat]
    omega
  total := by simpa [freqNat_freqWord hf] using hf
  noTree := fun _ => ⟨rfl, rfl, rfl⟩
  tree := fun h => nomatch h
  nnodes := rfl
  noCodes := fun _ => ⟨noCodes_entry, rfl⟩
  codes := fun h => nomatch h

/-- R86: the tree of FREQ, with the codes cleared. -/
theorem BuilderInv.built {b : Builder} (h : BuilderInv b) (hn : b.nsym ≠ 0) :
    BuilderInv (b.withTree (buildTree (freqNat b.freq))).clearCodes := by
  have hpos : 1 ≤ b.nsym.toNat := by bv_omega
  obtain ⟨hlen, hroot⟩ := buildTree_fits (h.nsym ▸ hpos)
  exact {
    nsym := h.nsym
    total := h.total
    noTree := fun h => nomatch h
    tree := fun _ => ⟨hpos, by simp [Nat.mod_eq_of_lt hroot]⟩
    nnodes := by
      rw [clearCodes_nnodes, withTree_nnodes, BitVec.toNat_ofNat, clearCodes_nodes, withTree_nodes]
      omega
    noCodes := fun _ => ⟨noCodes_entry, rfl⟩
    codes := fun h => nomatch h }

/-- R90: the effective code table of the tree. -/
theorem BuilderInv.derived {b : Builder} (h : BuilderInv b) (ht : b.treeValid = true) :
    BuilderInv (b.withCodes (deriveCodes b.nodes b.root.toNat)) := by
  obtain ⟨hpos, htree⟩ := h.tree ht
  obtain ⟨hnodes, hroot⟩ := Prod.mk.inj htree
  have hmax : maxCodeLength (deriveCodes b.nodes b.root.toNat) ≤ 255 := by
    rw [hnodes, hroot]
    exact maxCodeLength_le (deriveCodes_length_le (h.nsym ▸ hpos))
  exact {
    nsym := h.nsym
    total := h.total
    noTree := h.noTree
    tree := h.tree
    nnodes := h.nnodes
    noCodes := fun h => nomatch h
    codes := fun _ => ⟨ht, rfl, by rw [withCodes_maxlen, BitVec.toNat_ofNat, withCodes_codes]; omega⟩ }

/-- R92: `load_builder` counts, builds and derives. -/
theorem builderInv_loadBuilder {f : Table Nat} (hf : totalCount f < 2 ^ 32) (hn : 1 ≤ distinctSymbols f) :
    BuilderInv (loadBuilder f) := by
  have hcounted := builderInv_counted Builder.reset hf
  have hnsym : (Builder.reset.clearTree.clearCodes.withFreq f).nsym ≠ 0 := by
    have hle := distinctSymbols_le f
    rw [withFreq_nsym]
    bv_omega
  have hderived := (hcounted.built hnsym).derived rfl
  simp only [withFreq_freq, freqNat_freqWord hf, clearCodes_nodes, clearCodes_root, withTree_nodes,
    withTree_root, BitVec.toNat_ofNat, Nat.mod_eq_of_lt (buildTree_fits hn).2] at hderived
  exact hderived

/-- R44: the builder state after reset. -/
theorem builderInv_reset : BuilderInv Builder.reset where
  nsym := by
    have hnone : ¬ 1 ≤ distinctSymbols (freqNat Builder.reset.freq) := by
      simp [distinctSymbols_pos, Builder.reset]
    exact (Nat.lt_one_iff.1 (Nat.not_le.1 hnone)).symm
  total := by
    rw [totalCount_eq_sum]
    exact (List.sum_eq_zero (by simp [Builder.reset])).symm
  noTree := fun _ => ⟨rfl, rfl, rfl⟩
  tree := fun h => nomatch h
  nnodes := rfl
  noCodes := fun _ => ⟨noCodes_entry, rfl⟩
  codes := fun h => nomatch h

end Sys2Proof.Machine
end

section
/-! The sound states (R23, R38, R46, R122): the state after reset is one, and every step keeps it. -/

namespace Sys2Proof.Machine

/-- The legal values of STATUS, clause by clause (R23). -/
theorem statusLegal_iff (s : State) :
    statusLegal s = true ↔
      (s.busy = true → s.done = false ∧ s.err = false) ∧ (s.done = true → s.err = false) ∧
        s.err = (s.errCode != 0) ∧ s.errCode.toNat < 8 ∧
        (s.builder.codesValid = true → s.builder.treeValid = true) := by
  simp only [statusLegal, Bool.and_eq_true, Bool.or_eq_true, Bool.not_eq_true', Bool.and_eq_false_iff, beq_iff_eq,
    decide_eq_true_eq, and_assoc, imp_iff_not_or, Bool.not_eq_true]

/-! DMEM (R46) -/

/-- DMEM in its canonical form and inside the address space: the two clauses of `StateInv` about it (R46). -/
structure MemInv (c : Config) (m : Memory) : Prop where
  form : Memory.wf m
  range : ∀ cell ∈ m, cell.1 < c.memBytes

theorem StateInv.mem {s : State} (h : StateInv s) : MemInv s.cfg s.dmem := ⟨h.memForm, h.memRange⟩

theorem MemInv.memWrite {c : Config} {m : Memory} {addr : Nat} {bytes : List Byte} (h : MemInv c m)
    (hin : 0 < bytes.length → addr + bytes.length ≤ c.memBytes) : MemInv c (memWrite m addr bytes) := by
  refine ⟨memWrite_wf h.form _ _, fun cell hcell => ?_⟩
  rcases mem_memWrite hcell with hold | hnew
  · exact h.range _ hold
  · omega

theorem MemInv.memScramble {c : Config} {m : Memory} {addr k n : Nat} (h : MemInv c m)
    (hin : 0 < n → addr + n ≤ c.memBytes) : MemInv c (memScramble m addr k n) := by
  refine ⟨memScramble_wf h.form _ _ _, fun cell hcell => ?_⟩
  rcases mem_memScramble hcell with hold | hnew
  · exact h.range _ hold
  · omega

/-- The abandoned bytes are bytes that exist (R124). -/
theorem abandonedBytes_in_memory (s : State) (h : 0 < abandonedBytes s) :
    s.dstAddr.toNat + abandonedBytes s ≤ s.cfg.memBytes := by
  unfold abandonedBytes at h ⊢
  by_cases hd : dstInUse s = true
  · simp only [hd, if_true] at h ⊢
    omega
  · simp [hd] at h

/-! The reset state (R44, R122, R123) -/

/-- What the block's reset leaves alone does not decide whether the block is in its reset state (R123). -/
theorem atReset.of_eq {s t : State} (h : atReset s)
    (ht : t = { s with cfg := t.cfg, dmem := t.dmem, rst := t.rst, inbox := t.inbox, reply := t.reply, draws := t.draws }) :
    atReset t := by
  unfold atReset at h ⊢
  rw [ht, h]

theorem atReset_resetBlock (s : State) : atReset (resetBlock s) := rfl

theorem atReset.stateInv {s : State} (h : atReset s) (hm : MemInv s.cfg s.dmem) : StateInv s where
  status := by rw [h]; rfl
  builder := by rw [h]; exact builderInv_reset
  memForm := hm.form
  memRange := hm.range
  held := fun _ => h

/-- Settles O59: after reset the registers hold their reset values and DMEM is empty. -/
theorem resetStateIsSound : Obligations.ResetStateIsSound := fun _ _ =>
  atReset.stateInv rfl ⟨Memory.wf_nil, fun _ h => nomatch h⟩

theorem StateInv.resetBlock {s : State} (h : StateInv s) : StateInv (resetBlock s) :=
  (atReset_resetBlock s).stateInv (h.mem.memScramble (abandonedBytes_in_memory s))

/-! What keeps a state sound -/

/-- A sound state stays sound where STATUS, the builder state and DMEM stay as they are. -/
theorem StateInv.frame {s t : State} (h : StateInv s) (hcfg : t.cfg = s.cfg) (hstatus : statusLegal t = statusLegal s)
    (hbuilder : t.builder = s.builder) (hdmem : t.dmem = s.dmem) (hheld : t.rst = true → atReset t) : StateInv t where
  status := hstatus ▸ h.status
  builder := hbuilder ▸ h.builder
  memForm := hdmem ▸ h.memForm
  memRange := hdmem ▸ hcfg ▸ h.memRange
  held := hheld

/-- An accepted START of an idle block: the flags are those of a running command (R74). -/
theorem StateInv.acceptStart {s : State} (h : StateInv s) (hr : s.rst = false) : StateInv (acceptStart s) where
  status := (statusLegal_iff _).2 ⟨fun _ => ⟨rfl, rfl⟩, fun _ => rfl, rfl, by simp, fun hc => (h.builder.codes hc).1⟩
  builder := h.builder
  memForm := h.memForm
  memRange := h.memRange
  held := by simp [hr]

theorem StateInv.clearDone {s : State} (h : StateInv s) (hr : s.rst = false) : StateInv (clearDone s) where
  status := by
    obtain ⟨hbusy, -, herr, hcode, hcodes⟩ := (statusLegal_iff s).1 h.status
    exact (statusLegal_iff _).2 ⟨fun hb => ⟨rfl, (hbusy hb).2⟩, (nomatch ·), herr, hcode, hcodes⟩
  builder := h.builder
  memForm := h.memForm
  memRange := h.memRange
  held := by simp [hr]

theorem StateInv.clearErr {s : State} (h : StateInv s) (hr : s.rst = false) : StateInv (clearErr s) where
  status := by
    obtain ⟨hbusy, -, -, -, hcodes⟩ := (statusLegal_iff s).1 h.status
    exact (statusLegal_iff _).2 ⟨fun hb => ⟨(hbusy hb).1, rfl⟩, fun _ => rfl, rfl, by simp, hcodes⟩
  builder := h.builder
  memForm := h.memForm
  memRange := h.memRange
  held := by simp [hr]

theorem StateInv.writeStatus {s : State} (h : StateInv s) (hr : s.rst = false) (v : Word) :
    StateInv (writeStatus v s) := by
  unfold Machine.writeStatus
  dsimp only
  split <;> split
  · exact (h.clearDone hr).clearErr hr
  · exact h.clearErr hr
  · exact h.clearDone hr
  · exact h

theorem StateInv.writeCtrl {s : State} (h : StateInv s) (hr : s.rst = false) (v : Word) : StateInv (writeCtrl v s) := by
  have hirq : StateInv { s with irqEn := v.getLsbD 2 } := h.frame rfl rfl rfl rfl (by simp [hr])
  rcases writeCtrl_cases v s with hw | hw | ⟨-, hw⟩ <;> rw [hw]
  · exact h.resetBlock
  · exact hirq
  · exact hirq.acceptStart hr

/-- A register write of any kind keeps a state sound (R21-R27, R37, R77). -/
theorem StateInv.writeAt {s : State} (h : StateInv s) (hr : s.rst = false) (off : Nat) (v : Word) :
    StateInv (writeAt off v s) := by
  rcases writeAt_cases off v s with hw | hw | hw | ⟨-, hw | hw | hw | hw | hw⟩ <;> rw [hw]
  · exact h
  · exact h.writeCtrl hr v
  · exact h.writeStatus hr v
  all_goals exact h.frame rfl rfl rfl rfl (by simp [hr])

/-- No register write moves the `rst` input (R15). -/
@[simp] theorem writeAt_rst (off : Nat) (v : Word) (s : State) : (writeAt off v s).rst = s.rst := by
  have hctrl : (Machine.writeCtrl v s).rst = s.rst := by
    rcases writeCtrl_cases v s with hw | hw | ⟨-, hw⟩ <;> rw [hw] <;> rfl
  rcases writeAt_cases off v s with hw | hw | hw | ⟨-, hw | hw | hw | hw | hw⟩ <;> rw [hw]
  · exact hctrl
  · simp

/-! The completions (R75, R76, R107) -/

/-- The builder state of a success completion meets the builder invariants (R38). -/
theorem ruleOf_ok_builderInv {i : Instr} {s : State} {u : Updates} (h : BuilderInv s.builder) (hok : ruleOf i s = .ok u) :
    BuilderInv u.builder := by
  have hsrc : totalCount (countBytes (srcBytes s)) = s.srcLen.toNat := by simp [totalCount_countBytes, srcBytes]
  have hfits : totalCount (countBytes (srcBytes s)) < 2 ^ 32 := hsrc ▸ s.srcLen.isLt
  cases i with
  | nop => cases hok; exact h
  | count =>
    obtain ⟨-, rfl⟩ := countRule_ok hok
    have hcounted := builderInv_counted s.builder hfits
    rwa [Builder.withFreq, hsrc, BitVec.ofNat_toNat, BitVec.setWidth_eq] at hcounted
  | build =>
    obtain ⟨hne, rfl⟩ := buildRule_ok hok
    exact h.built hne
  | derive =>
    obtain ⟨htree, rfl⟩ := deriveRule_ok hok
    exact h.derived htree
  | encode =>
    obtain ⟨-, hlen, -, hb, -⟩ := encodeRule_ok hok
    have hne : srcBytes s ≠ [] := fun hnil => by
      have hzero : s.srcLen.toNat = 0 := by simpa [srcBytes] using congrArg List.length hnil
      exact hlen (BitVec.eq_of_toNat_eq hzero)
    exact hb ▸ builderInv_loadBuilder hfits (distinctSymbols_countBytes_pos hne)
  | decode =>
    obtain ⟨hd, -, -, hparse, hcap, -, hb, -⟩ := decodeRule_ok hok
    exact hb ▸ builderInv_loadBuilder (by omega) (parseHeader_present hparse)

/-- A success completion stores inside DMEM (R46, R49). -/
theorem ruleOf_ok_memInv {i : Instr} {s : State} {u : Updates} (h : MemInv s.cfg s.dmem) (hok : ruleOf i s = .ok u) :
    MemInv s.cfg u.dmem := by
  rcases ruleOf_ok_stores hok with ⟨-, hm, -⟩ | ⟨hdst, hrange, out, hm, -, hcap⟩
  · exact hm ▸ h
  · obtain ⟨-, hfits, -⟩ := rangeOk_dst hdst hrange
    exact hm ▸ h.memWrite fun _ => by omega

/-- The flags of a success completion are legal, since a running command has ERR at 0 (R23, R76). -/
theorem StateInv.successCompletion {s : State} {u : Updates} (h : StateInv s) (hbusy : s.busy = true)
    (hr : s.rst = false) (hb : BuilderInv u.builder) (hm : MemInv s.cfg u.dmem) :
    StateInv (successCompletion u s) where
  status := by
    obtain ⟨hflags, -, herr, hcode, -⟩ := (statusLegal_iff s).1 h.status
    exact (statusLegal_iff _).2 ⟨(nomatch ·), fun _ => (hflags hbusy).2, herr, hcode, fun hc => (hb.codes hc).1⟩
  builder := hb
  memForm := hm.form
  memRange := hm.range
  held := by simp [hr]

/-- An error completion leaves a legal STATUS and a builder state that was there before, or the cleared one (R107). -/
theorem StateInv.errorCompletion {s : State} (h : StateInv s) (hr : s.rst = false) (c : Bool) (e : CmdError) :
    StateInv (errorCompletion c e s) := by
  have hbuilder : BuilderInv (Machine.errorCompletion c e s).builder := by
    cases c
    · exact h.builder
    · exact builderInv_reset
  exact {
    status := (statusLegal_iff _).2
      ⟨(nomatch ·), (nomatch ·), by cases e <;> rfl, Nat.lt_succ_of_le e.code_bounds.2,
        fun hc => (hbuilder.codes hc).1⟩
    builder := hbuilder
    memForm := h.memForm
    memRange := h.memRange
    held := by simp [hr] }

/-- The engine's turn keeps a state sound (R75). -/
theorem StateInv.engineTurn {s t : State} (h : StateInv s) (ht : engineTurn s = .next t) : StateInv t := by
  rcases engineTurn_cases s with ⟨hbusy, hr, c, r, hturn, hrule⟩ | ⟨-, hturn⟩ <;> rw [hturn] at ht <;> cases ht
  · match r, hrule with
    | .ok u, .inl ⟨i, _, _, hok⟩ =>
      exact h.successCompletion hbusy hr (ruleOf_ok_builderInv h.builder hok.symm) (ruleOf_ok_memInv h.mem hok.symm)
    | .error e, _ => exact h.errorCompletion hr c e
  · exact h

/-! The step -/

/-- One entry of the inbox keeps a state sound (R7). -/
theorem StateInv.act {e : Event} {s t : State} (h : StateInv s) (ht : act e s = .next t) : StateInv t := by
  cases e with
  | regWrite addr bits v =>
    obtain ⟨off, -, -, -, -, hr, rfl⟩ := withAccess_next ht
    exact (h.writeAt hr off v).frame rfl rfl rfl rfl (by simp [hr])
  | regRead addr bits =>
    obtain ⟨off, -, -, -, -, hr, rfl⟩ := withAccess_next ht
    rcases readAt_state off s with hs | hs <;> rw [hs] <;> exact h.frame rfl rfl rfl rfl (by simp [hr])
  | memWrite addr bytes =>
    obtain ⟨hin, -, -, rfl⟩ := hostMemWrite_next ht
    have hm := h.mem.memWrite (addr := addr) (bytes := bytes) fun hpos => by
      simpa [inMemory, List.length_pos_iff.1 hpos] using hin
    exact {
      status := h.status
      builder := h.builder
      memForm := hm.form
      memRange := hm.range
      held := fun hr => (h.held hr).of_eq rfl }
  | memRead addr n =>
    obtain ⟨-, -, rfl⟩ := hostMemRead_next ht
    exact h.frame rfl rfl rfl rfl fun hr => (h.held hr).of_eq rfl
  | rst level =>
    cases level <;> cases ht
    · exact h.frame rfl rfl rfl rfl fun hr => nomatch hr
    · exact h.resetBlock.frame rfl rfl rfl rfl fun _ => (atReset_resetBlock s).of_eq rfl
  | engineTurn => exact h.engineTurn ht

/-- Settles O60: taking the first entry from the inbox keeps a state sound, and so does what the entry, or the engine,
then does. -/
theorem stepKeepsStateSound : Obligations.StepKeepsStateSound := by
  intro s t h ht
  cases hi : s.inbox with
  | nil => exact h.engineTurn (step_nil hi ▸ ht)
  | cons e es =>
    have hrest : StateInv { s with inbox := es } := h.frame rfl rfl rfl rfl fun hr => (h.held hr).of_eq rfl
    exact hrest.act (step_cons hi ▸ ht)

end Sys2Proof.Machine
end

section
/-! The register map (R18, R39-R41): one register at each offset, one offset for each register; and what an accepted
access at a register's offset is. -/

namespace Sys2Proof.Machine

/-- The i-th of the eighteen registers below the windows stands at offset 4*i (R18). -/
theorem regOffset_plainRegs {i : Nat} {r : Reg} (h : plainRegs[i]? = some r) : regOffset r = 4 * i := by
  have hall : ∀ k : Fin plainRegs.length, regOffset plainRegs[k] = 4 * k.val := by decide
  obtain ⟨hi, rfl⟩ := List.getElem?_eq_some_iff.1 h
  exact hall ⟨i, hi⟩

/-- Every register has an aligned offset inside the block (R18). -/
theorem regOffset_aligned (r : Reg) : regOffset r % 4 = 0 ∧ regOffset r < 0x8000 := by
  cases r with
  | freq x =>
    have hx := x.isLt
    simp only [regOffset]
    omega
  | nodeWeight i => simp only [regOffset]; omega
  | nodeLink i => simp only [regOffset]; omega
  | code x w =>
    have hx := x.isLt
    simp only [regOffset]
    omega
  | _ => decide

/-- The decoder of offsets finds each register at its offset (R18, R39-R41). -/
@[simp] theorem regAt_regOffset (r : Reg) : regAt (regOffset r) = some r := by
  cases r with
  | freq x =>
    have hx := x.isLt
    rw [regOffset, regAt, if_neg (by omega), if_pos (by omega), show (0x0400 + 4 * x.toNat - 0x0400) / 4 = x.toNat by omega,
      BitVec.ofNat_toNat, BitVec.setWidth_eq]
  | nodeWeight i =>
    have hi := i.isLt
    rw [regOffset, regAt, if_neg (by omega), if_neg (by omega), if_neg (by omega), if_pos (by omega), if_pos (by omega),
      show (0x1000 + 8 * i.val - 0x1000) / 8 = i.val by omega, Fin.ofNat_val_eq_self]
  | nodeLink i =>
    have hi := i.isLt
    rw [regOffset, regAt, if_neg (by omega), if_neg (by omega), if_neg (by omega), if_pos (by omega), if_neg (by omega),
      show (0x1004 + 8 * i.val - 0x1000) / 8 = i.val by omega, Fin.ofNat_val_eq_self]
  | code x w =>
    have hx := x.isLt
    have hw := w.isLt
    rw [regOffset, regAt, if_neg (by omega), if_neg (by omega), if_neg (by omega), if_neg (by omega), if_neg (by omega),
      if_pos (by omega), show (0x4000 + 64 * x.toNat + 4 * w.val - 0x4000) / 64 = x.toNat by omega,
      show (0x4000 + 64 * x.toNat + 4 * w.val - 0x4000) % 64 / 4 = w.val by omega, BitVec.ofNat_toNat, BitVec.setWidth_eq,
      Fin.ofNat_val_eq_self]
  | _ => rfl

/-- A register the decoder finds at an aligned offset has that offset (R18, R39-R41). -/
theorem regOffset_of_regAt {off : Nat} {r : Reg} (ha : off % 4 = 0) (h : regAt off = some r) : regOffset r = off := by
  unfold regAt at h
  split at h
  · rw [regOffset_plainRegs h]
    omega
  · split at h
    · cases h
      simp only [regOffset, BitVec.toNat_ofNat]
      omega
    · split at h
      · cases h
      · split at h
        · split at h <;> cases h <;> simp only [regOffset, Fin.val_ofNat] <;> omega
        · split at h
          · cases h
          · split at h
            · cases h
              simp only [regOffset, BitVec.toNat_ofNat, Fin.val_ofNat]
              omega
            · cases h

/-- The reserved offsets (R18). -/
theorem regAt_eq_none_iff {off : Nat} (ha : off % 4 = 0) :
    regAt off = none ↔
      (0x0048 ≤ off ∧ off ≤ 0x03FC) ∨ (0x0800 ≤ off ∧ off ≤ 0x0FFC) ∨ (0x1FF8 ≤ off ∧ off ≤ 0x3FFC) ∨ 0x8000 ≤ off := by
  have hlen : plainRegs.length = 18 := rfl
  unfold regAt
  split
  · rw [List.getElem?_eq_none_iff, hlen]
    omega
  · repeat' split
    all_goals simp only [reduceCtorEq, true_iff, false_iff]; omega

/-- Settles O4: the decoder of offsets and `regOffset` invert each other, and the gaps of the map are R18's. -/
theorem registerMapRoundTrip : Obligations.RegisterMapRoundTrip :=
  ⟨fun r => ⟨(regOffset_aligned r).1, (regOffset_aligned r).2, regAt_regOffset r⟩,
    fun _ _ => regOffset_of_regAt, fun _ => regAt_eq_none_iff⟩

end Sys2Proof.Machine
end

section
/-! Register reads and writes (R18-R45): which accesses stop, what an accepted one answers, and what a write leaves
alone. -/

namespace Sys2Proof.Machine

/-! The checks of an access (R37, R127) -/

theorem withAccess_outside {s : State} {addr : Nat} (bits : Nat) (act : Nat → State)
    (h : addr < s.cfg.baseAddr ∨ s.cfg.baseAddr + 0x8000 ≤ addr) : withAccess addr bits s act = .refused .outsideBlock := by
  simp [withAccess, offsetOf_none h]

theorem withAccess_inReset {s : State} {off : Nat} (bits : Nat) (act : Nat → State) (hl : off < 0x8000)
    (hr : s.rst = true) : withAccess (s.cfg.baseAddr + off) bits s act = .fault .registerAccessInReset := by
  simp [withAccess, hl, hr]

theorem withAccess_malformed {s : State} {off bits : Nat} (act : Nat → State) (hl : off < 0x8000) (hr : s.rst = false)
    (hw : bits ≠ 32 ∨ off % 4 ≠ 0) : withAccess (s.cfg.baseAddr + off) bits s act = .fault .badRegisterAccess := by
  have hwf : RegAccess.wf off bits = false := by
    simpa only [RegAccess.wf, Bool.and_eq_false_iff, beq_eq_false_iff_ne] using hw
  simp [withAccess, hl, hr, hwf]

/-- Settles O8: reads and writes make the same checks, in this order. -/
theorem unacceptedAccessesStop : Obligations.UnacceptedAccessesStop := by
  intro s addr bits v
  refine ⟨fun hout => ⟨withAccess_outside bits _ hout, withAccess_outside bits _ hout⟩, ?_⟩
  rintro off rfl hl
  exact ⟨fun hr => ⟨withAccess_inReset bits _ hl hr, withAccess_inReset bits _ hl hr⟩,
    fun hr hw => ⟨withAccess_malformed _ hl hr hw, withAccess_malformed _ hl hr hw⟩⟩

/-! Reads (R37, R45) -/

/-- A reserved offset reads 0, BUSY or not (R18, R45). -/
theorem hostRegRead_reserved {s : State} {off : Nat} (hr : s.rst = false) (hl : off < 0x8000) (ha : off % 4 = 0)
    (hn : regAt off = none) : hostRegRead (s.cfg.baseAddr + off) 32 s = .next { s with reply := .regData 0 } := by
  rw [hostRegRead_accepted hr hl ha]
  simp [readAt, hn]

/-- A read of a register at its offset (R18, R37). -/
theorem hostRegRead_reg {s : State} (hr : s.rst = false) (r : Reg) :
    hostRegRead (s.cfg.baseAddr + regOffset r) 32 s =
      .next { (readAt (regOffset r) s).2 with reply := .regData (readAt (regOffset r) s).1 } :=
  hostRegRead_accepted hr (regOffset_aligned r).2 (regOffset_aligned r).1

/-- A register that is steady, or any register of an idle block, reads the value it holds (R37, R45). -/
theorem readAt_current {s : State} {r : Reg} (h : s.busy = false ∨ steadyWhileBusy r = true) :
    readAt (regOffset r) s = (readReg s r, s) := by
  have hsteady : (s.busy && !steadyWhileBusy r) = false := by
    rcases h with h | h <;> simp [h]
  simp [readAt, hsteady]

theorem hostRegRead_current {s : State} {r : Reg} (hr : s.rst = false) (h : s.busy = false ∨ steadyWhileBusy r = true) :
    hostRegRead (s.cfg.baseAddr + regOffset r) 32 s = .next { s with reply := .regData (readReg s r) } := by
  rw [hostRegRead_reg hr, readAt_current h]

/-- Any other register of a busy block reads a free value, and a draw is counted (R45, log entry 1). -/
theorem hostRegRead_free {s : State} {r : Reg} (hr : s.rst = false) (hb : s.busy = true)
    (h : steadyWhileBusy r = false) :
    hostRegRead (s.cfg.baseAddr + regOffset r) 32 s =
      .next { s with reply := .regData (Config.freeWord s.draws), draws := s.draws + 1 } := by
  rw [hostRegRead_reg hr]
  simp [readAt, hb, h]

/-- The nine steady registers (R45). -/
theorem steadyWhileBusy_iff (r : Reg) :
    steadyWhileBusy r = true ↔
      r ∈ [Reg.id, .version, .ctrl, .cmd, .status, .srcAddr, .srcLen, .dstAddr, .dstCap] := by
  cases r <;> simp [steadyWhileBusy]

/-- Settles O7: the three kinds of offsets while BUSY, and a completion leaves the block idle. -/
theorem busyReadsAreSteadyOrFree : Obligations.BusyReadsAreSteadyOrFree := by
  refine ⟨fun s r hb hr => ⟨fun hmem => ?_, fun hmem => ?_⟩, fun s off _ hr => hostRegRead_reserved hr, ?_⟩
  · exact hostRegRead_current hr (.inr ((steadyWhileBusy_iff r).2 hmem))
  · exact hostRegRead_free hr hb (Bool.eq_false_iff.2 (mt (steadyWhileBusy_iff r).1 hmem))
  · intro i s t r hexec
    rw [exec_eq_complete] at hexec
    cases hexec
    exact readAt_current (.inl (complete_busy _ _ s))

/-- What CTRL reads as: IRQ_EN in bit 2 (R21). -/
theorem readReg_ctrl (s : State) : readReg s .ctrl = if s.irqEn then 4 else 0 := by
  unfold readReg
  cases s.irqEn <;> rfl

/-- Settles O6: each register of an idle block at its offset, the eighteen below the windows in the order of R18. -/
theorem idleReadReturnsRegister : Obligations.IdleReadReturnsRegister := by
  refine ⟨fun s off hb hr hl ha => ⟨fun r hreg => ?_, hostRegRead_reserved hr hl ha⟩, fun s hb hr => ⟨?_, fun x => ?_⟩⟩
  · rw [← regOffset_of_regAt ha hreg]
    exact hostRegRead_current hr (.inl hb)
  · have hall : ∀ e ∈ plainRegs.map fun r => (regOffset r, readReg s r),
        hostRegRead (s.cfg.baseAddr + e.1) 32 s = .next { s with reply := .regData e.2 } :=
      List.forall_mem_map.2 fun _ _ => hostRegRead_current hr (.inl hb)
    simp only [plainRegs, List.map_cons, List.map_nil, readReg_ctrl] at hall
    exact hall
  · rw [Nat.add_assoc]
    exact hostRegRead_current (r := .freq x) hr (.inl hb)

/-! Writes (R21-R27, R37) -/

/-- A write of a register at its offset (R18, R37). -/
theorem hostRegWrite_reg {s : State} (hr : s.rst = false) (r : Reg) (v : Word) :
    hostRegWrite (s.cfg.baseAddr + regOffset r) 32 v s = .next { writeReg r v s with reply := .writeOk } := by
  rw [hostRegWrite_accepted v hr (regOffset_aligned r).2 (regOffset_aligned r).1, writeAt, regAt_regOffset]

/-- Settles O12: an idle block's CMD and configuration registers take the value written. -/
theorem idleConfigurationWritesAreTaken : Obligations.IdleConfigurationWritesAreTaken := by
  intro s v hb hr
  refine ⟨(hostRegWrite_reg hr .cmd v).trans ?_, (hostRegWrite_reg hr .srcAddr v).trans ?_,
    (hostRegWrite_reg hr .srcLen v).trans ?_, (hostRegWrite_reg hr .dstAddr v).trans ?_,
    (hostRegWrite_reg hr .dstCap v).trans ?_⟩
  all_goals simp [writeReg, opcodeField, hb]

/-- A register at an offset other than those of CTRL, STATUS, CMD and the configuration registers ignores a write (R37). -/
theorem writeReg_readOnly {r : Reg} (v : Word) (s : State)
    (h : regOffset r ∉ [0x0008, 0x000C, 0x0010, 0x0014, 0x0018, 0x001C, 0x0020]) : writeReg r v s = s := by
  cases r with
  | ctrl | cmd | status | srcAddr | srcLen | dstAddr | dstCap => simp [regOffset] at h
  | _ => rfl

/-- Settles O14: no register at such an offset, reserved offsets included, takes a write. -/
theorem readOnlyWritesAreIgnored : Obligations.ReadOnlyWritesAreIgnored := by
  intro s v off hr hl ha hoff
  have hignored : writeAt off v s = s := by
    cases hreg : regAt off with
    | none => simp [writeAt, hreg]
    | some r =>
      rw [← regOffset_of_regAt ha hreg] at hoff
      simpa [writeAt, hreg] using writeReg_readOnly v s hoff
  rw [hostRegWrite_accepted v hr hl ha, hignored]

/-- Settles O5: the offsets and values of ID and VERSION, and their writes. -/
theorem identityRegistersAreConstant : Obligations.IdentityRegistersAreConstant := fun s v =>
  ⟨regAt_regOffset .id, regAt_regOffset .version, rfl, rfl, writeReg_readOnly (r := .id) v s (by decide),
    writeReg_readOnly (r := .version) v s (by decide)⟩

end Sys2Proof.Machine
end

section
/-! The layouts of STATUS (R23), of the NODE window (R40) and of the CODE window (R41). -/

namespace Sys2Proof.Machine

/-- A bit above the low part of a concatenation is a bit of the high part. -/
theorem getLsbD_append_high {m n i : Nat} {x : BitVec m} {y : BitVec n} (h : n ≤ i) :
    (x ++ y).getLsbD i = x.getLsbD (i - n) := by
  rw [BitVec.getLsbD_append, if_neg (by omega)]

/-- A flag at the low end of a concatenation is its bit 0. -/
theorem getLsbD_append_flag {m : Nat} {x : BitVec m} {b : Bool} : (x ++ BitVec.ofBool b).getLsbD 0 = b :=
  BitVec.getLsbD_concat_zero

/-! STATUS (R23) -/

/-- The five flags of STATUS, each reached past the flags below it. -/
theorem statusWord_flags (s : State) :
    (statusWord s).getLsbD 0 = s.busy ∧ (statusWord s).getLsbD 1 = s.done ∧ (statusWord s).getLsbD 2 = s.err ∧
      (statusWord s).getLsbD 3 = s.builder.treeValid ∧ (statusWord s).getLsbD 4 = s.builder.codesValid := by
  unfold statusWord
  refine ⟨?_, ?_, ?_, ?_, ?_⟩
  all_goals
    repeat rw [getLsbD_append_high (by decide)]
    exact getLsbD_append_flag

/-- ERR_CODE between the two reserved fields of STATUS. -/
theorem statusWord_fields (s : State) :
    (statusWord s).extractLsb' 5 3 = 0 ∧ (statusWord s).extractLsb' 8 4 = s.errCode ∧
      (statusWord s).extractLsb' 12 20 = 0 := by
  unfold statusWord
  refine ⟨?_, ?_, ?_⟩
  · iterate 5 rw [BitVec.extractLsb'_append_eq_of_le (by decide)]
    exact BitVec.extractLsb'_append_eq_right
  · iterate 6 rw [BitVec.extractLsb'_append_eq_of_le (by decide)]
    exact BitVec.extractLsb'_append_eq_right
  · iterate 6 rw [BitVec.extractLsb'_append_eq_of_le (by decide)]
    exact BitVec.extractLsb'_append_eq_left

/-- Settles O9: the flags and the fields of STATUS. -/
theorem statusFieldsStandAtTheirBits : Obligations.StatusFieldsStandAtTheirBits := by
  intro s
  obtain ⟨hbusy, hdone, herr, htree, hcodes⟩ := statusWord_flags s
  exact ⟨hbusy, hdone, herr, htree, hcodes, statusWord_fields s⟩

/-! The NODE window (R40) -/

/-- The fields of a LINK word, each reached past the fields below it (R40). -/
theorem linkWord_fields (n : Node) :
    (linkWord n).extractLsb' 0 9 = n.left ∧ (linkWord n).extractLsb' 9 9 = n.right ∧
      (linkWord n).extractLsb' 18 8 = n.symbol ∧ (linkWord n).extractLsb' 26 5 = 0 ∧
      (linkWord n).getLsbD 31 = n.isLeaf := by
  unfold linkWord
  refine ⟨?_, ?_, ?_, ?_, ?_⟩
  · exact BitVec.extractLsb'_append_eq_right
  · rw [BitVec.extractLsb'_append_eq_of_le (by decide)]
    exact BitVec.extractLsb'_append_eq_right
  · iterate 2 rw [BitVec.extractLsb'_append_eq_of_le (by decide)]
    exact BitVec.extractLsb'_append_eq_right
  · iterate 3 rw [BitVec.extractLsb'_append_eq_of_le (by decide)]
    exact BitVec.extractLsb'_append_eq_right
  · iterate 4 rw [getLsbD_append_high (by decide)]
    simp

theorem readReg_node_some {s : State} {i : Fin 511} {n : Node} (h : s.builder.nodes[i.val]? = some n) :
    readReg s (.nodeWeight i) = n.weight ∧ readReg s (.nodeLink i) = linkWord n := by
  simp [readReg, nodeWeightWord, nodeLinkWord, h]

theorem readReg_node_none {s : State} {i : Fin 511} (h : s.builder.nodes.length ≤ i.val) :
    readReg s (.nodeWeight i) = 0 ∧ readReg s (.nodeLink i) = 0 := by
  simp [readReg, nodeWeightWord, nodeLinkWord, h]

/-- Settles O10: node i's two words, by their layout and by their offsets. -/
theorem nodeWindowLayout : Obligations.NodeWindowLayout := by
  refine ⟨linkWord_fields, fun _ _ _ => readReg_node_some, fun _ _ => readReg_node_none, fun s i hb hr hi => ?_⟩
  have hweight := hostRegRead_current (r := .nodeWeight ⟨i, hi⟩) hr (.inl hb)
  have hlink := hostRegRead_current (r := .nodeLink ⟨i, hi⟩) hr (.inl hb)
  simp only [regOffset, ← Nat.add_assoc] at hweight hlink
  rw [hweight, hlink]
  refine ⟨fun n hn => ?_, fun hn => ?_⟩
  · obtain ⟨hw, hl⟩ := readReg_node_some (i := ⟨i, hi⟩) hn
    exact ⟨by rw [hw], by rw [hl]⟩
  · obtain ⟨hw, hl⟩ := readReg_node_none (i := ⟨i, hi⟩) hn
    exact ⟨by rw [hw], by rw [hl]⟩

/-! The CODE window (R41) -/

/-- Appending a bit doubles the number and adds the bit. -/
theorem bitsToNat_concat (b : BitString) (x : Bool) : bitsToNat (b ++ [x]) = Nat.bit x (bitsToNat b) := by
  simp [bitsToNat, Nat.bit_val]

/-- Bit i of the number a bit-string writes is the i-th from its end. -/
theorem bitsToNat_testBit (b : BitString) (i : Nat) : (bitsToNat b).testBit i = b.reverse.getD i false := by
  induction b using List.reverseRecOn generalizing i with
  | nil => simp [bitsToNat]
  | append_singleton b x ih =>
    rw [bitsToNat_concat]
    cases i with
    | zero => simp
    | succ i => simp [Nat.testBit_bit_succ, ih]

/-- Bit 31 - j of BITS[w] is code bit 32*w + j (R41). -/
theorem codeBitsWord_getLsbD (c : BitString) (w : Nat) {j : Nat} (hj : j < 32) :
    (codeBitsWord c w).getLsbD (31 - j) = c.getD (32 * w + j) false := by
  have hbit : 31 - j < 32 := by omega
  have hpos : 32 - 1 - (31 - j) = j := by omega
  rw [codeBitsWord, BitVec.getLsbD_ofNat, bitsToNat_testBit, List.getD_eq_getElem?_getD,
    List.getElem?_reverse (by simp [hbit]), List.length_map, List.length_range, hpos]
  simp [hbit, hj]

/-- Settles O11: LEN, the code bits and the zero words, by their layout and by their offsets. -/
theorem codeWindowLayout : Obligations.CodeWindowLayout := by
  refine ⟨fun s x w hb hr => ?_, fun s x hlen => ⟨?_, fun k w hk hw => ?_, fun w hw => ?_⟩⟩
  · have hcode := hostRegRead_current (r := .code x w) hr (.inl hb)
    simpa only [regOffset, ← Nat.add_assoc] using hcode
  · rw [readReg, codeWord, if_pos (Fin.val_zero _), BitVec.toNat_setWidth, BitVec.toNat_ofNat]
    omega
  · have hword : readReg s (.code x w) = codeBitsWord (s.builder.codes.entry x) (k / 32) := by
      rw [readReg, codeWord, if_neg (by omega), if_pos (by omega), hw, Nat.add_sub_cancel_left]
    rw [hword, codeBitsWord_getLsbD _ _ (Nat.mod_lt k (by decide)), Nat.div_add_mod]
  · rw [readReg, codeWord, if_neg (by omega), if_neg (by omega)]

end Sys2Proof.Machine
end

section
/-! What `exec` answers, by the outcome of the command's rule (R75), and which commands write DST (R48). -/

namespace Sys2Proof.Machine

/-- A completion is the success completion of the rule's updates or the error completion of its error (R75). -/
theorem exec_cases {i : Instr} {s t : State} (h : exec i s = .next t) :
    (∃ u, ruleOf i s = .ok u ∧ t = successCompletion u s) ∨
      ∃ e, ruleOf i s = .error e ∧ t = errorCompletion (writesDst i) e s := by
  rw [exec_eq_complete] at h
  cases h
  cases hr : ruleOf i s with
  | ok u => exact .inl ⟨u, rfl, rfl⟩
  | error e => exact .inr ⟨e, rfl, rfl⟩

theorem exec_of_error {i : Instr} {s : State} {e : CmdError} (h : ruleOf i s = .error e) :
    exec i s = .next (errorCompletion (writesDst i) e s) := by rw [exec_eq_complete, h, complete_error]

theorem writesDst_eq_true_iff (i : Instr) : writesDst i = true ↔ i = .encode ∨ i = .decode := by
  cases i <;> decide

theorem writesDst_eq_false_iff (i : Instr) :
    writesDst i = false ↔ i = .nop ∨ i = .count ∨ i = .build ∨ i = .derive := by
  cases i <;> decide

end Sys2Proof.Machine
end

section
/-! The range checks (R49) by the bytes that two ranges share, and RANGE where they fail (R106). -/

namespace Sys2Proof.Machine

/-- Two ranges overlap exactly when they share a byte (R49): if they do, the larger of the two addresses is shared. -/
theorem rangesMeet_iff (a n b m : Nat) :
    rangesMeet a n b m = true ↔ ∃ x, a ≤ x ∧ x < a + n ∧ b ≤ x ∧ x < b + m := by
  simp only [rangesMeet, Bool.and_eq_true, decide_eq_true_eq]
  constructor
  · rintro ⟨⟨⟨hn, hm⟩, hab⟩, hba⟩
    exact ⟨max a b, by omega⟩
  · rintro ⟨x, hshared⟩
    omega

/-- `src_ok`, `dst_ok` and no overlap: the checks of the commands that write DST (R49). -/
theorem rangeOk_iff_of_writesDst {i : Instr} (hi : writesDst i = true) (s : State) :
    rangeOk i s = true ↔
      s.srcAddr.toNat + s.srcLen.toNat ≤ s.cfg.memBytes ∧ s.dstAddr.toNat + s.dstCap.toNat ≤ s.cfg.memBytes ∧
        ¬∃ a, s.srcAddr.toNat ≤ a ∧ a < s.srcAddr.toNat + s.srcLen.toNat ∧
          s.dstAddr.toNat ≤ a ∧ a < s.dstAddr.toNat + s.dstCap.toNat := by
  rw [← rangesMeet_iff, Bool.not_eq_true, ← overlap]
  refine ⟨rangeOk_dst hi, fun ⟨hsrc, hdst, hover⟩ => ?_⟩
  cases i with
  | encode | decode => simp [rangeOk, srcOk, dstOk, hsrc, hdst, hover]
  | nop | count | build | derive => cases hi

/-- "A command whose `range_ok` is false raises RANGE" (R49): NOP, BUILD and DERIVE have no such check to fail. -/
theorem ruleOf_of_rangeOk_false {i : Instr} {s : State} (h : rangeOk i s = false) : ruleOf i s = .error .range := by
  cases i with
  | nop | build | derive => cases h
  | count => rw [ruleOf, countRule, if_neg (by simp [h])]
  | encode => rw [ruleOf, encodeRule, if_neg (by simp [h])]
  | decode => rw [ruleOf, decodeRule, if_neg (by simp [h])]

theorem errorCompletion_flagsError (c : Bool) (e : CmdError) (s : State) :
    flagsError e.code (errorCompletion c e s) := ⟨rfl, rfl, rfl, rfl⟩

/-- A command that makes no range check does not raise RANGE (R49): NOP raises nothing, BUILD EMPTY_INPUT, DERIVE
SEQUENCE. -/
theorem ruleOf_ne_range {i : Instr} (hi : i = .nop ∨ i = .build ∨ i = .derive) (s : State) :
    ruleOf i s ≠ .error .range := by
  rcases hi with rfl | rfl | rfl <;> intro h
  · cases h
  · cases (buildRule_error h).2
  · cases (deriveRule_error h).2

/-- RANGE is the only error with code 4 (R106). -/
theorem CmdError.code_eq_range {e : CmdError} (h : e.code = 4) : e = .range := by
  cases e with
  | range => rfl
  | emptyInput | malformedHeader | corruptStream | capacity | sequence | illegalCommand => cases h

/-- Settles O22: the checks by shared bytes, the RANGE completion, and the commands without a check. -/
theorem rangeChecks : Obligations.RangeChecks := by
  refine fun s => ⟨by simp [rangeOk, srcOk], fun i hi => ?_, fun i hbad => ?_, fun i hi t ht => ?_⟩
  · exact rangeOk_iff_of_writesDst ((writesDst_eq_true_iff i).2 hi) s
  · exact ⟨_, exec_of_error (ruleOf_of_rangeOk_false hbad), errorCompletion_flagsError _ .range s, fun _ => rfl⟩
  · rcases exec_cases ht with ⟨u, -, rfl⟩ | ⟨e, he, rfl⟩
    · exact .inl rfl
    · exact .inr fun hcode => ruleOf_ne_range hi s (CmdError.code_eq_range hcode ▸ he)

end Sys2Proof.Machine
end

section
/-! Host accesses to DMEM: the hazards H1 and H2 by the bytes accessed (R127), and what an access that is no hazard does
(R46). -/

namespace Sys2Proof.Machine

theorem inMemory_of_le {s : State} {addr n : Nat} (h : addr + n ≤ s.cfg.memBytes) : inMemory s addr n = true := by
  simp [inMemory, h]

/-- The commands that read SRC are COUNT, ENCODE and DECODE (R46, R48). -/
theorem srcInUse_iff (s : State) :
    srcInUse s = true ↔
      s.busy = true ∧ (selected s = some .count ∨ selected s = some .encode ∨ selected s = some .decode) := by
  rw [srcInUse, Bool.and_eq_true]
  refine and_congr_right fun _ => ?_
  rcases selected s with - | i
  · simp
  · cases i <;> simp [readsSrc]

/-- The commands that write DST are ENCODE and DECODE (R46, R48). -/
theorem dstInUse_iff (s : State) :
    dstInUse s = true ↔ s.busy = true ∧ (selected s = some .encode ∨ selected s = some .decode) := by
  rw [dstInUse, Bool.and_eq_true]
  refine and_congr_right fun _ => ?_
  rcases selected s with - | i
  · simp
  · cases i <;> simp [writesDst]

/-- H1 by the bytes accessed (R127). -/
theorem meetsSrc_iff (s : State) (addr n : Nat) :
    meetsSrc s addr n = true ↔
      (s.busy = true ∧ (selected s = some .count ∨ selected s = some .encode ∨ selected s = some .decode)) ∧
        ∃ x, addr ≤ x ∧ x < addr + n ∧ s.srcAddr.toNat ≤ x ∧ x < s.srcAddr.toNat + s.srcLen.toNat := by
  rw [meetsSrc, Bool.and_eq_true, srcInUse_iff, rangesMeet_iff]

/-- H2 by the bytes accessed (R127). -/
theorem meetsDst_iff (s : State) (addr n : Nat) :
    meetsDst s addr n = true ↔
      (s.busy = true ∧ (selected s = some .encode ∨ selected s = some .decode)) ∧
        ∃ x, addr ≤ x ∧ x < addr + n ∧ s.dstAddr.toNat ≤ x ∧ x < s.dstAddr.toNat + s.dstCap.toNat := by
  rw [meetsDst, Bool.and_eq_true, dstInUse_iff, rangesMeet_iff]

/-- A read passes its two checks where the address exists and H2 is not met (R46, R127). -/
theorem hostMemRead_of_safe {s : State} {addr n : Nat} (hin : addr + n ≤ s.cfg.memBytes)
    (hdst : ¬meetsDst s addr n = true) :
    hostMemRead addr n s = .next { s with reply := .memData (memRead s.dmem addr n) } := by
  rw [hostMemRead, if_neg (by simp [inMemory_of_le hin]), if_neg hdst]

/-- A write passes its three checks where the address exists and neither H1 nor H2 is met (R46, R127). -/
theorem hostMemWrite_of_safe {s : State} {addr : Nat} {bytes : List Byte}
    (hin : addr + bytes.length ≤ s.cfg.memBytes) (hsrc : ¬meetsSrc s addr bytes.length = true)
    (hdst : ¬meetsDst s addr bytes.length = true) :
    hostMemWrite addr bytes s = .next { s with dmem := memWrite s.dmem addr bytes, reply := .writeOk } := by
  rw [hostMemWrite, if_neg (by simp [inMemory_of_le hin]), if_neg hsrc, if_neg hdst]

/-- Each byte written reads back (R13). -/
theorem memWrite_read_inside {m : Memory} (h : Memory.wf m) (a : Nat) (bs : List Byte) {i : Nat} (hi : i < bs.length) :
    (memWrite m a bs).read (a + i) = bs[i] := by
  have hback : (memRead (memWrite m a bs) a bs.length)[i]? = bs[i]? := by rw [memRead_memWrite h]
  simpa [memRead, hi] using hback

/-- Settles O24: the access passes its checks, and a write is `memWrite`. -/
theorem safeDmemAccessesComplete : Obligations.SafeDmemAccessesComplete := by
  refine fun s addr hwf => ⟨fun n hin hdst => hostMemRead_of_safe hin fun hmeets => ?_, fun bytes hin hsrc hdst => ?_⟩
  · obtain ⟨⟨hbusy, hsel⟩, x, hlo, hhi, hshared⟩ := (meetsDst_iff s addr n).1 hmeets
    exact hdst hbusy hsel x hlo hhi hshared
  · have hnoSrc : ¬meetsSrc s addr bytes.length = true := fun hmeets => by
      obtain ⟨⟨hbusy, hsel⟩, x, hlo, hhi, hshared⟩ := (meetsSrc_iff s addr _).1 hmeets
      exact hsrc hbusy hsel x hlo hhi hshared
    have hnoDst : ¬meetsDst s addr bytes.length = true := fun hmeets => by
      obtain ⟨⟨hbusy, hsel⟩, x, hlo, hhi, hshared⟩ := (meetsDst_iff s addr _).1 hmeets
      exact hdst hbusy hsel x hlo hhi hshared
    exact ⟨_, hostMemWrite_of_safe hin hnoSrc hnoDst, memWrite_wf hwf addr bytes, rfl,
      fun i hi => memWrite_read_inside hwf addr bytes hi, fun x hx => memWrite_read_outside _ _ _ hx⟩

end Sys2Proof.Machine
end

section
/-! What a completion leaves unchanged (R48, R52, R62): the registers for every command, DMEM by the kind of command, and
the parts of the builder state that NOP, BUILD and DERIVE do not write. -/

namespace Sys2Proof.Machine

/-- No completion changes CMD, IRQ_EN, a configuration register, or what is not the block's (R48, R76, R107). -/
theorem exec_completionKeeps {i : Instr} {s t : State} (h : exec i s = .next t) : completionKeeps s t := by
  rcases exec_cases h with ⟨u, -, rfl⟩ | ⟨e, -, rfl⟩ <;> simp [completionKeeps]

/-- A command that does not write DST keeps all of DMEM (R46, R48). -/
theorem exec_dmemKept {i : Instr} {s t : State} (hi : writesDst i = false) (h : exec i s = .next t) : dmemKept s t := by
  rcases exec_cases h with ⟨u, hok, rfl⟩ | ⟨e, -, rfl⟩
  · rcases ruleOf_ok_stores hok with ⟨-, hm, -⟩ | ⟨hdst, -⟩
    · exact fun a => by rw [successCompletion_dmem, hm]
    · simp [hi] at hdst
  · exact fun _ => rfl

/-- ENCODE and DECODE store OUT_LEN bytes at DST_ADDR, no more than DST_CAP, so that OUT_LEN does not wrap; their errors
store none and leave OUT_LEN at 0 (R52, R62, R107). -/
theorem exec_dmemKeptOutside {i : Instr} {s t : State} (hi : writesDst i = true) (h : exec i s = .next t) :
    dmemKeptOutside s.dstAddr.toNat t.outLen.toNat s t ∧ t.outLen.toNat ≤ s.dstCap.toNat := by
  rcases exec_cases h with ⟨u, hok, rfl⟩ | ⟨e, -, rfl⟩
  · rcases ruleOf_ok_stores hok with ⟨hdst, -⟩ | ⟨-, -, out, hm, hlen, hcap⟩
    · simp [hi] at hdst
    · have hout : (BitVec.ofNat 32 u.outLen).toNat = out.length := by
        rw [BitVec.toNat_ofNat, hlen]
        exact Nat.mod_eq_of_lt (by omega)
      rw [successCompletion_outLen, hout]
      exact ⟨fun a ha => by rw [successCompletion_dmem, hm, memWrite_read_outside _ _ _ ha], hcap⟩
  · exact ⟨fun _ _ => rfl, Nat.zero_le _⟩

/-- The builder state after the completion of a command that does not write DST: its rule's, or on an error the one
before (R76, R107). -/
theorem exec_builder_cases {i : Instr} {s t : State} (hi : writesDst i = false) (h : exec i s = .next t) :
    t.builder = s.builder ∨ ∃ u, ruleOf i s = .ok u ∧ t.builder = u.builder := by
  rcases exec_cases h with ⟨u, hok, rfl⟩ | ⟨e, -, rfl⟩
  · exact .inr ⟨u, hok, rfl⟩
  · exact .inl (by simp [hi])

/-- NOP, BUILD and DERIVE write neither FREQ nor NSYM nor TOTAL (R78, R86, R90). -/
theorem exec_freq_kept {i : Instr} {s t : State} (hi : i = .nop ∨ i = .build ∨ i = .derive) (h : exec i s = .next t) :
    t.builder.freq = s.builder.freq ∧ t.builder.nsym = s.builder.nsym ∧ t.builder.total = s.builder.total := by
  have hdst : writesDst i = false := by rcases hi with rfl | rfl | rfl <;> rfl
  rcases exec_builder_cases hdst h with hb | ⟨u, hok, hb⟩ <;> rw [hb]
  · exact ⟨rfl, rfl, rfl⟩
  · rcases hi with rfl | rfl | rfl
    · cases hok
      exact ⟨rfl, rfl, rfl⟩
    · obtain ⟨-, rfl⟩ := buildRule_ok hok
      exact ⟨rfl, rfl, rfl⟩
    · obtain ⟨-, rfl⟩ := deriveRule_ok hok
      exact ⟨rfl, rfl, rfl⟩

/-- NOP and DERIVE keep the tree (R78, R90). -/
theorem exec_tree_kept {i : Instr} {s t : State} (hi : i = .nop ∨ i = .derive) (h : exec i s = .next t) :
    t.builder.nodes = s.builder.nodes ∧ t.builder.nnodes = s.builder.nnodes ∧ t.builder.root = s.builder.root ∧
      t.builder.treeValid = s.builder.treeValid := by
  have hdst : writesDst i = false := by rcases hi with rfl | rfl <;> rfl
  rcases exec_builder_cases hdst h with hb | ⟨u, hok, hb⟩ <;> rw [hb]
  · exact ⟨rfl, rfl, rfl, rfl⟩
  · rcases hi with rfl | rfl
    · cases hok
      exact ⟨rfl, rfl, rfl, rfl⟩
    · obtain ⟨-, rfl⟩ := deriveRule_ok hok
      exact ⟨rfl, rfl, rfl, rfl⟩

/-- Settles O31: the frames of a completion, by what the command writes. -/
theorem completionFrame : Obligations.CompletionFrame := fun i _ _ ht =>
  ⟨exec_completionKeeps ht, fun hi => exec_dmemKept ((writesDst_eq_false_iff i).2 hi) ht,
    fun hi => exec_dmemKeptOutside ((writesDst_eq_true_iff i).2 hi) ht, fun hi => exec_freq_kept hi ht,
    fun hi => exec_tree_kept hi ht⟩

end Sys2Proof.Machine
end

section
/-! The command word (R61-R64): which opcode selects which command, and the decoder as the encoder's inverse. -/

namespace Sys2Proof

/-- The row of the opcode map with a given OPCODE (R63). -/
theorem lookup_opcodeMap {op : Byte} {i : Instr} : opcodeMap.lookup op = some i ↔ op = opcode i := by
  constructor
  · intro h
    have hrows : ∀ e ∈ opcodeMap, e.1 = opcode e.2 := by decide
    obtain ⟨before, after, hmap, -⟩ := List.lookup_eq_some_iff.1 h
    exact hrows (op, i) (by simp [hmap])
  · rintro rfl
    cases i <;> rfl

/-- A command is selected by bits 7:0 alone (R63). -/
theorem decode_eq_ok_iff {w : Word} {i : Instr} : decode w = .ok i ↔ opcodeField w = opcode i := by
  rw [← lookup_opcodeMap, decode]
  cases opcodeMap.lookup (opcodeField w) <;> simp

/-- The OPCODEs with a command are 0x00..0x05 (R63). -/
theorem exists_opcode_iff {op : Byte} : (∃ i, op = opcode i) ↔ op.toNat < 6 := by
  constructor
  · rintro ⟨i, rfl⟩
    cases i <;> decide
  · intro h
    have hrows : ∀ n : Fin 6, BitVec.ofNat 8 n.val = opcode opcodeMap[n.val].2 := by decide
    have hrow := hrows ⟨op.toNat, h⟩
    rw [BitVec.ofNat_toNat, BitVec.setWidth_eq] at hrow
    exact ⟨_, hrow⟩

/-- The OPCODEs 0x06..0xFF select no command (R64). -/
theorem decode_error_iff (w : Word) : (∃ e, decode w = .error e) ↔ 6 ≤ (opcodeField w).toNat := by
  have hok : (∃ i, decode w = .ok i) ↔ (opcodeField w).toNat < 6 := by
    simpa only [decode_eq_ok_iff] using exists_opcode_iff
  rw [← not_lt, ← hok]
  cases decode w <;> simp

/-- An OPCODE in a word whose reserved bits are zero is the word's OPCODE (R61). -/
@[simp] theorem opcodeField_setWidth (op : Byte) : opcodeField (op.setWidth 32) = op := by
  apply BitVec.eq_of_toNat_eq
  simpa [opcodeField] using op.isLt

/-- The OPCODE of a word as a word is the word with its reserved bits zero (R61). -/
theorem setWidth_opcodeField (w : Word) : (opcodeField w).setWidth 32 = w &&& 0x000000FF := by
  apply BitVec.eq_of_toNat_eq
  have hmask : w.toNat &&& (0x000000FF : Word).toNat = w.toNat % 2 ^ 8 := Nat.and_two_pow_sub_one_eq_mod w.toNat 8
  simp only [opcodeField, BitVec.toNat_setWidth, BitVec.extractLsb'_toNat, Nat.shiftRight_zero, BitVec.toNat_and, hmask]
  omega

/-- The decoder gives back every command (R61, R63). -/
@[simp] theorem decode_encode (i : Instr) : decode (encode i) = .ok i :=
  decode_eq_ok_iff.2 (opcodeField_setWidth _)

/-- The encoder gives back a legal word with its reserved bits zero (R61). -/
theorem encode_of_decode {w : Word} {i : Instr} (h : decode w = .ok i) : encode i = w &&& 0x000000FF := by
  rw [encode, ← decode_eq_ok_iff.1 h, setWidth_opcodeField]

/-- The per-command facts, for every command (R61, R63). -/
theorem commandWords : ∀ i : Instr, Laws.CommandWords.Statement i
  | .nop => Laws.CommandWords.nop
  | .count => Laws.CommandWords.count
  | .build => Laws.CommandWords.build
  | .derive => Laws.CommandWords.derive
  | .encode => Laws.CommandWords.encode
  | .decode => Laws.CommandWords.decode

/-- Settles O1: each command by its OPCODE, and none by an OPCODE above 0x05. -/
theorem opcodeMapDecides : Obligations.OpcodeMapDecides := fun w =>
  ⟨decode_eq_ok_iff, decode_eq_ok_iff, decode_eq_ok_iff, decode_eq_ok_iff, decode_eq_ok_iff, decode_eq_ok_iff,
    decode_error_iff w⟩

/-- Settles O2: the words written out, by running the decoder on each. -/
theorem sampleCommandWordsDecode : Obligations.SampleCommandWordsDecode := by
  unfold Obligations.SampleCommandWordsDecode
  decide

/-- Settles O3: decoding an encoded command, and encoding a decoded word. -/
theorem commandWordRoundTrip : Obligations.CommandWordRoundTrip := by
  refine ⟨fun i => ?_, fun w i => encode_of_decode⟩
  obtain ⟨hcommand, hword, -⟩ := commandWords i
  exact ⟨hcommand, decode_encode i, hword⟩

end Sys2Proof
end

section
/-! RUN (R72): what each entry of the inbox that it stands for does, and their run one after another. -/

namespace Sys2Proof.Machine

/-- The command in CMD, from its OPCODE (R63, R74). -/
theorem selected_of_cmd {s : State} {i : Instr} (h : s.cmd = opcode i) : selected s = some i := by
  have hword : commandWord s = encode i := by rw [commandWord, h, encode]
  rw [selected, hword, decode_encode]

/-- The engine's turn of a running command is its completion (R75). -/
theorem engineTurn_of_running {s : State} {i : Instr} (hb : s.busy = true) (hr : s.rst = false)
    (hc : s.cmd = opcode i) : engineTurn s = exec i s := by
  rw [engineTurn, if_pos (by simp [hb, hr]), completeSelected, selected_of_cmd hc]

/-- START, with the value of IRQ_EN, starts the command of an idle block (R72, R74, R82). -/
theorem writeCtrl_start {s : State} (hb : s.busy = false) (ie : Bool) :
    writeCtrl (if ie then 0x5 else 0x1) s = acceptStart { s with irqEn := ie } := by
  cases ie <;> simp [writeCtrl, start, hb]

/-! The steps of RUN, one for each kind of entry in its inbox (R71) -/

/-- The command word written to CMD (R22). -/
theorem step_writeCommand {s : State} {i : Instr} {es : List Event} (hb : s.busy = false) (hr : s.rst = false)
    (hi : s.inbox = hostWR s.cfg .cmd (encode i) :: es) :
    step s = .next { s with cmd := opcode i, inbox := es, reply := .writeOk } := by
  refine (step_cons hi).trans ((hostRegWrite_reg (s := { s with inbox := es }) hr .cmd (encode i)).trans ?_)
  simp [writeReg, hb, encode]

/-- START written to CTRL with the value of IRQ_EN (R74, R82). -/
theorem step_writeStart {s : State} {ie : Bool} {es : List Event} (hb : s.busy = false) (hr : s.rst = false)
    (hi : s.inbox = hostWR s.cfg .ctrl (if ie then 0x5 else 0x1) :: es) :
    step s = .next { acceptStart { s with irqEn := ie } with inbox := es, reply := .writeOk } := by
  refine (step_cons hi).trans ((hostRegWrite_reg (s := { s with inbox := es }) hr .ctrl _).trans ?_)
  rw [writeReg, writeCtrl_start (s := { s with inbox := es }) hb]
  rfl

/-- STATUS read by a poll, BUSY or not (R45). -/
theorem step_readStatus {s : State} {es : List Event} (hr : s.rst = false) (hi : s.inbox = hostRD s.cfg .status :: es) :
    step s = .next { s with inbox := es, reply := .regData (statusWord s) } :=
  (step_cons hi).trans (hostRegRead_current (s := { s with inbox := es }) hr (.inr rfl))

/-- The engine's turn of a running command (R75). -/
theorem step_engineTurn {s : State} {i : Instr} {es : List Event} (hb : s.busy = true) (hr : s.rst = false)
    (hc : s.cmd = opcode i) (hi : s.inbox = .engineTurn :: es) : step s = exec i { s with inbox := es } :=
  (step_cons hi).trans (engineTurn_of_running (s := { s with inbox := es }) hb hr hc)

/-! The run of RUN -/

theorem run_of_step {s t : State} {n : Nat} (h : step s = .next t) :
    Host.Core.run core (n + 1) s = Host.Core.run core n t := by
  have hstep : core.step s = .next t := h
  simp only [Host.Core.run, hstep]

/-- The state after RUN's two register writes: the command of an idle block is started, `es` is left in the inbox and
`r` is the last answer. -/
def started (i : Instr) (ie : Bool) (es : List Event) (r : Reply) (s : State) : State :=
  { s with
    cmd := opcode i, irqEn := ie, done := false, err := false, errCode := 0, busy := true
    inbox := es, reply := r }

/-- The two writes (R72). -/
theorem run_writes {s : State} {i : Instr} {ie : Bool} {k : Nat} (n : Nat) (hb : s.busy = false) (hr : s.rst = false)
    (hi : s.inbox = hostRUN s.cfg i ie k) :
    Host.Core.run core (n + 2) s = Host.Core.run core n (started i ie (hostPOLL s.cfg k) .writeOk s) := by
  rw [run_of_step (step_writeCommand hb hr hi)]
  exact run_of_step (step_writeStart hb hr rfl)

/-- Reads of STATUS leave nothing but their answer (R37). -/
theorem run_pollReads {k : Nat} {s : State} {es : List Event} (n : Nat) (hr : s.rst = false)
    (hi : s.inbox = List.replicate k (hostRD s.cfg .status) ++ es) :
    ∃ r, Host.Core.run core (k + n) s = Host.Core.run core n { s with inbox := es, reply := r } := by
  induction k generalizing s with
  | zero =>
    have hes : s.inbox = es := hi
    exact ⟨s.reply, by rw [← hes, Nat.zero_add]⟩
  | succ k ih =>
    rw [Nat.add_right_comm, run_of_step (step_readStatus hr hi)]
    exact ih hr rfl

/-- The engine's turn completes the command, and the last read answers with the STATUS it leaves (R72, R75). -/
theorem run_completion {s t : State} {i : Instr} (hb : s.busy = true) (hr : s.rst = false) (hc : s.cmd = opcode i)
    (hi : s.inbox = [.engineTurn, hostRD s.cfg .status])
    (ht : exec i { s with inbox := [hostRD s.cfg .status] } = .next t) :
    Host.Core.run core 2 s = .next { t with inbox := [], reply := .regData (statusWord t) } := by
  rw [exec_eq_complete] at ht
  cases ht
  rw [run_of_step ((step_engineTurn hb hr hc hi).trans (exec_eq_complete _ _)),
    run_of_step (step_readStatus (es := []) (by simp [hr]) (by simp))]
  rfl

/-- Settles O33: the two writes start the command, the polls change nothing, and the engine's turn completes it. -/
theorem runPseudoOperationCompletes : Obligations.RunPseudoOperationCompletes := by
  intro s i ie k hb hr hi
  obtain ⟨r, hpolls⟩ := run_pollReads (s := started i ie (hostPOLL s.cfg k) .writeOk s) 2 hr rfl
  have hexec := exec_eq_complete i (started i ie [hostRD s.cfg .status] r s)
  refine ⟨r, _, hexec, ?_, ?_⟩
  · rw [run_writes (k + 2) hb hr hi, hpolls]
    exact run_completion rfl hr rfl rfl hexec
  · exact (statusWord_flags _).1.trans (complete_busy _ _ _)

end Sys2Proof.Machine
end

section
/-! Bits, bytes and fields of the stream (R67-R69). -/

namespace Sys2Proof.Machine

/-! Packing (R68) -/

/-- The bits of a byte by their positions in it: bit 7 first (R68). -/
theorem byteBits_eq_map (b : Byte) : byteBits b = (List.range 8).map fun t => b.getLsbD (7 - t) := rfl

@[simp] theorem byteBits_length (b : Byte) : (byteBits b).length = 8 := rfl

/-- Bit t of a byte's bits is the quotient R68 gives. -/
theorem byteBits_getD (b : Byte) {t : Nat} (ht : t < 8) :
    ((byteBits b).getD t false).toNat = b.toNat / 2 ^ (7 - t) % 2 := by
  rw [byteBits_eq_map, ← Nat.toNat_testBit]
  simp [ht, BitVec.getLsbD]

/-- A byte is the sum of its bits, each at its weight. -/
theorem toNat_eq_sum_bits (b : Byte) :
    b.toNat = ((List.range 8).map fun t => b.toNat / 2 ^ (7 - t) % 2 * 2 ^ (7 - t)).sum := by
  have hlt := b.isLt
  simp [List.range_succ]
  omega

/-- The byte of eight bits has those bits (R68). -/
theorem byteBits_ofNat_bitsToNat (b0 b1 b2 b3 b4 b5 b6 b7 : Bool) :
    byteBits (BitVec.ofNat 8 (bitsToNat [b0, b1, b2, b3, b4, b5, b6, b7])) = [b0, b1, b2, b3, b4, b5, b6, b7] := by
  simp only [byteBits, BitVec.getLsbD_ofNat, bitsToNat_testBit]
  rfl

/-- The bits of a byte write that byte (R68). -/
theorem ofNat_bitsToNat_byteBits (b : Byte) : BitVec.ofNat 8 (bitsToNat (byteBits b)) = b := by
  apply BitVec.eq_of_getLsbD_eq
  intro i hi
  rw [BitVec.getLsbD_ofNat, bitsToNat_testBit]
  interval_cases i <;> rfl

@[simp] theorem unpack_cons (b : Byte) (bytes : List Byte) : unpack (b :: bytes) = byteBits b ++ unpack bytes := rfl

theorem pack_byteBits_append (b : Byte) (bits : BitString) : pack (byteBits b ++ bits) = b :: pack bits :=
  congrArg (· :: pack bits) (ofNat_bitsToNat_byteBits b)

@[simp] theorem unpack_length (bytes : List Byte) : (unpack bytes).length = 8 * bytes.length := by
  induction bytes with
  | nil => rfl
  | cons b bytes ih =>
    simp [ih]
    omega

@[simp] theorem pack_unpack (bytes : List Byte) : pack (unpack bytes) = bytes := by
  induction bytes with
  | nil => rfl
  | cons b bytes ih => rw [unpack_cons, pack_byteBits_append, ih]

/-- Only whole groups of eight are packed (R68, R69). -/
theorem unpack_pack : ∀ {b : BitString}, b.length % 8 = 0 → unpack (pack b) = b
  | [], _ => rfl
  | _ :: _ :: _ :: _ :: _ :: _ :: _ :: _ :: rest, h => by
    have hrest : rest.length % 8 = 0 := by simpa only [List.length_cons, Nat.add_assoc, Nat.add_mod_right] using h
    rw [pack, unpack_cons, byteBits_ofNat_bitsToNat, unpack_pack hrest]
    rfl
  | [_], h | [_, _], h | [_, _, _], h | [_, _, _, _], h | [_, _, _, _, _], h | [_, _, _, _, _, _], h
  | [_, _, _, _, _, _, _], h => by simp at h

/-- Bit 8*j + t of the unpacked bytes is bit t of byte j (R68). -/
theorem unpack_getD (bytes : List Byte) {j t : Nat} (hj : j < bytes.length) (ht : t < 8) :
    (unpack bytes).getD (8 * j + t) false = (byteBits (bytes.getD j 0)).getD t false := by
  induction bytes generalizing j with
  | nil => simp at hj
  | cons b bytes ih =>
    cases j with
    | zero => rw [unpack_cons, List.getD_append _ _ _ _ (by simpa using ht)]; simp
    | succ j =>
      rw [unpack_cons, List.getD_append_right _ _ _ _ (by simp; omega), byteBits_length,
        show 8 * (j + 1) + t - 8 = 8 * j + t by omega, ih (by simpa using hj), List.getD_cons_succ]

/-- The same bit, as the quotient R68 gives. -/
theorem unpack_getD_toNat (bytes : List Byte) {j t : Nat} (hj : j < bytes.length) (ht : t < 8) :
    ((unpack bytes).getD (8 * j + t) false).toNat = (bytes.getD j 0).toNat / 2 ^ (7 - t) % 2 := by
  rw [unpack_getD bytes hj ht, byteBits_getD _ ht]

/-- Byte j of the packed bits is the sum of its group of eight (R68): the bits are those of the packed bytes. -/
theorem pack_getD_toNat {b : BitString} (hb : b.length % 8 = 0) {j : Nat} (hj : j < (pack b).length) :
    ((pack b).getD j 0).toNat =
      ((List.range 8).map fun t => (b.getD (8 * j + t) false).toNat * 2 ^ (7 - t)).sum := by
  have hbit : ∀ t ∈ List.range 8,
      (b.getD (8 * j + t) false).toNat = ((pack b).getD j 0).toNat / 2 ^ (7 - t) % 2 := fun t ht => by
    rw [← unpack_getD_toNat _ hj (List.mem_range.1 ht), unpack_pack hb]
  rw [toNat_eq_sum_bits]
  exact congrArg List.sum (List.map_congr_left fun t ht => by rw [hbit t ht])

theorem pack_length {b : BitString} (hb : b.length % 8 = 0) : (pack b).length = b.length / 8 := by
  have hlen := unpack_length (pack b)
  rw [unpack_pack hb] at hlen
  omega

/-- Settles O45: the lengths, the two inverses and the bits of packing and unpacking. -/
theorem packingIsMsbFirst : Obligations.PackingIsMsbFirst :=
  ⟨fun _ hb => ⟨pack_length hb, unpack_pack hb, fun _ hj => pack_getD_toNat hb (pack_length hb ▸ hj)⟩,
    fun bytes => ⟨unpack_length bytes, pack_unpack bytes, fun _ _ => unpack_getD_toNat bytes⟩, by decide⟩

/-! Padding (R69) -/

/-- Settles O46: the formula's remainders. -/
theorem paddingCompletesTheByte : Obligations.PaddingCompletesTheByte := by
  refine ⟨fun n => ⟨rfl, ?_, ?_, ?_⟩, rfl, rfl, rfl, rfl⟩ <;> rw [padding] <;> omega

/-! Big-endian fields (R67) -/

theorem be16_be16Bytes {v : Nat} (h : v < 2 ^ 16) :
    be16 (BitVec.ofNat 8 (v / 2 ^ 8)) (BitVec.ofNat 8 (v % 2 ^ 8)) = v := by
  simp only [be16, BitVec.toNat_ofNat]
  omega

theorem be32_be32Bytes {v : Nat} (h : v < 2 ^ 32) :
    be32 (BitVec.ofNat 8 (v / 2 ^ 24 % 2 ^ 8)) (BitVec.ofNat 8 (v / 2 ^ 16 % 2 ^ 8))
      (BitVec.ofNat 8 (v / 2 ^ 8 % 2 ^ 8)) (BitVec.ofNat 8 (v % 2 ^ 8)) = v := by
  simp only [be32, BitVec.toNat_ofNat]
  omega

/-- Settles O47: the fields are their bytes' numbers, and the bytes of a number assemble to it. -/
theorem bigEndianFieldsRoundTrip : Obligations.BigEndianFieldsRoundTrip := by
  refine ⟨fun _ _ => rfl, fun _ _ _ _ => rfl, fun v hv => ⟨_, _, rfl, be16_be16Bytes hv, ?_⟩,
    fun v hv => ⟨_, _, _, _, rfl, be32_be32Bytes hv, ?_, ?_, ?_⟩⟩ <;> rw [BitVec.toNat_ofNat]
  · exact Nat.mod_eq_of_lt (by omega)
  · omega
  · exact Nat.mod_mod _ _
  · exact Nat.mod_mod _ _

end Sys2Proof.Machine
end

section
/-! The engine's turn (R75, R79): the completion of the command in CMD, NOP and the illegal OPCODEs among them; what a
success completion writes (R76); and the end of every running command (R131). -/

namespace Sys2Proof.Machine

/-! The end of a running command (R75, R131) -/

theorem step_of_run {s t : State} {n : Nat} (h : Host.Core.run core (n + 1) s = .next t) :
    ∃ u, step s = .next u ∧ Host.Core.run core n u = .next t := by
  cases hstep : step s with
  | next u => exact ⟨u, rfl, run_of_step hstep ▸ h⟩
  | fault r => simp [Host.Core.run, show core.step s = .fault r from hstep] at h
  | refused r => simp [Host.Core.run, show core.step s = .refused r from hstep] at h

/-- No command is running while `rst` holds the block in its reset state (R122). -/
theorem StateInv.idle_of_rst {s : State} (h : StateInv s) (hr : s.rst = true) : s.busy = false :=
  congrArg State.busy (h.held hr)

/-- After the engine's turn no command is running: it completes one, or there was none to complete (R75, R122). -/
theorem StateInv.idle_of_engineTurn {s t : State} (h : StateInv s) (ht : Machine.engineTurn s = .next t) :
    t.busy = false := by
  rcases engineTurn_cases s with ⟨-, -, c, r, hturn, -⟩ | ⟨hnone, hturn⟩ <;> rw [hturn] at ht <;> cases ht
  · exact complete_busy c r s
  · exact hnone.elim id h.idle_of_rst

/-- Settles O32, by induction on the inbox: each step takes its first entry and keeps the state sound, and with no entry
left the step is the engine's turn. -/
theorem runningCommandEndsInFiniteTime : Obligations.RunningCommandEndsInFiniteTime := by
  intro s t hinv hrun
  induction hinbox : s.inbox generalizing s with
  | nil =>
    rw [hinbox] at hrun
    obtain ⟨u, hstep, hstop⟩ := step_of_run hrun
    cases hstop
    exact ⟨hinv.idle_of_engineTurn (step_nil hinbox ▸ hstep), by rw [step_inbox hstep, hinbox, List.tail_nil]⟩
  | cons e es ih =>
    rw [hinbox] at hrun
    obtain ⟨u, hstep, hrest⟩ := step_of_run hrun
    have hu : u.inbox = es := by rw [step_inbox hstep, hinbox, List.tail_cons]
    exact ih u (stepKeepsStateSound s u hinv hstep) (hu ▸ hrest) hu

/-! Success completions (R76) -/

theorem successCompletion_flagsDone (u : Updates) (s : State) : flagsDone s (successCompletion u s) :=
  ⟨rfl, rfl, rfl, rfl⟩

/-- A success completion leaves the result registers 0 unless the command writes DST (R76). -/
theorem successCompletion_resultsZero {i : Instr} {s : State} {u : Updates} (hi : writesDst i = false)
    (h : ruleOf i s = .ok u) : resultsZero (successCompletion u s) := by
  rcases ruleOf_ok_stores h with ⟨-, -, hout, hpad, hhdr, hdata⟩ | ⟨hdst, -⟩
  · simp [resultsZero, hout, hpad, hhdr, hdata]
  · simp [hi] at hdst

/-- Settles O29: DONE tells the success completion from the error completion. -/
theorem successCompletionEffect : Obligations.SuccessCompletionEffect := by
  intro i s t hexec hdone
  rcases exec_cases hexec with ⟨u, hok, rfl⟩ | ⟨e, -, rfl⟩
  · refine ⟨successCompletion_flagsDone u s, exec_completionKeeps hexec, fun hne hnd => ?_⟩
    have hi : writesDst i = false :=
      Bool.eq_false_iff.2 (mt (writesDst_eq_true_iff i).1 (not_or.2 ⟨hne, hnd⟩))
    exact ⟨successCompletion_resultsZero hi hok, exec_dmemKept hi hexec⟩
  · simp at hdone

/-! The command in CMD (R74, R78, R79) -/

/-- Settles O25: the command of the word in CMD is the one the engine completes. -/
theorem stepRunsTheDecodedCommand : Obligations.StepRunsTheDecodedCommand := by
  intro s i hb hr hdec
  have hcmd : s.cmd = opcode i := by rwa [decode_eq_ok_iff, opcodeField_setWidth] at hdec
  exact ⟨fun hnil => (step_nil hnil).trans (engineTurn_of_running hb hr hcmd), fun _ => step_engineTurn hb hr hcmd⟩

/-- An OPCODE 0x06..0xFF in CMD selects no command (R64, R79). -/
theorem selected_of_illegal {s : State} (h : 6 ≤ s.cmd.toNat) : selected s = none := by
  obtain ⟨e, he⟩ := (decode_error_iff (commandWord s)).2 (by rwa [commandWord, opcodeField_setWidth])
  rw [selected, he]

/-- The engine's turn with an illegal OPCODE running is the ILLEGAL_COMMAND completion (R79). -/
theorem engineTurn_of_illegal {s : State} (hb : s.busy = true) (hr : s.rst = false) (h : 6 ≤ s.cmd.toNat) :
    engineTurn s = .next (errorCompletion false .illegalCommand s) := by
  rw [engineTurn, if_pos (by simp [hb, hr]), completeSelected, selected_of_illegal h]
  exact execIllegal_eq s

/-- Settles O27: the ILLEGAL_COMMAND completion, which keeps the builder state. -/
theorem illegalOpcodeCompletesWithError : Obligations.IllegalOpcodeCompletesWithError := fun _ hb hr hnil hop =>
  (step_nil hnil).trans (engineTurn_of_illegal hb hr hop)

/-- Settles O34: NOP's OPCODE, and the success completion of no updates. -/
theorem nopCommand : Obligations.NopCommand := by
  refine ⟨fun w => decode_eq_ok_iff, rfl, fun s => ?_⟩
  rw [exec_eq_complete, ruleOf, nopRule_eq, complete_ok]
  rfl

end Sys2Proof.Machine
end

section
/-! Writes of CTRL and STATUS, busy or idle (R74, R80-R82), and the writes a busy block ignores (R77). -/

namespace Sys2Proof.Machine

/-- While BUSY, CMD and the configuration registers ignore a write (R77). -/
theorem writeReg_busy {s : State} {r : Reg} (hb : s.busy = true)
    (h : r ∈ [Reg.cmd, .srcAddr, .srcLen, .dstAddr, .dstCap]) (v : Word) : writeReg r v s = s := by
  cases r with
  | cmd | srcAddr | srcLen | dstAddr | dstCap => simp [writeReg, hb]
  | _ => simp at h

/-- Settles O13: the five registers by their offsets, and CTRL and STATUS by theirs. -/
theorem busyConfigurationWritesAreIgnored : Obligations.BusyConfigurationWritesAreIgnored := by
  intro s v hb hr
  refine ⟨?_, hostRegWrite_reg hr .ctrl v, hostRegWrite_reg hr .status v⟩
  have hall : ∀ off ∈ [Reg.cmd, .srcAddr, .srcLen, .dstAddr, .dstCap].map regOffset,
      hostRegWrite (s.cfg.baseAddr + off) 32 v s = .next { s with reply := .writeOk } :=
    List.forall_mem_map.2 fun r hmem => by rw [hostRegWrite_reg hr, writeReg_busy hb hmem]
  exact hall

/-! CTRL (R74, R80, R82) -/

theorem writeCtrl_of_reset {v : Word} (h1 : v.getLsbD 1 = true) (s : State) : writeCtrl v s = resetBlock s := by
  rw [writeCtrl, if_pos h1]

/-- Without SOFT_RESET, bit 2 sets IRQ_EN and bit 0 is START (R74, R82). -/
theorem writeCtrl_of_no_reset {v : Word} (h1 : v.getLsbD 1 = false) (s : State) :
    writeCtrl v s =
      if v.getLsbD 0 then start { s with irqEn := v.getLsbD 2 } else { s with irqEn := v.getLsbD 2 } := by
  rw [writeCtrl, if_neg (Bool.eq_false_iff.1 h1)]

theorem start_of_busy {s : State} (hb : s.busy = true) : start s = s := by rw [start, if_pos hb]

theorem start_of_idle {s : State} (hb : s.busy = false) : start s = acceptStart s := by
  rw [start, if_neg (Bool.eq_false_iff.1 hb)]

/-- Settles O15: no START, a START while BUSY, and a START of an idle block. -/
theorem ctrlWriteStartsAndSetsIrqEn : Obligations.CtrlWriteStartsAndSetsIrqEn := by
  intro s v hr h1
  have hwrite := hostRegWrite_reg hr .ctrl v
  rw [writeReg, writeCtrl_of_no_reset h1] at hwrite
  refine ⟨fun h0 => hwrite.trans ?_, fun h0 hb => hwrite.trans ?_, fun h0 hb => hwrite.trans ?_⟩
  · rw [if_neg (Bool.eq_false_iff.1 h0)]
  · rw [if_pos h0, start_of_busy (s := { s with irqEn := v.getLsbD 2 }) hb]
  · rw [if_pos h0, start_of_idle (s := { s with irqEn := v.getLsbD 2 }) hb]
    rfl

/-- Settles O20: the write is `resetBlock`, whatever bits 0 and 2 are. -/
theorem softResetResetsTheBlock : Obligations.SoftResetResetsTheBlock := by
  intro s v hr h1
  have hwrite := hostRegWrite_reg hr .ctrl v
  rw [writeReg, writeCtrl_of_reset h1] at hwrite
  exact ⟨hwrite, resetBlock_irqEn s, resetBlock_busy s, atReset_resetBlock s⟩

/-! STATUS (R81) -/

/-- The two write-1-to-clear bits of STATUS (R81). -/
theorem writeStatus_eq (v : Word) (s : State) :
    writeStatus v s =
      { s with
        done := s.done && !v.getLsbD 1
        err := s.err && !v.getLsbD 2
        errCode := if v.getLsbD 2 then 0 else s.errCode } := by
  unfold writeStatus
  cases v.getLsbD 1 <;> cases v.getLsbD 2 <;> simp [clearDone, clearErr]

/-- A legal STATUS of a busy block has nothing for a write to clear (R23, R81). -/
theorem writeStatus_of_busy {s : State} (hb : s.busy = true) (hlegal : statusLegal s = true) (v : Word) :
    writeStatus v s = s := by
  obtain ⟨hflags, -, hcode, -⟩ := (statusLegal_iff s).1 hlegal
  obtain ⟨hdone, herr⟩ := hflags hb
  have hzero : s.errCode = 0 := by simpa [herr] using hcode
  have hdoneKept : (s.done && !v.getLsbD 1) = s.done := by rw [hdone, Bool.false_and]
  have herrKept : (s.err && !v.getLsbD 2) = s.err := by rw [herr, Bool.false_and]
  have hcodeKept : (if v.getLsbD 2 then 0 else s.errCode) = s.errCode := by rw [hzero, ite_self]
  rw [writeStatus_eq, hdoneKept, herrKept, hcodeKept]

/-- Settles O16: the write as an update of the flags, which `irq` follows, and of no flag while BUSY. -/
theorem statusWriteClearsDoneAndErr : Obligations.StatusWriteClearsDoneAndErr := by
  intro s v hr
  have hwrite := hostRegWrite_reg hr .status v
  rw [writeReg] at hwrite
  refine ⟨⟨_, hwrite, by rw [writeStatus_eq], by rw [writeStatus_eq]; rfl⟩, fun hb hlegal => ?_⟩
  rwa [writeStatus_of_busy hb hlegal] at hwrite

end Sys2Proof.Machine
end

section
/-! Symbol tables by their symbols (R32, R36): the present symbols, their number, the longest code. -/

namespace Sys2Proof.Machine

/-- A table's pairs, their symbols left out, are its list. -/
theorem pairs_map_snd {α : Type} (t : Table α) : t.pairs.map Prod.snd = t.toList :=
  List.map_snd_zip (by simp)

/-- The present symbols with their counts, over the symbols in ascending order (R85, R95). -/
theorem presentCounts_eq_map (f : Table Nat) :
    presentCounts f = (allSymbols.filter fun x => 0 < f.entry x).map fun x => (x, f.entry x) := by
  rw [presentCounts, Table.pairs_eq_map, List.filter_map]
  rfl

theorem distinctSymbols_eq_length (f : Table Nat) :
    distinctSymbols f = (allSymbols.filter fun x => 0 < f.entry x).length := by
  rw [distinctSymbols, presentCounts_eq_map, List.length_map]

/-- The number of present symbols fits NSYM (R32). -/
theorem nsym_toNat (f : Table Nat) :
    (BitVec.ofNat 9 (distinctSymbols f)).toNat = (allSymbols.filter fun x => 0 < f.entry x).length := by
  have hle := distinctSymbols_le f
  rw [← distinctSymbols_eq_length, BitVec.toNat_ofNat]
  exact Nat.mod_eq_of_lt (by omega)

/-- No code is longer than the longest (R90). -/
theorem entry_length_le_maxCodeLength (c : Table BitString) (x : Byte) : (c.entry x).length ≤ maxCodeLength c := by
  refine List.le_max_of_le (a := (c.entry x).length) ?_ le_rfl
  rw [Table.toList_eq_map, List.map_map]
  exact List.mem_map_of_mem (mem_allSymbols x)

/-- Some code is as long as the longest (R90): there are 256 to choose from. -/
theorem exists_entry_length_eq_maxCodeLength (c : Table BitString) : ∃ x, (c.entry x).length = maxCodeLength c := by
  obtain ⟨x, hx⟩ := Finite.exists_max fun x => (c.entry x).length
  exact ⟨x, le_antisymm (entry_length_le_maxCodeLength c x) (maxCodeLength_le hx)⟩

end Sys2Proof.Machine
end

section
/-! COUNT, BUILD and DERIVE (R84, R86, R90): each rule's answer on each side of its check, and the completion; and what
`load_builder` gives the codec (R92). -/

namespace Sys2Proof.Machine

theorem countRule_of_srcOk {s : State} (h : srcOk s = true) :
    countRule s = .ok (builderUpdate s
      { s.builder.clearTree.clearCodes with
        freq := freqWord (countBytes (srcBytes s))
        nsym := BitVec.ofNat 9 (distinctSymbols (countBytes (srcBytes s)))
        total := s.srcLen }) := if_pos h

theorem buildRule_of_nsym_ne_zero {s : State} (h : s.builder.nsym ≠ 0) :
    buildRule s = .ok (builderUpdate s (s.builder.withTree (buildTree (freqNat s.builder.freq))).clearCodes) :=
  if_neg h

theorem buildRule_of_nsym_zero {s : State} (h : s.builder.nsym = 0) : buildRule s = .error .emptyInput := if_pos h

theorem deriveRule_of_tree {s : State} (h : s.builder.treeValid = true) :
    deriveRule s =
      .ok (builderUpdate s (s.builder.withCodes (deriveCodes s.builder.nodes s.builder.root.toNat))) := if_pos h

theorem deriveRule_of_no_tree {s : State} (h : s.builder.treeValid = false) : deriveRule s = .error .sequence :=
  if_neg (Bool.eq_false_iff.1 h)

theorem exec_of_ok {i : Instr} {s : State} {u : Updates} (h : ruleOf i s = .ok u) :
    exec i s = .next (successCompletion u s) := by rw [exec_eq_complete, h, complete_ok]

/-- The frame of a success completion of a command that does not write DST (R76). -/
theorem exec_ok_frame {i : Instr} {s : State} {u : Updates} (hi : writesDst i = false) (h : ruleOf i s = .ok u) :
    flagsDone s (successCompletion u s) ∧ resultsZero (successCompletion u s) ∧ dmemKept s (successCompletion u s) ∧
      completionKeeps s (successCompletion u s) :=
  ⟨successCompletion_flagsDone u s, successCompletion_resultsZero hi h, exec_dmemKept hi (exec_of_ok h),
    exec_completionKeeps (exec_of_ok h)⟩

/-- An error of a command that does not write DST keeps the builder state (R107). -/
theorem exec_failedKeepingBuilder {i : Instr} {s : State} {e : CmdError} (hi : writesDst i = false)
    (h : ruleOf i s = .error e) : ∃ t, exec i s = .next t ∧ failedKeepingBuilder e.code s t := by
  have hexec := exec_of_error h
  exact ⟨_, hexec, errorCompletion_flagsError _ e s, ⟨rfl, rfl, rfl, rfl⟩, by simp [hi], exec_dmemKept hi hexec,
    exec_completionKeeps hexec⟩

/-- A count of the SRC bytes is at most SRC_LEN, so it fits FREQ (R84). -/
theorem freqWord_countBytes_toNat (s : State) (x : Byte) :
    ((freqWord (countBytes (srcBytes s))).entry x).toNat = (countBytes (srcBytes s)).entry x := by
  have hcount : (srcBytes s).count x ≤ s.srcLen.toNat := by
    simpa [srcBytes] using List.count_le_length (a := x) (l := srcBytes s)
  rw [freqWord_entry, countBytes_entry, BitVec.toNat_ofNat]
  exact Nat.mod_eq_of_lt (by omega)

/-- "The sum of the counts equals the input length" (R84). -/
theorem sum_freqWord_countBytes (s : State) :
    (allSymbols.map fun x => ((freqWord (countBytes (srcBytes s))).entry x).toNat).sum = s.srcLen.toNat := by
  simp only [freqWord_countBytes_toNat]
  rw [← totalCount_eq_sum, totalCount_countBytes, srcBytes, memRead_length]

/-- ROOT and the arena's length fit their fields for every table (R34, R35), the empty one too (log entry 12). -/
theorem buildTree_fits_fields (f : Table Nat) : (buildTree f).1.length < 1024 ∧ (buildTree f).2 < 512 := by
  rcases Nat.eq_zero_or_pos (distinctSymbols f) with hnone | hpos
  · have hnil : presentCounts f = [] := List.length_eq_zero_iff.1 hnone
    have htree : buildTree f = ([], noNode) := by simp [buildTree, leafNodes, leafEntries, hnone, hnil, mergeLoop]
    rw [htree]
    decide
  · have := buildTree_fits hpos
    omega

/-- MAXLEN bounds the code lengths (R36, R38). -/
theorem BuilderInv.length_le_maxlen {b : Builder} (h : BuilderInv b) (hv : b.codesValid = true) (x : Byte) :
    (b.codes.entry x).length ≤ b.maxlen.toNat := by
  obtain ⟨-, -, hmax⟩ := h.codes hv
  exact hmax ▸ entry_length_le_maxCodeLength b.codes x

/-- Some code has MAXLEN bits (R36, R38). -/
theorem BuilderInv.exists_length_eq_maxlen {b : Builder} (h : BuilderInv b) (hv : b.codesValid = true) :
    ∃ x, (b.codes.entry x).length = b.maxlen.toNat := by
  obtain ⟨-, -, hmax⟩ := h.codes hv
  exact hmax ▸ exists_entry_length_eq_maxCodeLength b.codes

/-- Settles O35: the success completion of the counts, and RANGE where the SRC range leaves DMEM. -/
theorem countCommand : Obligations.CountCommand := by
  refine ⟨fun w => decode_eq_ok_iff, fun s hsrc => ?_, fun s hsrc => ?_⟩
  · have hrule : ruleOf .count s = _ := countRule_of_srcOk (decide_eq_true hsrc)
    have hpresent : ∀ x, (freqWord (countBytes (srcBytes s))).entry x ≠ 0 ↔ 0 < (countBytes (srcBytes s)).entry x :=
      fun x => by
        rw [← freqWord_countBytes_toNat, ← BitVec.toNat_ne_iff_ne, Nat.pos_iff_ne_zero]
        rfl
    refine ⟨_, exec_of_ok hrule, fun x => (freqWord_countBytes_toNat s x).trans (countBytes_entry _ x), ?_, rfl,
      (sum_freqWord_countBytes s).symm, rfl, rfl, rfl, rfl, noCodes_entry, rfl, rfl,
      exec_ok_frame rfl hrule⟩
    simp only [successCompletion_builder, builderUpdate_builder, nsym_toNat, hpresent]
  · exact exec_failedKeepingBuilder rfl (ruleOf_of_rangeOk_false (i := .count) (decide_eq_false (Nat.not_le.2 hsrc)))

/-- Settles O36: the success completion with the tree of FREQ, whose ROOT and length fit their fields, and
EMPTY_INPUT. -/
theorem buildCommand : Obligations.BuildCommand := by
  refine ⟨fun w => decode_eq_ok_iff, fun s hn => ?_, fun s hn => ?_⟩
  · have hrule : ruleOf .build s = _ := buildRule_of_nsym_ne_zero hn
    obtain ⟨hlen, hroot⟩ := buildTree_fits_fields (freqNat s.builder.freq)
    refine ⟨_, exec_of_ok hrule, ?_, ?_, rfl, noCodes_entry, rfl, rfl, rfl, rfl, rfl, exec_ok_frame rfl hrule⟩
    · simp [Nat.mod_eq_of_lt hroot]
    · simp [Nat.mod_eq_of_lt hlen]
  · exact exec_failedKeepingBuilder (i := .build) rfl (buildRule_of_nsym_zero hn)

/-- Settles O37: the success completion with the codes of the tree, whose longest length fits MAXLEN in a builder state
with the invariants of R38, and SEQUENCE. -/
theorem deriveCommand : Obligations.DeriveCommand := by
  refine ⟨fun w => decode_eq_ok_iff, fun s hinv htree => ?_, fun s htree => ?_⟩
  · have hrule : ruleOf .derive s = _ := deriveRule_of_tree htree
    have hderived := hinv.derived htree
    exact ⟨_, exec_of_ok hrule, rfl, hderived.length_le_maxlen rfl, hderived.exists_length_eq_maxlen rfl, rfl,
      exec_ok_frame rfl hrule⟩
  · exact exec_failedKeepingBuilder (i := .derive) rfl (deriveRule_of_no_tree htree)

/-- A codec command's completion does not depend on the builder state before it (R92): its rule reads none of it, and
the completion replaces it. -/
theorem complete_clears_builder (r : CmdResult) (s : State) (b : Builder) :
    complete true r { s with builder := b } = complete true r s := by
  cases r <;> rfl

/-- Settles O44: the codec's rules read no builder state, and `load_builder` meets the invariants of R38. -/
theorem codecIgnoresPreviousBuilderState : Obligations.CodecIgnoresPreviousBuilderState := by
  refine ⟨fun s b => ⟨?_, ?_⟩, ?_⟩
  · exact congrArg Host.Outcome.next (complete_clears_builder (encodeRule s) s b)
  · exact congrArg Host.Outcome.next (complete_clears_builder (decodeRule s) s b)
  · rintro f b rfl hpos htotal
    have hfit : totalCount f < 2 ^ 32 := by omega
    have hinv := builderInv_loadBuilder hfit hpos
    have hfreq : freqNat (loadBuilder f).freq = f := freqNat_freqWord hfit
    obtain ⟨-, htree⟩ := hinv.tree rfl
    obtain ⟨-, hcodes, -⟩ := hinv.codes rfl
    refine ⟨fun x => ?_, nsym_toNat f, ?_, by rw [htree, hfreq], hinv.nnodes, rfl, hcodes, hinv.length_le_maxlen rfl,
      hinv.exists_length_eq_maxlen rfl, rfl⟩
    · rw [← freqNat_entry, hfreq]
    · rw [hinv.total, hfreq, totalCount_eq_sum]

end Sys2Proof.Machine
end

section
/-! The merge loop of R85: what it selects, and one turn of it. -/

namespace Sys2Proof.Machine

/-- The comparator of R85. -/
theorem Entry.before_iff (e f : Entry) :
    e.before f = true ↔ e.weight < f.weight ∨ (e.weight = f.weight ∧ e.index < f.index) := by
  simp [Entry.before]

theorem Entry.not_before_iff (e f : Entry) :
    e.before f = false ↔ f.weight < e.weight ∨ (e.weight = f.weight ∧ f.index ≤ e.index) := by
  rw [← Bool.not_eq_true, before_iff]
  omega

/-- "The comparator is a total order" (R85): being no earlier is transitive, and an earlier element is
not a later one. -/
theorem Entry.not_before_trans {e f g : Entry} (hef : e.before f = false) (hfg : f.before g = false) :
    e.before g = false := by
  rw [not_before_iff] at *
  omega

theorem Entry.before_asymm {e f : Entry} (h : e.before f = true) : f.before e = false := by
  rw [before_iff] at h
  rw [not_before_iff]
  omega

/-- Elements with different indices are one before the other (R85). -/
theorem Entry.before_of_not_before {e f : Entry} (h : f.before e = false) (hne : e.index ≠ f.index) :
    e.before f = true := by
  rw [not_before_iff] at h
  rw [before_iff]
  omega

/-- No element is before the one extracted (R85). -/
theorem extractMin_least (e : Entry) (es : List Entry) : ∀ f ∈ e :: es, f.before (extractMin e es).1 = false := by
  induction es generalizing e with
  | nil =>
    rw [List.forall_mem_singleton, Entry.not_before_iff]
    exact .inr ⟨rfl, le_rfl⟩
  | cons g gs ih =>
    simp only [extractMin, List.forall_mem_cons]
    split
    · rename_i hge
      obtain ⟨hg, hgs⟩ := List.forall_mem_cons.1 (ih g)
      exact ⟨Entry.not_before_trans (Entry.before_asymm hge) hg, hg, hgs⟩
    · rename_i hge
      obtain ⟨he, hgs⟩ := List.forall_mem_cons.1 (ih e)
      exact ⟨he, Entry.not_before_trans (Bool.eq_false_iff.2 hge) he, hgs⟩

/-- No element that is left is before the one extracted (R85). -/
theorem extractMin_least_of_others (e : Entry) (es : List Entry) :
    ∀ f ∈ (extractMin e es).2, f.before (extractMin e es).1 = false := fun f hf =>
  extractMin_least e es f ((extractMin_perm e es).mem_iff.1 (List.mem_cons_of_mem _ hf))

/-- Where the indices are distinct, an element that no other is before is before every other (R85). -/
theorem before_others {a : Entry} {others : List Entry} (hleast : ∀ x ∈ others, x.before a = false)
    (hn : ((a :: others).map Entry.index).Nodup) : ∀ x ∈ others, a.before x = true := fun x hx =>
  Entry.before_of_not_before (hleast x hx) fun heq =>
    (List.nodup_cons.1 hn).1 (heq ▸ List.mem_map_of_mem hx)

/-- A turn of the loop: the least element a, the least b of the others, and their merge (R85). -/
theorem mergeLoop_turn (fuel : Nat) (nodes : List Node) (e f : Entry) (rest : List Entry) :
    ∃ (a b : Entry) (others : List Entry),
      (a :: b :: others).Perm (e :: f :: rest) ∧
      (∀ x ∈ b :: others, x.before a = false) ∧ (∀ x ∈ others, x.before b = false) ∧
      mergeLoop (fuel + 1) nodes (e :: f :: rest) =
        mergeLoop fuel (nodes ++ [internalNode (a.weight + b.weight) a.index b.index])
          (others ++ [⟨a.weight + b.weight, nodes.length⟩]) := by
  have hlen := extractMin_length e (f :: rest)
  have hperm := extractMin_perm e (f :: rest)
  have hleast := extractMin_least_of_others e (f :: rest)
  cases hothers : (extractMin e (f :: rest)).2 with
  | nil => simp [hothers] at hlen
  | cons g gs =>
    rw [hothers] at hperm hleast
    have hperm' := extractMin_perm g gs
    refine ⟨_, _, _, (hperm'.cons _).trans hperm, fun x hx => hleast x (hperm'.mem_iff.1 hx),
      extractMin_least_of_others g gs, ?_⟩
    rw [mergeLoop, hothers]

/-- Settles O38: the selection, the comparator, a turn of the loop, its end and its start. -/
theorem mergeSelectsTheLeast : Obligations.MergeSelectsTheLeast := by
  refine ⟨fun e es => ⟨extractMin_perm e es, extractMin_least_of_others e es, fun hn => ?_⟩, Entry.before_iff,
    fun fuel nodes e f rest => ?_, fun fuel nodes e => ?_, fun f => ⟨_, rfl, ?_⟩⟩
  · exact before_others (extractMin_least_of_others e es) (((extractMin_perm e es).map _).nodup_iff.2 hn)
  · obtain ⟨a, b, others, hperm, hleastA, hleastB, hturn⟩ := mergeLoop_turn fuel nodes e f rest
    refine ⟨a, b, others, hperm, hleastA, hleastB, fun hn => ?_, hturn⟩
    have hnA := (hperm.map Entry.index).nodup_iff.2 hn
    exact ⟨before_others hleastA hnA, before_others hleastB (List.nodup_cons.1 hnA).2⟩
  · cases fuel <;> rfl
  · rw [buildTree, leafNodes, leafEntries, distinctSymbols_eq_length, presentCounts_eq_map, List.map_map,
      List.zipIdx_map, List.map_map]
    rfl

end Sys2Proof.Machine
end

section
/-! The arena of `build(F)`: its shape and its weights (R87), as what the loop of R85 keeps. -/

namespace Sys2Proof.Machine

/-! What a merge appends -/

theorem internalNode_left {w a b : Nat} (h : a < 512) : (internalNode w a b).left.toNat = a := by
  simpa [internalNode] using h

theorem internalNode_right {w a b : Nat} (h : b < 512) : (internalNode w a b).right.toNat = b := by
  simpa [internalNode] using h

theorem childIndices_append_internalNode {nodes : List Node} {w a b : Nat} (ha : a < 512) (hb : b < 512) :
    childIndices (nodes ++ [internalNode w a b]) = childIndices nodes ++ [a, b] := by
  have hleaf : (internalNode w a b).isLeaf = false := rfl
  simp [childIndices, List.flatMap_append, hleaf, internalNode_left ha, internalNode_right hb]

theorem childIndices_leafNodes (f : Table Nat) : childIndices (leafNodes f) = [] := by
  simp [childIndices, leafNodes, leafNode]

@[simp] theorem leafNodes_length (f : Table Nat) : (leafNodes f).length = distinctSymbols f := by
  simp [leafNodes, distinctSymbols]

@[simp] theorem leafEntries_length (f : Table Nat) : (leafEntries f).length = distinctSymbols f := by
  simp [leafEntries, distinctSymbols]

theorem leafEntries_ne_nil {f : Table Nat} (hf : 1 ≤ distinctSymbols f) : leafEntries f ≠ [] :=
  List.ne_nil_of_length_pos (by rwa [leafEntries_length])

theorem leafEntries_index (f : Table Nat) : (leafEntries f).map Entry.index = List.range (distinctSymbols f) := by
  refine List.ext_getElem (by simp) fun i hi _ => ?_
  simp [leafEntries]

/-- The waiting leaves' weights are the counts that are not 0 (R85). -/
theorem leafEntries_weight_sum (f : Table Nat) : ((leafEntries f).map Entry.weight).sum = totalCount f := by
  have hweights : (leafEntries f).map Entry.weight = f.toList.filter (· != 0) := by
    rw [leafEntries, List.map_map, ← pairs_map_snd f, List.filter_map]
    calc (presentCounts f).zipIdx.map (Entry.weight ∘ fun p => ⟨p.1.2, p.2⟩)
        = ((presentCounts f).zipIdx.map Prod.fst).map Prod.snd := by rw [List.map_map]; rfl
      _ = (f.pairs.filter ((· != 0) ∘ Prod.snd)).map Prod.snd := by
        rw [List.zipIdx_map_fst, presentCounts]
        exact congrArg _ (List.filter_congr fun e _ => Bool.eq_iff_iff.2 (by simp [Nat.pos_iff_ne_zero]))
  rw [hweights, List.sum_filter_bne_zero, totalCount]

/-! The shape (R87 items 1, 2 and 6) -/

/-- An internal node at index `i`, its children below it (R85, R87 item 2). -/
def InternalAt (i : Nat) (n : Node) : Prop :=
  n.isLeaf = false ∧ n.symbol = 0 ∧ n.left.toNat < i ∧ n.right.toNat < i

/-- The arena and the priority structure in the loop of R85. -/
structure MergeShape (f : Table Nat) (nodes : List Node) (p : List Entry) : Prop where
  /-- Each merge makes the arena one longer and the priority structure one smaller. -/
  room : nodes.length + p.length = 2 * distinctSymbols f
  few : p.length ≤ distinctSymbols f
  /-- The leaves stand first, in ascending symbol value. -/
  leaves : nodes.take (distinctSymbols f) = leafNodes f
  internal : ∀ i n, distinctSymbols f ≤ i → nodes[i]? = some n → InternalAt i n
  /-- Every node is a child, or waits in the priority structure to become one; and it is so once. -/
  children : (childIndices nodes ++ p.map Entry.index).Perm (List.range nodes.length)
  /-- The node created last waits to become a child. -/
  newest : ∃ e ∈ p, e.index + 1 = nodes.length

theorem MergeShape.index_lt {f : Table Nat} {nodes : List Node} {p : List Entry} (h : MergeShape f nodes p) {e : Entry}
    (he : e ∈ p) : e.index < nodes.length :=
  List.mem_range.1 (h.children.mem_iff.1 (List.mem_append_right _ (List.mem_map_of_mem he)))

theorem MergeShape.start {f : Table Nat} (hf : 1 ≤ distinctSymbols f) :
    MergeShape f (leafNodes f) (leafEntries f) where
  room := by simp; omega
  few := by simp
  leaves := by simp
  internal := fun i n hi hn => by
    rw [List.getElem?_eq_none (by simpa using hi)] at hn
    cases hn
  children := by simp [childIndices_leafNodes, leafEntries_index]
  newest := by
    have hlast : distinctSymbols f - 1 ∈ (leafEntries f).map Entry.index := by
      rw [leafEntries_index, List.mem_range]
      omega
    obtain ⟨e, he, hi⟩ := List.mem_map.1 hlast
    exact ⟨e, he, by rw [leafNodes_length]; omega⟩

/-- While two elements wait, their indices fit the fields of a node (R38). -/
theorem MergeShape.index_fits {f : Table Nat} {nodes : List Node} {p : List Entry} (h : MergeShape f nodes p)
    {e : Entry} (he : e ∈ p) : e.index < 512 := by
  have hlt := h.index_lt he
  have hroom := h.room
  have hpos := List.length_pos_of_mem he
  have hle := distinctSymbols_le f
  omega

theorem MergeShape.merge {f : Table Nat} {nodes : List Node} {p : List Entry} {a b : Entry} {rest : List Entry}
    (h : MergeShape f nodes p) (hp : (a :: b :: rest).Perm p) :
    MergeShape f (nodes ++ [internalNode (a.weight + b.weight) a.index b.index])
      (rest ++ [⟨a.weight + b.weight, nodes.length⟩]) := by
  have hlen := hp.length_eq
  have hroom := h.room
  have hfew := h.few
  have ha : a ∈ p := hp.mem_iff.1 (by simp)
  have hb : b ∈ p := hp.mem_iff.1 (by simp)
  simp only [List.length_cons] at hlen
  exact {
    room := by simp only [List.length_append, List.length_singleton]; omega
    few := by simp only [List.length_append, List.length_singleton]; omega
    leaves := by rw [List.take_append_of_le_length (by omega), h.leaves]
    internal := fun i n hi hn => by
      rcases Nat.lt_trichotomy i nodes.length with hlt | rfl | hgt
      · exact h.internal i n hi (by rwa [List.getElem?_append_left hlt] at hn)
      · obtain rfl : internalNode (a.weight + b.weight) a.index b.index = n := by simpa using hn
        refine ⟨rfl, rfl, ?_, ?_⟩
        · rw [internalNode_left (h.index_fits ha)]
          exact h.index_lt ha
        · rw [internalNode_right (h.index_fits hb)]
          exact h.index_lt hb
      · rw [List.getElem?_eq_none (by simpa using hgt)] at hn
        cases hn
    children := by
      have hwait :
          (childIndices nodes ++ [a.index, b.index] ++ rest.map Entry.index).Perm (List.range nodes.length) := by
        rw [List.append_assoc]
        exact ((hp.map Entry.index).append_left _).trans h.children
      rw [childIndices_append_internalNode (h.index_fits ha) (h.index_fits hb), List.map_append, ← List.append_assoc,
        List.length_append, List.length_singleton, List.range_succ]
      exact hwait.append_right _
    newest := ⟨_, List.mem_append_right _ (List.mem_singleton_self _), by simp⟩ }

/-- The arena of `build(F)` when the loop has ended, ROOT alone in the priority structure (R85). -/
theorem buildTree_mergeShape {f : Table Nat} (hf : 1 ≤ distinctSymbols f) :
    ∃ e, MergeShape f (buildTree f).1 [e] ∧ (buildTree f).2 = e.index :=
  mergeLoop_induction (MergeShape f) (fun _ _ _ _ _ h hp => h.merge hp) _ _ _ (.start hf)
    (leafEntries_ne_nil hf) (leafEntries_length f).le.step

/-- Settles O39: the shape the loop keeps, with one element left. -/
theorem builtTreeShape : Obligations.BuiltTreeShape := by
  intro f hf
  obtain ⟨e, hshape, hroot⟩ := buildTree_mergeShape hf
  have hlen : (buildTree f).1.length = 2 * distinctSymbols f - 2 + 1 := by
    have hroom := hshape.room
    simp only [List.length_singleton] at hroom
    omega
  have hindex : e.index = 2 * distinctSymbols f - 2 := by
    obtain ⟨e', he', hnewest⟩ := hshape.newest
    obtain rfl := List.mem_singleton.1 he'
    omega
  have hchildren := hshape.children
  rw [hlen, List.range_succ, List.map_singleton, hindex] at hchildren
  exact ⟨by omega, hroot.trans hindex, hshape.leaves, hshape.internal, (List.perm_append_right_iff _).1 hchildren⟩

/-! The weights (R87 item 3) -/

/-- A longer arena has the same node at the same index. -/
theorem getElem?_append_of_some {nodes : List Node} {i : Nat} {n : Node} (h : nodes[i]? = some n) (more : List Node) :
    (nodes ++ more)[i]? = some n := by
  rw [List.getElem?_append_left (List.getElem?_eq_some_iff.1 h).1, h]

/-- A node's weight is the sum of its children's. -/
def WeighsSum (nodes : List Node) (n : Node) : Prop :=
  ∃ l r, nodes[n.left.toNat]? = some l ∧ nodes[n.right.toNat]? = some r ∧
    n.weight.toNat = l.weight.toNat + r.weight.toNat

/-- The weights in the loop of R85. -/
structure MergeWeights (f : Table Nat) (nodes : List Node) (p : List Entry) : Prop where
  total : (p.map Entry.weight).sum = totalCount f
  /-- An element of the priority structure has its node's weight. -/
  entries : ∀ e ∈ p, ∃ n, nodes[e.index]? = some n ∧ n.weight = BitVec.ofNat 32 e.weight
  internal : ∀ n ∈ nodes, n.isLeaf = false → WeighsSum nodes n

theorem WeighsSum.append {nodes : List Node} {n : Node} (h : WeighsSum nodes n) (more : List Node) :
    WeighsSum (nodes ++ more) n := by
  obtain ⟨l, r, hl, hr, hw⟩ := h
  exact ⟨l, r, getElem?_append_of_some hl more, getElem?_append_of_some hr more, hw⟩

theorem MergeWeights.start (f : Table Nat) : MergeWeights f (leafNodes f) (leafEntries f) where
  total := leafEntries_weight_sum f
  entries := List.forall_mem_map.2 fun p hp =>
    ⟨leafNode p.1.2 p.1.1, by simp [leafNodes, List.mem_zipIdx_iff_getElem?.1 hp], rfl⟩
  internal := fun n hn hleaf => by
    obtain ⟨e, -, rfl⟩ := List.mem_map.1 hn
    cases hleaf

/-- The waiting nodes' weights fit 32 bits, as their total does (R87 item 3). -/
theorem MergeWeights.merge {f : Table Nat} (hf : totalCount f ≤ 2 ^ 32 - 1) {nodes : List Node} {p : List Entry}
    {a b : Entry} {rest : List Entry} (hs : MergeShape f nodes p) (h : MergeWeights f nodes p)
    (hp : (a :: b :: rest).Perm p) :
    MergeWeights f (nodes ++ [internalNode (a.weight + b.weight) a.index b.index])
      (rest ++ [⟨a.weight + b.weight, nodes.length⟩]) := by
  have ha : a ∈ p := hp.mem_iff.1 (by simp)
  have hb : b ∈ p := hp.mem_iff.1 (by simp)
  have htotal : a.weight + (b.weight + (rest.map Entry.weight).sum) = totalCount f := by
    rw [← h.total, ← (hp.map Entry.weight).sum_eq]
    rfl
  obtain ⟨l, hl, hlw⟩ := h.entries a ha
  obtain ⟨r, hr, hrw⟩ := h.entries b hb
  have hsum : WeighsSum nodes (internalNode (a.weight + b.weight) a.index b.index) := by
    refine ⟨l, r, by rwa [internalNode_left (hs.index_fits ha)], by rwa [internalNode_right (hs.index_fits hb)], ?_⟩
    simp only [internalNode, hlw, hrw, BitVec.toNat_ofNat]
    omega
  exact {
    total := by
      simp only [List.map_append, List.sum_append, List.map_singleton, List.sum_singleton]
      omega
    entries := fun e he => by
      rcases List.mem_append.1 he with he | he
      · obtain ⟨n, hn, hw⟩ := h.entries e (hp.mem_iff.1 (by simp [he]))
        exact ⟨n, getElem?_append_of_some hn _, hw⟩
      · obtain rfl := List.mem_singleton.1 he
        exact ⟨internalNode (a.weight + b.weight) a.index b.index, by simp, rfl⟩
    internal := fun n hn hleaf => by
      rcases List.mem_append.1 hn with hn | hn
      · exact (h.internal n hn hleaf).append _
      · obtain rfl := List.mem_singleton.1 hn
        exact hsum.append _ }

/-- Settles O40: the weights the loop keeps beside the shape, with ROOT alone in the priority structure. -/
theorem builtTreeWeights : Obligations.BuiltTreeWeights := by
  intro f hf htotal
  obtain ⟨e, ⟨-, hweights⟩, hroot⟩ :=
    mergeLoop_induction (fun nodes p => MergeShape f nodes p ∧ MergeWeights f nodes p)
      (fun _ _ _ _ _ ⟨hs, hw⟩ hp => ⟨hs.merge hp, hw.merge htotal hs hp⟩) _ _ _ ⟨.start hf, .start f⟩
      (leafEntries_ne_nil hf) (leafEntries_length f).le.step
  obtain ⟨n, hn, hw⟩ := hweights.entries e (List.mem_singleton_self e)
  refine ⟨hweights.internal, n, by rwa [← hroot] at hn, ?_⟩
  have he : e.weight = totalCount f := by simpa using hweights.total
  rw [hw, he, BitVec.toNat_ofNat]
  exact Nat.mod_eq_of_lt (by omega)

end Sys2Proof.Machine
end

section
/-! The derived codes (R88-R91). -/

namespace Sys2Proof.Machine

/-! One symbol (R89) -/

section
variable {f : Table Nat} {x : Byte} (hx : 0 < f.entry x) (hother : ∀ y, y ≠ x → f.entry y = 0)
include hx hother

/-- A table with one symbol lists that symbol (R89). -/
theorem presentCounts_eq_singleton : presentCounts f = [(x, f.entry x)] := by
  have hfilter : (allSymbols.filter fun y => 0 < f.entry y) = [x] := by
    refine List.perm_singleton.1 ((List.perm_ext_iff_of_nodup (allSymbols_nodup.filter _) (by simp)).2 fun y => ?_)
    by_cases hy : y = x <;> simp [hy, hx, hother]
  rw [presentCounts_eq_map, hfilter]
  rfl

/-- One leaf and no merge (R85). -/
theorem buildTree_single : buildTree f = ([leafNode (f.entry x) x], 0) := by
  have hcounts := presentCounts_eq_singleton hx hother
  rw [buildTree, distinctSymbols, leafNodes, leafEntries, hcounts]
  rfl

/-- The table of the one code "0" (R89). -/
theorem deriveCodes_single_entry (y : Byte) :
    (deriveCodes (buildTree f).1 (buildTree f).2).entry y = if x = y then [false] else [] := by
  rw [buildTree_single hx hother, deriveCodes, Table.entry_put, noCodes_entry]
  rfl

theorem maxCodeLength_single : maxCodeLength (deriveCodes (buildTree f).1 (buildTree f).2) = 1 := by
  apply Nat.le_antisymm
  · refine maxCodeLength_le fun y => ?_
    rw [deriveCodes_single_entry hx hother]
    split <;> simp
  · refine le_trans ?_ (entry_length_le_maxCodeLength _ x)
    simp [deriveCodes_single_entry hx hother]

end

/-- Settles O41: the leaf of the one symbol, and its code. -/
theorem singleSymbolGetsCodeZero : Obligations.SingleSymbolGetsCodeZero := by
  intro f x hx hother
  refine ⟨buildTree_single hx hother, ?_, fun y hy => ?_, maxCodeLength_single hx hother⟩
  · rw [deriveCodes_single_entry hx hother, if_pos rfl]
  · rw [deriveCodes_single_entry hx hother, if_neg hy.symm]

/-- A table with one present symbol has no other (R89). -/
theorem exists_single_symbol {f : Table Nat} (hf : distinctSymbols f = 1) :
    ∃ x, 0 < f.entry x ∧ ∀ y, y ≠ x → f.entry y = 0 := by
  rw [distinctSymbols_eq_length] at hf
  obtain ⟨x, hx⟩ := List.length_eq_one_iff.1 hf
  have hmem : ∀ y, 0 < f.entry y ↔ y = x := fun y => by
    rw [← List.mem_singleton, ← hx]
    simp
  exact ⟨x, (hmem x).2 rfl, fun y hy => Nat.eq_zero_of_not_pos (mt (hmem y).1 hy)⟩

/-! Two symbols or more (R91): the codes are the paths in a full tree -/

theorem HTree.path_ne_nil {t : HTree} (h : 2 ≤ t.symbols.length) (s : Byte) : t.path s ≠ [] := by
  cases t with
  | leaf x => simp [symbols] at h
  | node l r =>
    rw [path]
    split <;> simp

/-- No path begins with another: that one ends at a leaf, past which no path leads (R91 item 2). -/
theorem HTree.eq_of_path_prefix {t : HTree} {x y : Byte} (hx : x ∈ t.symbols) (hy : y ∈ t.symbols)
    (h : t.path x <+: t.path y) : x = y := by
  obtain ⟨rest, hrest⟩ := h
  have hfollow : (HTree.leaf x).follow rest = some (.leaf y) := by
    have hpath := follow_path hy
    rwa [← hrest, follow_append, follow_path hx] at hpath
  cases rest with
  | nil => simpa using hfollow
  | cons b bs => simp [follow] at hfollow

/-- The tree of the derived codes: each present symbol's code is its path, and no other symbol has one (R88). -/
structure CodeTree (f : Table Nat) (c : Table BitString) (t : HTree) : Prop where
  nodup : t.symbols.Nodup
  size : t.symbols.length = distinctSymbols f
  present : ∀ x, x ∈ t.symbols ↔ 0 < f.entry x
  code : ∀ x, 0 < f.entry x → c.entry x = t.path x
  noCode : ∀ x, ¬ 0 < f.entry x → c.entry x = []

theorem exists_codeTree {f : Table Nat} (hf : 2 ≤ distinctSymbols f) :
    ∃ t, CodeTree f (deriveCodes (buildTree f).1 (buildTree f).2) t := by
  obtain ⟨t, -, hnodup, hsize, hpresent, hentry⟩ := deriveCodes_buildTree f hf
  exact ⟨t, hnodup, hsize, hpresent, fun x hx => by rw [hentry, if_pos hx], fun x hx => by rw [hentry, if_neg hx]⟩

section
variable {f : Table Nat} {c : Table BitString} {t : HTree}

/-- MAXLEN is the depth of the tree (R90). -/
theorem CodeTree.maxCodeLength_eq (h : CodeTree f c t) : maxCodeLength c = t.depth := by
  apply Nat.le_antisymm
  · refine maxCodeLength_le fun x => ?_
    by_cases hx : 0 < f.entry x
    · exact h.code x hx ▸ t.path_length_le x
    · simp [h.noCode x hx]
  · obtain ⟨x, hx, hdepth⟩ := t.exists_path_length h.nodup
    rw [← hdepth, ← h.code x ((h.present x).1 hx)]
    exact entry_length_le_maxCodeLength c x

theorem CodeTree.eq_of_prefix (h : CodeTree f c t) {x y : Byte} (hx : 0 < f.entry x) (hy : 0 < f.entry y)
    (hp : c.entry x <+: c.entry y) : x = y := by
  rw [h.code x hx, h.code y hy] at hp
  exact HTree.eq_of_path_prefix ((h.present x).2 hx) ((h.present y).2 hy) hp

/-- For two symbols or more, the present ones are those with a code (R91 item 1). -/
theorem CodeTree.length_pos_iff (h : CodeTree f c t) (hf : 2 ≤ distinctSymbols f) (x : Byte) :
    1 ≤ (c.entry x).length ↔ 0 < f.entry x := by
  by_cases hx : 0 < f.entry x
  · have hne := HTree.path_ne_nil (h.size ▸ hf) x
    simpa [h.code x hx, hx, Nat.one_le_iff_ne_zero] using hne
  · simp [h.noCode x hx, hx]

end

/-- Settles O42: the one code "0" of a single symbol, else the paths in the tree. -/
theorem derivedCodesArePrefixFree : Obligations.DerivedCodesArePrefixFree := by
  rintro f c hf rfl
  rcases Nat.lt_or_ge 1 (distinctSymbols f) with hmany | hone
  · obtain ⟨t, ht⟩ := exists_codeTree hmany
    refine ⟨ht.length_pos_iff hmany, fun x y hne hx hy hp => hne (ht.eq_of_prefix hx hy hp), by omega, fun _ => ?_⟩
    obtain ⟨x, hx⟩ := (distinctSymbols_pos f).1 hf
    have hcode := (ht.length_pos_iff hmany x).2 hx
    have hmax := entry_length_le_maxCodeLength (deriveCodes (buildTree f).1 (buildTree f).2) x
    have hdepth := t.depth_lt
    rw [← ht.maxCodeLength_eq, ht.size] at hdepth
    omega
  · obtain ⟨x, hx, hother⟩ := exists_single_symbol (show distinctSymbols f = 1 by omega)
    have honly : ∀ y, 0 < f.entry y → y = x := fun y hy => by_contra fun hne => by simp [hother y hne] at hy
    refine ⟨fun y => ?_, fun y z hne hy hz _ => hne ((honly y hy).trans (honly z hz).symm),
      fun _ => maxCodeLength_single hx hother, by omega⟩
    rw [deriveCodes_single_entry hx hother]
    by_cases hy : x = y
    · simp [← hy, hx]
    · simp [hy, hother y (Ne.symm hy)]

/-- Settles O43: a bit-string as long as the tree is deep passes a leaf, and of two codes that begin it one
begins the other. -/
theorem derivedCodesAreComplete : Obligations.DerivedCodesAreComplete := by
  rintro f c bits hf rfl hlen
  obtain ⟨t, ht⟩ := exists_codeTree hf
  obtain ⟨p, x, hp, hleaf⟩ := t.exists_leaf_prefix (bits := bits) (by rw [hlen, ht.maxCodeLength_eq])
  obtain ⟨hmem, rfl⟩ := HTree.path_of_follow ht.nodup hleaf
  have hx := (ht.present x).1 hmem
  rw [← ht.code x hx] at hp
  refine ⟨x, hx, hp, fun y hy hyp => ?_⟩
  rcases List.prefix_or_prefix_of_prefix hp hyp with hxy | hyx
  · exact (ht.eq_of_prefix hx hy hxy).symm
  · exact ht.eq_of_prefix hy hx hyx

end Sys2Proof.Machine
end

section
/-! The parts of the stream that ENCODE writes, and their lengths (R65, R93-R95, R97). -/

namespace Sys2Proof.Machine

/-! The concatenation of the codes (R93) -/

/-- The bytes of the input are counted by symbol: each occurrence of a symbol adds its code's length (R93). -/
theorem concatCodes_length (d : List Byte) (c : Table BitString) :
    (concatCodes d c).length = (allSymbols.map fun x => d.count x * (c.entry x).length).sum :=
  calc (concatCodes d c).length
    _ = (d.map fun x => (c.entry x).length).sum := List.length_flatMap
    _ = ∑ x ∈ d.toFinset, d.count x * (c.entry x).length := Finset.sum_list_map_count d _
    _ = ∑ x ∈ allSymbols.toFinset, d.count x * (c.entry x).length := by
      refine Finset.sum_subset (fun x _ => by simp) fun x _ hx => ?_
      have habsent : d.count x = 0 := List.count_eq_zero.2 (by simpa using hx)
      rw [habsent, Nat.zero_mul]
    _ = (allSymbols.map fun x => d.count x * (c.entry x).length).sum := List.sum_toFinset _ allSymbols_nodup

/-- "Every symbol of D has F[s] > 0, so its code is at least one bit long" (R91, R93). -/
theorem encoderCode_length_pos {d : List Byte} {x : Byte} (hx : x ∈ d) :
    1 ≤ ((loadBuilder (countBytes d)).codes.entry x).length := by
  obtain ⟨hpresent, -⟩ :=
    derivedCodesArePrefixFree (countBytes d) _ (distinctSymbols_countBytes_pos (List.ne_nil_of_mem hx)) rfl
  refine (hpresent x).2 ?_
  rw [countBytes_entry]
  exact List.count_pos_iff.2 hx

/-- The codes of a non-empty input are at least one bit together. -/
theorem concatCodes_length_pos {d : List Byte} (hd : d ≠ []) :
    1 ≤ (concatCodes d (loadBuilder (countBytes d)).codes).length := by
  obtain ⟨x, hx⟩ := List.exists_mem_of_ne_nil d hd
  rw [concatCodes, List.length_flatMap]
  exact (encoderCode_length_pos hx).trans (List.single_le_sum (by simp) _ (List.mem_map.2 ⟨x, hx, rfl⟩))

/-- Settles O48: the codes of the symbols that occur, and the sum over them. -/
theorem codeConcatenationLength : Obligations.CodeConcatenationLength := by
  rintro d c - rfl
  refine ⟨List.flatMap_def, fun x hx => encoderCode_length_pos hx, ?_⟩
  simp only [countBytes_entry]
  exact concatCodes_length d _

/-! The data bytes (R94) -/

/-- The padding is what is missing to a whole number of bytes (R69). -/
theorem padded_length_mod (bits : BitString) : (bits ++ zeros (padding bits.length)).length % 8 = 0 := by
  obtain ⟨-, -, hmod, -⟩ := paddingCompletesTheByte.1 bits.length
  simpa [zeros] using hmod

theorem packPadded_length (bits : BitString) : 8 * (packPadded bits).length = bits.length + padding bits.length := by
  have hmod := padded_length_mod bits
  have hlen : (bits ++ zeros (padding bits.length)).length = bits.length + padding bits.length := by simp [zeros]
  rw [packPadded, pack_length hmod]
  omega

/-- The padding is less than a byte, so that the number of data bytes is the ceiling (R94). -/
theorem packPadded_length_eq_ceil (bits : BitString) : (packPadded bits).length = (bits.length + 7) / 8 := by
  obtain ⟨-, hle, -⟩ := paddingCompletesTheByte.1 bits.length
  have hlen := packPadded_length bits
  omega

theorem unpack_packPadded (bits : BitString) : unpack (packPadded bits) = bits ++ zeros (padding bits.length) :=
  unpack_pack (padded_length_mod bits)

/-- Settles O49: the padded length is a multiple of 8, so that packing keeps it and unpacking undoes it. -/
theorem payloadHoldsTheBits : Obligations.PayloadHoldsTheBits := fun bits =>
  ⟨rfl, packPadded_length bits, packPadded_length_eq_ceil bits, by rw [packPadded_length, Nat.add_sub_cancel],
    unpack_packPadded bits⟩

/-! The header (R95) -/

@[simp] theorem headerEntry_length (e : Byte × Nat) : (headerEntry e).length = 5 := rfl

theorem header_length (f : Table Nat) : (header f).length = 2 + 5 * distinctSymbols f := by
  have hentries : ((presentCounts f).flatMap headerEntry).length = 5 * distinctSymbols f := by
    simp [List.length_flatMap, distinctSymbols, Nat.mul_comm]
  have hnsym : (be16Bytes (distinctSymbols f)).length = 2 := rfl
  rw [header, List.length_append, hnsym, hentries]

theorem header_eq (f : Table Nat) :
    header f = be16Bytes (allSymbols.filter fun x => 0 < f.entry x).length ++
      (allSymbols.filter fun x => 0 < f.entry x).flatMap fun x => x :: be32Bytes (f.entry x) := by
  rw [header, distinctSymbols_eq_length, presentCounts_eq_map, List.flatMap_map]
  rfl

/-- Settles O50: the present symbols in ascending order, five bytes for each. -/
theorem headerListsThePresentSymbols : Obligations.HeaderListsThePresentSymbols := fun f _ =>
  ⟨header_eq f, header_length f⟩

/-! The stream (R65, R97) -/

theorem Stream.bytes_length (str : Stream) : str.bytes.length = str.hdr.length + 1 + str.data.length := by
  simp only [Stream.bytes, List.length_append, List.length_singleton]

theorem streamOf_hdr_length (d : List Byte) : (streamOf d).hdr.length = 2 + 5 * distinctSymbols (countBytes d) :=
  header_length _

theorem streamOf_pad_le (d : List Byte) : (streamOf d).pad ≤ 7 := by
  obtain ⟨-, hle, -⟩ := paddingCompletesTheByte.1 (concatCodes d (loadBuilder (countBytes d)).codes).length
  exact hle

theorem streamOf_data_length (d : List Byte) :
    (streamOf d).data.length = ((concatCodes d (loadBuilder (countBytes d)).codes).length + 7) / 8 :=
  packPadded_length_eq_ceil _

theorem streamOf_pad_eq_zero_iff (d : List Byte) :
    (streamOf d).pad = 0 ↔ 8 ∣ (concatCodes d (loadBuilder (countBytes d)).codes).length := by
  obtain ⟨-, -, -, hzero⟩ := paddingCompletesTheByte.1 (concatCodes d (loadBuilder (countBytes d)).codes).length
  exact hzero.trans Nat.dvd_iff_mod_eq_zero.symm

/-- Settles O52: the lengths of header and data, the latter from the length of the codes' concatenation. -/
theorem encodedStreamLengths : Obligations.EncodedStreamLengths := by
  intro d hd
  have hpos := concatCodes_length_pos hd
  have hdata := streamOf_data_length d
  rw [← concatCodes_length]
  refine ⟨?_, hdata, by omega, streamOf_pad_le d, streamOf_pad_eq_zero_iff d⟩
  rw [Stream.bytes_length, streamOf_hdr_length]
  omega

end Sys2Proof.Machine
end

section
/-! ENCODE (R96): its rule's answer on each side of its checks, what a successful ENCODE leaves in the state, and that
this depends only on the input bytes (R97). -/

namespace Sys2Proof.Machine

/-! Errors (R107, R108) -/

/-- An error of a command that writes DST resets the builder state and stores nothing (R107). -/
theorem exec_failedClearingBuilder {i : Instr} {s : State} {e : CmdError} (hi : writesDst i = true)
    (h : ruleOf i s = .error e) : ∃ t, exec i s = .next t ∧ failedClearingBuilder e.code s t := by
  have hexec := exec_of_error h
  exact ⟨_, hexec, errorCompletion_flagsError _ e s, ⟨rfl, rfl, rfl, rfl⟩, by simp [hi], fun _ => rfl,
    exec_completionKeeps hexec⟩

theorem encodeRule_of_empty {s : State} (hr : rangeOk .encode s = true) (h0 : s.srcLen = 0) :
    encodeRule s = .error .emptyInput := by rw [encodeRule, if_pos hr, if_pos h0]

theorem encodeRule_of_small {s : State} (hr : rangeOk .encode s = true) (h0 : s.srcLen ≠ 0)
    (hcap : s.dstCap.toNat < (streamOf (srcBytes s)).bytes.length) : encodeRule s = .error .capacity := by
  rw [encodeRule, if_pos hr, if_neg h0]
  exact if_pos hcap

/-! Success (R96) -/

/-- With its three checks passed, ENCODE succeeds (R96, R108). -/
theorem encodeRule_of_room {s : State} (hr : rangeOk .encode s = true) (h0 : s.srcLen ≠ 0)
    (hcap : (streamOf (srcBytes s)).bytes.length ≤ s.dstCap.toNat) : ∃ u, encodeRule s = .ok u := by
  rw [encodeRule, if_pos hr, if_neg h0]
  exact ⟨_, if_neg (Nat.not_lt.2 hcap)⟩

/-- What a successful ENCODE of the bytes `d` leaves in the builder state and the result registers (R96). -/
structure HoldsStreamOf (d : List Byte) (t : State) : Prop where
  builder : t.builder = loadBuilder (countBytes d)
  outLen : t.outLen.toNat = (streamOf d).bytes.length
  pad : t.pad.toNat = (streamOf d).pad
  hdrLen : t.hdrLen.toNat = (streamOf d).hdr.length
  dataLen : t.dataLen.toNat = (streamOf d).data.length

/-- The parts of a stream that fits DST_CAP fit the result registers (R28-R31, R96). -/
theorem holdsStreamOf_of_encodeRule_ok {s : State} {u : Updates} (h : encodeRule s = .ok u) :
    HoldsStreamOf (srcBytes s) (successCompletion u s) := by
  obtain ⟨-, -, hcap, hbuilder, -, hout, hpad, hhdr, hdata⟩ := encodeRule_ok h
  have hlen := (streamOf (srcBytes s)).bytes_length
  have hhdrLen := streamOf_hdr_length (srcBytes s)
  have hsyms := distinctSymbols_le (countBytes (srcBytes s))
  have hpadLe := streamOf_pad_le (srcBytes s)
  have hfits := s.dstCap.isLt
  constructor
  · exact hbuilder
  · rw [successCompletion_outLen, hout, BitVec.toNat_ofNat]
    exact Nat.mod_eq_of_lt (by omega)
  · rw [successCompletion_pad, hpad, BitVec.toNat_ofNat]
    exact Nat.mod_eq_of_lt (by omega)
  · rw [successCompletion_hdrLen, hhdr, BitVec.toNat_ofNat]
    exact Nat.mod_eq_of_lt (by omega)
  · rw [successCompletion_dataLen, hdata, BitVec.toNat_ofNat]
    exact Nat.mod_eq_of_lt (by omega)

/-- Settles O54: the three errors, and the success completion with the stream of the SRC bytes. -/
theorem encodeCommand : Obligations.EncodeCommand := by
  refine ⟨fun w => decode_eq_ok_iff, ?_⟩
  rintro s d c bits data out hwf rfl rfl rfl rfl rfl
  refine ⟨fun hr => ?_, fun hr h0 => ?_, fun hr h0 hcap => ?_, fun hr h0 hcap => ?_⟩
  · exact exec_failedClearingBuilder rfl (ruleOf_of_rangeOk_false hr)
  · exact exec_failedClearingBuilder (i := .encode) rfl (encodeRule_of_empty hr h0)
  · exact exec_failedClearingBuilder (i := .encode) rfl (encodeRule_of_small hr h0 hcap)
  · obtain ⟨u, hok⟩ := encodeRule_of_room hr h0 hcap
    obtain ⟨-, -, -, -, hmem, -⟩ := encodeRule_ok hok
    have hexec : exec .encode s = .next (successCompletion u s) := exec_of_ok (i := .encode) hok
    have hres := holdsStreamOf_of_encodeRule_ok hok
    refine ⟨_, hexec, hres.builder, by rw [hres.builder]; rfl, by rw [hres.builder]; rfl, hres.outLen, hres.pad,
      hres.hdrLen.trans (streamOf_hdr_length _), hres.dataLen, fun i hi => ?_, fun a ha => ?_,
      successCompletion_flagsDone u s, exec_completionKeeps hexec⟩
    · rw [successCompletion_dmem, hmem]
      exact memWrite_read_inside hwf _ _ hi
    · rw [successCompletion_dmem, hmem]
      exact memWrite_read_outside _ _ _ ha

/-! What ENCODE writes is a function of its input (R53, R97) -/

/-- An ENCODE that ends with DONE has written the stream of its SRC bytes at DST_ADDR (R76, R96). -/
theorem exec_encode_done {s t : State} (hwf : Memory.wf s.dmem) (h : exec .encode s = .next t) (hdone : t.done = true) :
    HoldsStreamOf (srcBytes s) t ∧
      memRead t.dmem s.dstAddr.toNat t.outLen.toNat = (streamOf (srcBytes s)).bytes := by
  rcases exec_cases h with ⟨u, hok, rfl⟩ | ⟨e, -, rfl⟩
  · have hres := holdsStreamOf_of_encodeRule_ok hok
    obtain ⟨-, -, -, -, hmem, -⟩ := encodeRule_ok hok
    refine ⟨hres, ?_⟩
    rw [hres.outLen, successCompletion_dmem, hmem, memRead_memWrite hwf]
  · simp at hdone

/-- Settles O56: both ENCODEs leave the one stream of the one byte list. -/
theorem encodeDependsOnlyOnItsInput : Obligations.EncodeDependsOnlyOnItsInput := by
  intro s s' t t' hwf hwf' hsrc hexec hexec' hdone hdone'
  obtain ⟨hres, hread⟩ := exec_encode_done hwf hexec hdone
  obtain ⟨hres', hread'⟩ := exec_encode_done hwf' hexec' hdone'
  rw [hsrc] at hres hread
  exact ⟨hread.trans hread'.symm, BitVec.eq_of_toNat_eq (hres.outLen.trans hres'.outLen.symm),
    BitVec.eq_of_toNat_eq (hres.pad.trans hres'.pad.symm), BitVec.eq_of_toNat_eq (hres.hdrLen.trans hres'.hdrLen.symm),
    BitVec.eq_of_toNat_eq (hres.dataLen.trans hres'.dataLen.symm), hres.builder.trans hres'.builder.symm⟩

end Sys2Proof.Machine
end

section
/-! The header parse (R98) as the inverse of the header (R95). -/

namespace Sys2Proof.Machine

/-! Big-endian fields of given bytes (R67) -/

theorem be32_lt (b0 b1 b2 b3 : Byte) : be32 b0 b1 b2 b3 < 2 ^ 32 := by
  have h0 := b0.isLt
  have h1 := b1.isLt
  have h2 := b2.isLt
  have h3 := b3.isLt
  rw [be32]
  omega

theorem be16Bytes_be16 (b0 b1 : Byte) : be16Bytes (be16 b0 b1) = [b0, b1] := by
  have h0 := b0.isLt
  have h1 := b1.isLt
  simp only [be16Bytes, be16, List.cons.injEq, and_true]
  constructor <;> apply BitVec.eq_of_toNat_eq <;> rw [BitVec.toNat_ofNat] <;> omega

theorem be32Bytes_be32 (b0 b1 b2 b3 : Byte) : be32Bytes (be32 b0 b1 b2 b3) = [b0, b1, b2, b3] := by
  have h0 := b0.isLt
  have h1 := b1.isLt
  have h2 := b2.isLt
  have h3 := b3.isLt
  simp only [be32Bytes, be32, List.cons.injEq, and_true]
  refine ⟨?_, ?_, ?_, ?_⟩ <;> apply BitVec.eq_of_toNat_eq <;> rw [BitVec.toNat_ofNat] <;> omega

/-! The entries (R65, R98) -/

/-- Entries whose counts fit their fields are parsed back, whatever follows them. -/
theorem parseEntries_flatMap {es : List (Byte × Nat)} (h : ∀ e ∈ es, e.2 < 2 ^ 32) (rest : List Byte) :
    parseEntries es.length (es.flatMap headerEntry ++ rest) = some (es, rest) := by
  induction es with
  | nil => rfl
  | cons e es ih =>
    obtain ⟨he, hes⟩ := List.forall_mem_cons.1 h
    simp only [List.flatMap_cons, headerEntry, be32Bytes, List.length_cons, List.cons_append, List.nil_append,
      parseEntries, ih hes, be32_be32Bytes he]

/-- What is parsed as entries is their layout, followed by the rest. -/
theorem parseEntries_some {n : Nat} {bytes rest : List Byte} {es : List (Byte × Nat)}
    (h : parseEntries n bytes = some (es, rest)) : bytes = es.flatMap headerEntry ++ rest := by
  fun_induction parseEntries n bytes generalizing es with
  | case1 => cases h; rfl
  | case2 n s c0 c1 c2 c3 bytes es' rest' htail ih =>
    cases h
    simp [headerEntry, be32Bytes_be32, ih htail]
  | case3 => cases h
  | case4 => cases h

/-- Each symbol above the one before it is each symbol above all before it (R98). -/
theorem ascending_iff (es : List (Byte × Nat)) :
    ascending es = true ↔ es.Pairwise fun e g => e.1.toNat < g.1.toNat := by
  rw [← List.isChain_iff_pairwise]
  fun_induction ascending es with
  | case1 e g es ih => simp [ih]
  | case2 es hshort =>
    match es, hshort with
    | [], _ => simp
    | [e], _ => simp
    | e :: g :: es, hshort => exact absurd rfl (hshort e g es)

/-- The checks of R98 on the entries. -/
theorem entriesOk_iff (es : List (Byte × Nat)) :
    entriesOk es = true ↔
      (es.Pairwise fun e g => e.1.toNat < g.1.toNat) ∧ (∀ e ∈ es, 0 < e.2) ∧ (es.map Prod.snd).sum ≤ 2 ^ 32 - 1 := by
  simp only [entriesOk, Bool.and_eq_true, ascending_iff, List.all_eq_true, bne_iff_ne, Nat.pos_iff_ne_zero,
    decide_eq_true_eq, and_assoc]

/-- Where the symbols ascend, the lookup finds exactly the entries. -/
theorem lookup_eq_some_iff_mem {es : List (Byte × Nat)} (h : es.Pairwise fun e g => e.1.toNat < g.1.toNat)
    (x : Byte) (k : Nat) : es.lookup x = some k ↔ (x, k) ∈ es := by
  induction es with
  | nil => simp
  | cons e es ih =>
    obtain ⟨hhead, htail⟩ := List.pairwise_cons.1 h
    obtain ⟨y, m⟩ := e
    by_cases hxy : x = y
    · subst hxy
      have hnot : (x, k) ∉ es := fun hmem => Nat.lt_irrefl _ (hhead (x, k) hmem)
      simp [hnot, eq_comm]
    · simp [List.lookup_cons, beq_false_of_ne hxy, ih htail, hxy]

/-- The table of the entries has each entry's count at its symbol (R98). -/
theorem mem_iff_entriesFreq {es : List (Byte × Nat)} (h : es.Pairwise fun e g => e.1.toNat < g.1.toNat)
    (hpos : ∀ e ∈ es, 0 < e.2) (e : Byte × Nat) : e ∈ es ↔ e.2 = (entriesFreq es).entry e.1 ∧ 0 < e.2 := by
  obtain ⟨x, k⟩ := e
  rw [entriesFreq, Table.entry_tabulate]
  constructor
  · intro hmem
    exact ⟨by rw [(lookup_eq_some_iff_mem h x k).2 hmem, Option.getD_some], hpos _ hmem⟩
  · rintro ⟨hk, hk0⟩
    cases hlook : es.lookup x with
    | none =>
      rw [hlook, Option.getD_none] at hk
      exact absurd hk hk0.ne'
    | some m =>
      obtain rfl : k = m := by simpa [hlook] using hk
      exact (lookup_eq_some_iff_mem h x k).1 hlook

/-- The entries of accepted headers are the present symbols of their table. -/
theorem presentCounts_entriesFreq {es : List (Byte × Nat)} (h : es.Pairwise fun e g => e.1.toNat < g.1.toNat)
    (hpos : ∀ e ∈ es, 0 < e.2) : presentCounts (entriesFreq es) = es := by
  have hnodup : ∀ {l : List (Byte × Nat)}, (l.Pairwise fun e g => e.1.toNat < g.1.toNat) → l.Nodup := fun hl =>
    hl.imp fun hlt heq => by simp [heq] at hlt
  have hperm : (presentCounts (entriesFreq es)).Perm es :=
    (List.perm_ext_iff_of_nodup (hnodup (presentCounts_ascending _)) (hnodup h)).2 fun e => by
      rw [mem_presentCounts, mem_iff_entriesFreq h hpos]
  exact hperm.eq_of_pairwise (fun _ _ _ _ h1 h2 => absurd h1 (Nat.lt_asymm h2)) (presentCounts_ascending _) h

theorem presentCounts_pos (f : Table Nat) : ∀ e ∈ presentCounts f, 0 < e.2 := fun e he =>
  ((mem_presentCounts f e).1 he).2

/-- The table comes back from its present symbols (R95, R98). -/
theorem entriesFreq_presentCounts (f : Table Nat) : entriesFreq (presentCounts f) = f := by
  have hentry : ∀ x k, 0 < k → (k = (entriesFreq (presentCounts f)).entry x ↔ k = f.entry x) := fun x k hk => by
    have hmem := mem_iff_entriesFreq (presentCounts_ascending f) (presentCounts_pos f) (x, k)
    rw [mem_presentCounts] at hmem
    simpa [hk] using hmem.symm
  refine Table.ext_entry fun x => ?_
  rcases Nat.eq_zero_or_pos (f.entry x) with h0 | hpos
  · by_contra hne
    exact hne ((hentry x _ (by omega)).1 rfl)
  · exact ((hentry x _ hpos).2 rfl).symm

/-- TOTAL is the sum of the header's counts (R33, R95). -/
theorem sum_presentCounts (f : Table Nat) : ((presentCounts f).map Prod.snd).sum = totalCount f := by
  have hcounts : presentCounts f = f.pairs.filter ((· != 0) ∘ Prod.snd) :=
    List.filter_congr fun e _ => Bool.eq_iff_iff.2 (by simp [Nat.pos_iff_ne_zero])
  rw [hcounts, ← List.filter_map, pairs_map_snd, List.sum_filter_bne_zero, totalCount]

theorem entriesOk_presentCounts {f : Table Nat} (h : totalCount f ≤ 2 ^ 32 - 1) : entriesOk (presentCounts f) = true :=
  (entriesOk_iff _).2 ⟨presentCounts_ascending f, presentCounts_pos f, (sum_presentCounts f).trans_le h⟩

/-! The header (R95, R98) -/

/-- The header of a table whose total fits 32 bits is parsed, and gives back the table (R98). -/
theorem parseHeader_header {f : Table Nat} {p : Nat} (hf : 1 ≤ distinctSymbols f) (htotal : totalCount f ≤ 2 ^ 32 - 1)
    (hp : p ≤ 7) (data : List Byte) :
    parseHeader (header f ++ [BitVec.ofNat 8 p] ++ data) =
      some { freq := f, n := distinctSymbols f, len := 2 + 5 * distinctSymbols f, pad := p, data := data } := by
  have hle := distinctSymbols_le f
  have hcounts : ∀ e ∈ presentCounts f, e.2 < 2 ^ 32 := fun e he => by
    have hentry := entry_le_totalCount f e.1
    rw [((mem_presentCounts f e).1 he).1]
    omega
  have hentries : parseEntries (distinctSymbols f)
      ((presentCounts f).flatMap headerEntry ++ BitVec.ofNat 8 p :: data) =
        some (presentCounts f, BitVec.ofNat 8 p :: data) := parseEntries_flatMap hcounts _
  have hpad : (BitVec.ofNat 8 p).toNat = p := by
    rw [BitVec.toNat_ofNat]
    omega
  have hn : ¬(distinctSymbols f = 0 ∨ distinctSymbols f > 256) := by omega
  simp only [header, be16Bytes, List.append_assoc, List.cons_append, List.nil_append, parseHeader,
    be16_be16Bytes (show distinctSymbols f < 2 ^ 16 by omega), if_neg hn, hentries, entriesOk_presentCounts htotal,
    hpad, hp, and_self, if_true, entriesFreq_presentCounts]

/-- A header that is accepted (R98): the number of entries, the entries, the PAD byte and the data. -/
theorem parseHeader_some {bytes : List Byte} {h : Header} (hp : parseHeader bytes = some h) :
    ∃ (b0 b1 : Byte) (rest : List Byte) (es : List (Byte × Nat)) (p : Byte) (data : List Byte),
      bytes = b0 :: b1 :: rest ∧ ¬(be16 b0 b1 = 0 ∨ be16 b0 b1 > 256) ∧
        parseEntries (be16 b0 b1) rest = some (es, p :: data) ∧ entriesOk es = true ∧ p.toNat ≤ 7 ∧
        h = { freq := entriesFreq es, n := be16 b0 b1, len := 2 + 5 * be16 b0 b1, pad := p.toNat, data := data } := by
  unfold parseHeader at hp
  dsimp only at hp
  split at hp
  · split at hp
    · cases hp
    · rename_i hn
      split at hp
      · split at hp
        · rename_i hentries hok
          cases hp
          exact ⟨_, _, _, _, _, _, rfl, hn, hentries, hok.1, hok.2, rfl⟩
        · cases hp
      · cases hp
      · cases hp
  · cases hp

/-- Settles O51: the parts of an accepted header are the layout of its table, and that layout is parsed. -/
theorem parserAcceptsExactlyEncodedHeaders : Obligations.ParserAcceptsExactlyEncodedHeaders := by
  intro bytes h
  constructor
  · intro hparse
    obtain ⟨b0, b1, rest, es, p, data, rfl, hn, hentries, hok, hpad, rfl⟩ := parseHeader_some hparse
    obtain ⟨hasc, hpos, hsum⟩ := (entriesOk_iff es).1 hok
    have hcounts := presentCounts_entriesFreq hasc hpos
    have hdistinct : distinctSymbols (entriesFreq es) = be16 b0 b1 := by
      rw [distinctSymbols, hcounts, parseEntries_length hentries]
    refine ⟨?_, hdistinct.symm, rfl, by dsimp only; omega, by dsimp only; omega, ?_, hpad⟩
    · rw [header, hcounts, hdistinct, be16Bytes_be16, parseEntries_some hentries]
      simp
    · rwa [← sum_presentCounts, hcounts]
  · obtain ⟨f, n, len, p, data⟩ := h
    rintro ⟨rfl, hn, hlen, hpos, -, htotal, hpad⟩
    dsimp only at hn hlen
    subst hlen hn
    exact parseHeader_header hpos htotal hpad data

end Sys2Proof.Machine
end

section
/-! The walks over a prefix-free code table (R100, R101): the accumulator walk of one code after another, of a bit-string
cut in two, and its agreement with the tree walk. -/

namespace Sys2Proof.Machine

/-- No code begins another (R91 item 2). -/
def PrefixFree (c : Table BitString) : Prop :=
  ∀ x y, c.entry x ≠ [] → c.entry y ≠ [] → c.entry x <+: c.entry y → x = y

/-- The codes of a table with a symbol are prefix-free (R91). -/
theorem prefixFree_deriveCodes {f : Table Nat} (hf : 1 ≤ distinctSymbols f) :
    PrefixFree (deriveCodes (buildTree f).1 (buildTree f).2) := by
  obtain ⟨hpresent, hprefix, -⟩ := derivedCodesArePrefixFree f _ hf rfl
  intro x y hx hy hxy
  by_contra hne
  exact hprefix x y hne ((hpresent x).1 (List.length_pos_iff.2 hx)) ((hpresent y).1 (List.length_pos_iff.2 hy)) hxy

/-- The accumulator finds the symbol whose code it is (R100). -/
theorem PrefixFree.symbolOf_eq_some_iff {c : Table BitString} (hc : PrefixFree c) (b : BitString) (s : Byte) :
    symbolOf (codeBook c) b = some s ↔ c.entry s = b ∧ b ≠ [] :=
  symbolOf_codeBook (fun x y hx hxy => hc x y hx (hxy ▸ hx) (hxy ▸ List.prefix_rfl)) b s

/-! The accumulator walk (R100) -/

/-- A walk that succeeds goes on with an empty accumulator. -/
theorem walkFrom_append {book : List (Byte × BitString)} {maxlen : Nat} {acc bits : BitString} {out : List Byte}
    (h : walkFrom book maxlen acc bits = some out) (more : BitString) :
    walkFrom book maxlen acc (bits ++ more) = (walkFrom book maxlen [] more).map (out ++ ·) := by
  fun_induction walkFrom book maxlen acc bits generalizing out with
  | case1 acc hacc =>
    cases h
    simp [List.isEmpty_iff.1 hacc]
  | case2 => cases h
  | case3 acc b bs s hs ih =>
    obtain ⟨tail, htail, rfl⟩ := Option.map_eq_some_iff.1 h
    simp [walkFrom, hs, ih htail, Function.comp_def]
  | case4 => cases h
  | case5 acc b bs hs hlen ih => simp [walkFrom, hs, hlen, ih h]

/-- Only the empty bit-string decodes to no bytes. -/
theorem walkFrom_eq_nil {book : List (Byte × BitString)} {maxlen : Nat} {acc bits : BitString}
    (h : walkFrom book maxlen acc bits = some []) : acc = [] ∧ bits = [] := by
  fun_induction walkFrom book maxlen acc bits with
  | case1 acc hacc => exact ⟨List.isEmpty_iff.1 hacc, rfl⟩
  | case2 => cases h
  | case3 => simp at h
  | case4 => cases h
  | case5 acc b bs hs hlen ih => simpa using (ih h).1

/-- The bits of a code that are not yet in the accumulator lead to its symbol (R100): before the last of them the
accumulator is no code, since it begins this one. -/
theorem PrefixFree.walkFrom_code {c : Table BitString} (hc : PrefixFree c) {x : Byte} {acc rest : BitString}
    (h : acc ++ rest = c.entry x) (hrest : rest ≠ []) :
    walkFrom (codeBook c) (maxCodeLength c) acc rest = some [x] := by
  induction rest generalizing acc with
  | nil => exact absurd rfl hrest
  | cons b bs ih =>
    have hcode : acc ++ [b] ++ bs = c.entry x := by simpa using h
    rw [walkFrom]
    by_cases hbs : bs = []
    · subst hbs
      rw [(hc.symbolOf_eq_some_iff _ x).2 ⟨by simpa using hcode.symm, by simp⟩]
      rfl
    · have hnone : symbolOf (codeBook c) (acc ++ [b]) = none := by
        refine Option.eq_none_iff_forall_ne_some.2 fun y hy => ?_
        obtain ⟨hyc, -⟩ := (hc.symbolOf_eq_some_iff _ y).1 hy
        obtain rfl := hc y x (by simp [hyc]) (by simp [← h]) (hyc ▸ hcode ▸ List.prefix_append _ _)
        exact hbs (List.append_right_eq_self.1 (hcode.trans hyc))
      have hlen := entry_length_le_maxCodeLength c x
      rw [← h, List.length_append, List.length_cons] at hlen
      rw [hnone]
      exact (if_neg (by omega)).trans (ih hcode hbs)

/-- The walk of the codes of a byte list gives the list (R93, R100). -/
theorem PrefixFree.walk_concatCodes {c : Table BitString} (hc : PrefixFree c) {d : List Byte}
    (hd : ∀ x ∈ d, c.entry x ≠ []) : walk (concatCodes d c) c (maxCodeLength c) = some d := by
  induction d with
  | nil => rfl
  | cons x d ih =>
    obtain ⟨hx, htail⟩ := List.forall_mem_cons.1 hd
    have hcode := walkFrom_append (hc.walkFrom_code (acc := []) rfl hx) (concatCodes d c)
    have hwalk : walkFrom (codeBook c) (maxCodeLength c) [] (concatCodes d c) = some d := ih htail
    rw [hwalk] at hcode
    exact hcode

/-- A bit-string that decodes to `d` has a shorter beginning decode, if at all, to fewer bytes (R105). -/
theorem walk_length_lt_of_append {c : Table BitString} {maxlen : Nat} {bits more : BitString} {d out : List Byte}
    (hd : walk (bits ++ more) c maxlen = some d) (hmore : more ≠ []) (hout : walk bits c maxlen = some out) :
    out.length < d.length := by
  rw [walk, walkFrom_append hout more] at hd
  obtain ⟨tail, htail, rfl⟩ := Option.map_eq_some_iff.1 hd
  have hne : tail ≠ [] := fun hnil => hmore (walkFrom_eq_nil (hnil ▸ htail)).2
  simpa using List.length_pos_iff.2 hne

/-! The tree walk (R101), for one symbol -/

/-- With the one code "0", each bit 0 is a symbol and no bit 1 is allowed (R89, R101). -/
theorem walkFrom_single {c : Table BitString} {x : Byte} (hc : ∀ y, c.entry y = if x = y then [false] else [])
    (bits : BitString) : walkFrom (codeBook c) 1 [] bits = singleWalk x bits := by
  have hfree : PrefixFree c := fun y z hy hz _ => by
    rw [hc, ne_eq, ite_eq_right_iff, Classical.not_imp] at hy hz
    exact hy.1.symm.trans hz.1
  have hnone : ∀ bs, symbolOf (codeBook c) (true :: bs) = none := fun bs =>
    Option.eq_none_iff_forall_ne_some.2 fun y hy => by
      obtain ⟨hyc, -⟩ := (hfree.symbolOf_eq_some_iff _ y).1 hy
      rw [hc] at hyc
      split at hyc <;> simp at hyc
  induction bits with
  | nil => rfl
  | cons b bs ih =>
    cases b with
    | false =>
      have hsome : symbolOf (codeBook c) [false] = some x := (hfree.symbolOf_eq_some_iff _ x).2 ⟨by simp [hc], by simp⟩
      simp [walkFrom, singleWalk, hsome, ih]
    | true =>
      cases bs with
      | nil => simp [walkFrom, singleWalk, hnone]
      | cons b bs => simp [walkFrom, singleWalk, hnone]

/-! The tree walk for two symbols or more -/

/-- A subtree is less deep than the tree by the length of the path to it. -/
theorem HTree.length_add_depth_le {t u : HTree} {p : BitString} (h : t.follow p = some u) :
    p.length + u.depth ≤ t.depth := by
  induction p generalizing t with
  | nil =>
    rw [follow_nil, Option.some.injEq] at h
    simp [h]
  | cons b p ih =>
    cases t with
    | leaf s => simp [follow] at h
    | node l r =>
      rw [depth, List.length_cons]
      cases b with
      | false =>
        have := ih (t := l) (by simpa [follow] using h)
        omega
      | true =>
        have := ih (t := r) (by simpa [follow] using h)
        omega

/-- The tree of the derived codes is the one the arena represents at ROOT (R85, R88). -/
theorem exists_rep_codeTree {f : Table Nat} (hf : 2 ≤ distinctSymbols f) :
    ∃ t, Rep (buildTree f).1 (buildTree f).2 t ∧ CodeTree f (deriveCodes (buildTree f).1 (buildTree f).2) t := by
  obtain ⟨t, hrep, hnodup, hsize, hpresent, hentry⟩ := deriveCodes_buildTree f hf
  exact ⟨t, hrep, hnodup, hsize, hpresent, fun x hx => by rw [hentry, if_pos hx], fun x hx => by rw [hentry, if_neg hx]⟩

/-- Where the accumulator is the path to a leaf, it is the code of the leaf's symbol; where it is the path to an internal
node, it is no code (R88, R100). -/
theorem CodeTree.symbolOf_follow {f : Table Nat} {c : Table BitString} {t u : HTree} (h : CodeTree f c t)
    (hc : PrefixFree c) {p : BitString} (hp : p ≠ []) (hu : t.follow p = some u) :
    symbolOf (codeBook c) p = match u with
      | .leaf s => some s
      | .node _ _ => none := by
  cases u with
  | leaf s =>
    obtain ⟨hs, rfl⟩ := HTree.path_of_follow h.nodup hu
    exact (hc.symbolOf_eq_some_iff _ s).2 ⟨h.code s ((h.present s).1 hs), hp⟩
  | node l r =>
    refine Option.eq_none_iff_forall_ne_some.2 fun s hs => ?_
    obtain ⟨rfl, hne⟩ := (hc.symbolOf_eq_some_iff p s).1 hs
    have hpos : 0 < f.entry s := by_contra fun h0 => hne (h.noCode s h0)
    rw [h.code s hpos, HTree.follow_path ((h.present s).2 hpos)] at hu
    cases hu

/-- The child of an internal node that a bit selects represents the subtree of that bit (R88, R101). -/
theorem Rep.child {nodes : List Node} {i : Nat} {l r : HTree} (h : Rep nodes i (.node l r)) (b : Bool) :
    ∃ n, nodes[i]? = some n ∧ (if b then n.right.toNat else n.left.toNat) < i ∧
      Rep nodes (if b then n.right.toNat else n.left.toNat) (if b then r else l) := by
  cases h with
  | node hn _ hli hri hL hR =>
    cases b with
    | false => exact ⟨_, hn, hli, hL⟩
    | true => exact ⟨_, hn, hri, hR⟩

/-- The two walks agree from an internal node, with the path to it in the accumulator (R101). -/
theorem CodeTree.treeWalkFrom_eq {f : Table Nat} {c : Table BitString} {l₀ r₀ : HTree} {nodes : List Node} {root : Nat}
    (h : CodeTree f c (.node l₀ r₀)) (hc : PrefixFree c) (hroot : Rep nodes root (.node l₀ r₀))
    {i : Nat} {l r : HTree} {acc bits : BitString} (hi : Rep nodes i (.node l r))
    (hfollow : (HTree.node l₀ r₀).follow acc = some (.node l r)) (hat : i = root ∧ acc = [] ∨ i < root ∧ acc ≠ []) :
    treeWalkFrom nodes root i bits = walkFrom (codeBook c) (maxCodeLength c) acc bits := by
  induction bits generalizing i l r acc with
  | nil =>
    rcases hat with ⟨rfl, rfl⟩ | ⟨hlt, hne⟩
    · simp [treeWalkFrom, walkFrom]
    · simp [treeWalkFrom, walkFrom, hlt.ne, hne]
  | cons b bs ih =>
    obtain ⟨n, hn, hchild, hrep⟩ := hi.child b
    generalize hj : (if b then n.right.toNat else n.left.toNat) = j at hchild hrep
    have hnext : (HTree.node l₀ r₀).follow (acc ++ [b]) = some (if b then r else l) := by
      rw [HTree.follow_append, hfollow]
      cases b <;> simp [HTree.follow]
    generalize (if b then r else l) = u at hrep hnext
    have hsymbol := h.symbolOf_follow hc (by simp) hnext
    cases hrep with
    | leaf hm hleaf =>
      simp only [treeWalkFrom, hn, hj, hm, hleaf, if_true, walkFrom, hsymbol]
      rw [ih hroot (HTree.follow_nil _) (.inl ⟨rfl, rfl⟩)]
    | node hm hleaf hli hri hL hR =>
      have hlen := HTree.length_add_depth_le hnext
      rw [← h.maxCodeLength_eq, List.length_append, List.length_singleton] at hlen
      have hroom : ¬ acc.length + 1 > maxCodeLength c := by omega
      simp only [treeWalkFrom, hn, hj, hm, hleaf, Bool.false_eq_true, if_false, walkFrom, hsymbol, if_neg hroom]
      exact ih (.node hm hleaf hli hri hL hR) hnext (.inr ⟨by omega, by simp⟩)

/-- For two symbols or more the walk starts at an internal node (R101). -/
theorem treeWalk_of_rep_node {nodes : List Node} {root : Nat} {l r : HTree} (h : Rep nodes root (.node l r))
    (bits : BitString) : treeWalk bits nodes root = treeWalkFrom nodes root root bits := by
  have hlen := h.lt_length
  obtain ⟨n, -, hlt, -⟩ := h.child false
  match nodes, hlen with
  | [], _ => rfl
  | [_], hlen => simp at hlen; omega
  | _ :: _ :: _, _ => rfl

/-- Settles O53: one symbol with its code "0", else the walks side by side from the root. -/
theorem treeWalkEqualsAccumulatorWalk : Obligations.TreeWalkEqualsAccumulatorWalk := by
  intro f bits hf
  have hfree := prefixFree_deriveCodes hf
  rcases Nat.lt_or_ge 1 (distinctSymbols f) with hmany | hone
  · obtain ⟨t, hrep, hcode⟩ := exists_rep_codeTree hmany
    cases t with
    | leaf s =>
      have hsize := hcode.size
      rw [HTree.symbols, List.length_singleton] at hsize
      omega
    | node l r =>
      rw [treeWalk_of_rep_node hrep]
      exact hcode.treeWalkFrom_eq hfree hrep hrep (HTree.follow_nil _) (.inl ⟨rfl, rfl⟩)
  · obtain ⟨x, hx, hother⟩ := exists_single_symbol (show distinctSymbols f = 1 by omega)
    rw [maxCodeLength_single hx hother, walk, walkFrom_single (deriveCodes_single_entry hx hother),
      buildTree_single hx hother]
    rfl

end Sys2Proof.Machine
end

section
/-! DECODE (R103): its rule's answer on each side of its checks, the strip of its payload (R99), the round trip (R104)
and a stream without its last byte (R105). -/

namespace Sys2Proof.Machine

/-! The strip (R99) -/

/-- The strip fails where the padding is more than the data bits (R99). -/
theorem stripPayload_eq_none_iff (data : List Byte) (p : Nat) : stripPayload data p = none ↔ 8 * data.length < p := by
  simp [stripPayload]

/-- The strip takes the last `p` bits away, whatever they are (R99). -/
theorem stripPayload_of_unpack {data : List Byte} {bits tail : BitString} (h : unpack data = bits ++ tail) :
    stripPayload data tail.length = some bits := by
  simp [stripPayload, h]

/-- What the strip takes away is `p` bits long (R99). -/
theorem stripPayload_some {data : List Byte} {p : Nat} {bits : BitString} (h : stripPayload data p = some bits) :
    ∃ tail, unpack data = bits ++ tail ∧ tail.length = p := by
  have hle : ¬ 8 * data.length < p := fun hlt => by simp [(stripPayload_eq_none_iff data p).2 hlt] at h
  have hsplit := List.take_append_drop ((unpack data).length - p) (unpack data)
  have hlen : ((unpack data).drop ((unpack data).length - p)).length = p := by
    rw [List.length_drop, unpack_length]
    omega
  have hstrip := stripPayload_of_unpack hsplit.symm
  rw [hlen, h, Option.some.injEq] at hstrip
  exact ⟨_, hstrip ▸ hsplit.symm, hlen⟩

/-- The strip of ENCODE's data bytes gives the bits that were packed (R94, R99). -/
theorem stripPayload_packPadded (bits : BitString) :
    stripPayload (packPadded bits) (padding bits.length) = some bits := by
  simpa [zeros] using stripPayload_of_unpack (unpack_packPadded bits)

/-- Without their last byte, the strip of ENCODE's data bytes fails or gives fewer of the bits (R94, R99). -/
theorem stripPayload_dropLast_packPadded {bits stripped : BitString} (hbits : bits ≠ [])
    (h : stripPayload (packPadded bits).dropLast (padding bits.length) = some stripped) :
    ∃ more, more ≠ [] ∧ bits = stripped ++ more := by
  have hdata : packPadded bits ≠ [] := fun hnil => by
    have hlen := packPadded_length bits
    rw [hnil, List.length_nil, Nat.mul_zero] at hlen
    exact hbits (List.length_eq_zero_iff.1 (by omega))
  obtain ⟨tail, htail, hp⟩ := stripPayload_some h
  have hall : stripped ++ (tail ++ byteBits ((packPadded bits).getLast hdata)) =
      bits ++ zeros (padding bits.length) := by
    rw [← unpack_packPadded]
    conv_rhs => rw [← List.dropLast_append_getLast hdata]
    rw [unpack, List.flatMap_append, ← unpack, htail, List.flatMap_singleton, List.append_assoc]
  have hlen := congrArg List.length hall
  simp only [List.length_append, byteBits_length, hp, zeros, List.length_replicate] at hlen
  obtain ⟨more, rfl⟩ : stripped <+: bits :=
    List.prefix_of_prefix_length_le ⟨_, hall⟩ (List.prefix_append _ _) (by omega)
  refine ⟨more, fun hnil => ?_, rfl⟩
  simp [hnil] at hlen

/-! The rule's answers (R103, R108) -/

theorem decodeRule_of_malformed {s : State} (hr : rangeOk .decode s = true) (hp : parseHeader (srcBytes s) = none) :
    decodeRule s = .error .malformedHeader := by rw [decodeRule, if_pos hr, hp]

theorem decodeRule_of_small {s : State} {h : Header} (hr : rangeOk .decode s = true)
    (hp : parseHeader (srcBytes s) = some h) (hcap : s.dstCap.toNat < totalCount h.freq) :
    decodeRule s = .error .capacity := by
  rw [decodeRule, if_pos hr, hp]
  exact if_pos hcap

theorem decodeRule_of_corrupt {s : State} {h : Header} (hr : rangeOk .decode s = true)
    (hp : parseHeader (srcBytes s) = some h) (hcap : totalCount h.freq ≤ s.dstCap.toNat)
    (hd : decodePayload h = none) : decodeRule s = .error .corruptStream := by
  rw [decodeRule, if_pos hr, hp]
  exact (if_neg (Nat.not_lt.2 hcap)).trans (by rw [hd])

/-- With its checks passed, DECODE succeeds (R103). -/
theorem decodeRule_of_decoded {s : State} {h : Header} {out : List Byte} (hr : rangeOk .decode s = true)
    (hp : parseHeader (srcBytes s) = some h) (hcap : totalCount h.freq ≤ s.dstCap.toNat)
    (hd : decodePayload h = some out) :
    decodeRule s = .ok
      { builder := loadBuilder h.freq, dmem := memWrite s.dmem s.dstAddr.toNat out, outLen := out.length, pad := h.pad,
        hdrLen := h.len, dataLen := h.data.length } := by
  rw [decodeRule, if_pos hr, hp]
  exact (if_neg (Nat.not_lt.2 hcap)).trans (by rw [hd])

/-- The payload is corrupt where no bits are left after the strip, where they are not codes, or where these are not as
many as TOTAL says (R99, R100, R102). -/
theorem decodePayload_eq_none {h : Header}
    (hbad : ∀ bits out, stripPayload h.data h.pad = some bits →
      walk bits (loadBuilder h.freq).codes (maxCodeLength (loadBuilder h.freq).codes) = some out →
      out.length ≠ totalCount h.freq) : decodePayload h = none :=
  Option.eq_none_iff_forall_ne_some.2 fun out hout => by
    obtain ⟨bits, hstrip, hwalk, hlen⟩ := decodePayload_some hout
    exact hbad bits out hstrip hwalk hlen

/-! Success (R103) -/

/-- What a successful DECODE of a stream with the header `h` to the bytes `out` leaves in the builder state and the
result registers (R103). -/
structure HoldsDecoded (h : Header) (out : List Byte) (t : State) : Prop where
  builder : t.builder = loadBuilder h.freq
  outLen : t.outLen.toNat = out.length
  pad : t.pad.toNat = h.pad
  hdrLen : t.hdrLen.toNat = h.len
  dataLen : t.dataLen.toNat = h.data.length

/-- An accepted header's lengths fit the result registers (R28-R31): the data is part of the SRC bytes. -/
theorem parseHeader_fits {s : State} {h : Header} (hp : parseHeader (srcBytes s) = some h) :
    h.pad < 2 ^ 3 ∧ h.len < 2 ^ 11 ∧ h.data.length < 2 ^ 32 := by
  obtain ⟨hbytes, -, hlen, -, hn, -, hpad⟩ := (parserAcceptsExactlyEncodedHeaders _ _).1 hp
  have hsrc : (srcBytes s).length = s.srcLen.toNat := memRead_length ..
  have hfits := s.srcLen.isLt
  rw [hbytes, List.length_append] at hsrc
  omega

/-- A DECODE whose checks pass ends with success (R103). -/
theorem exec_decode_of_decoded {s : State} {h : Header} {out : List Byte} (hr : rangeOk .decode s = true)
    (hp : parseHeader (srcBytes s) = some h) (hcap : totalCount h.freq ≤ s.dstCap.toNat)
    (hd : decodePayload h = some out) :
    ∃ t, exec .decode s = .next t ∧ HoldsDecoded h out t ∧ t.dmem = memWrite s.dmem s.dstAddr.toNat out ∧
      flagsDone s t ∧ completionKeeps s t := by
  have hexec := exec_of_ok (i := .decode) (decodeRule_of_decoded hr hp hcap hd)
  refine ⟨_, hexec, ?_, rfl, successCompletion_flagsDone _ s, exec_completionKeeps hexec⟩
  obtain ⟨hpad, hlen, hdata⟩ := parseHeader_fits hp
  obtain ⟨-, -, -, hout⟩ := decodePayload_some hd
  have hfits := s.dstCap.isLt
  constructor
  · rfl
  · simp only [successCompletion_outLen, BitVec.toNat_ofNat]
    exact Nat.mod_eq_of_lt (by omega)
  · simp only [successCompletion_pad, BitVec.toNat_ofNat]
    exact Nat.mod_eq_of_lt hpad
  · simp only [successCompletion_hdrLen, BitVec.toNat_ofNat]
    exact Nat.mod_eq_of_lt hlen
  · simp only [successCompletion_dataLen, BitVec.toNat_ofNat]
    exact Nat.mod_eq_of_lt hdata

/-- Settles O55: the strip, the four errors, and the success completion with the decoded bytes. -/
theorem decodeCommand : Obligations.DecodeCommand := by
  refine ⟨fun w => decode_eq_ok_iff, fun data p => ⟨stripPayload_eq_none_iff data p, ?_⟩, ?_⟩
  · rintro bits tail hunpack rfl
    exact stripPayload_of_unpack hunpack
  rintro s stream hwf rfl
  refine ⟨fun hr => ?_, fun hr hp => ?_, ?_⟩
  · exact exec_failedClearingBuilder rfl (ruleOf_of_rangeOk_false hr)
  · exact exec_failedClearingBuilder (i := .decode) rfl (decodeRule_of_malformed hr hp)
  rintro h c hr hp rfl
  refine ⟨fun hcap => ?_, fun hcap hbad => ?_, fun bits out hcap hstrip hwalk hlen => ?_⟩
  · exact exec_failedClearingBuilder (i := .decode) rfl (decodeRule_of_small hr hp hcap)
  · exact exec_failedClearingBuilder (i := .decode) rfl (decodeRule_of_corrupt hr hp hcap (decodePayload_eq_none hbad))
  · obtain ⟨t, hexec, hres, hmem, hflags, hkeeps⟩ :=
      exec_decode_of_decoded hr hp hcap (decodePayload_eq hstrip hwalk hlen)
    refine ⟨t, hexec, hres.builder, by rw [hres.builder]; rfl, by rw [hres.builder]; rfl, hres.outLen, hres.pad,
      hres.hdrLen, hres.dataLen, fun i hi => ?_, fun a ha => ?_, hflags, hkeeps⟩
    · rw [hmem]
      exact memWrite_read_inside hwf _ _ hi
    · rw [hmem]
      exact memWrite_read_outside _ _ _ ha

/-! Streams that ENCODE wrote (R104, R105) -/

/-- The header of the stream of a byte list, followed by these data bytes (R95, R98). -/
def headerOf (d data : List Byte) : Header where
  freq := countBytes d
  n := distinctSymbols (countBytes d)
  len := 2 + 5 * distinctSymbols (countBytes d)
  pad := (streamOf d).pad
  data := data

/-- The parser accepts the header and PAD byte of a stream, whatever data bytes follow (R98). -/
theorem parseHeader_streamOf {d : List Byte} (hd : d ≠ []) (hlen : d.length < 2 ^ 32) (data : List Byte) :
    parseHeader ((streamOf d).hdr ++ [BitVec.ofNat 8 (streamOf d).pad] ++ data) = some (headerOf d data) :=
  parseHeader_header (distinctSymbols_countBytes_pos hd) (by rw [totalCount_countBytes]; omega) (streamOf_pad_le d) data

/-- The walk of the codes of a byte list, with the codes derived from its own counts, gives the list (R93, R100). -/
theorem walk_encoderCodes {d : List Byte} (hd : d ≠ []) :
    walk (concatCodes d (loadBuilder (countBytes d)).codes) (loadBuilder (countBytes d)).codes
      (maxCodeLength (loadBuilder (countBytes d)).codes) = some d :=
  (prefixFree_deriveCodes (distinctSymbols_countBytes_pos hd)).walk_concatCodes fun _ hx =>
    List.length_pos_iff.1 (encoderCode_length_pos hx)

/-- The payload of a stream decodes to the encoded bytes (R104). -/
theorem decodePayload_streamOf {d : List Byte} (hd : d ≠ []) :
    decodePayload (headerOf d (streamOf d).data) = some d :=
  decodePayload_eq (stripPayload_packPadded _) (walk_encoderCodes hd) (totalCount_countBytes d).symm

/-- Without its last byte, the payload of a stream is corrupt: what is left of it decodes, if at all, to too few bytes
(R105). -/
theorem decodePayload_truncated {d : List Byte} (hd : d ≠ []) :
    decodePayload (headerOf d (streamOf d).data.dropLast) = none := by
  refine decodePayload_eq_none fun bits out hstrip hwalk => ?_
  obtain ⟨more, hmore, hbits⟩ :=
    stripPayload_dropLast_packPadded (List.length_pos_iff.1 (concatCodes_length_pos hd)) hstrip
  have hall := walk_encoderCodes hd
  rw [hbits] at hall
  have hlt := walk_length_lt_of_append hall hmore hwalk
  exact (hlt.trans_eq (totalCount_countBytes d).symm).ne

/-- An ENCODE that ends with DONE had SRC bytes, and no more than fit SRC_LEN (R96). -/
theorem srcBytes_of_encode_done {s t : State} (h : exec .encode s = .next t) (hdone : t.done = true) :
    srcBytes s ≠ [] ∧ (srcBytes s).length = s.srcLen.toNat := by
  rcases exec_cases h with ⟨u, hok, rfl⟩ | ⟨e, -, rfl⟩
  · obtain ⟨-, h0, -⟩ := encodeRule_ok hok
    have hlen : (srcBytes s).length = s.srcLen.toNat := memRead_length ..
    refine ⟨fun hnil => h0 ?_, hlen⟩
    rw [hnil] at hlen
    exact BitVec.eq_of_toNat_eq hlen.symm
  · simp at hdone

/-- Settles O57: the stream's header and payload are those of the encoded bytes. -/
theorem decodeInvertsEncode : Obligations.DecodeInvertsEncode := by
  intro s t u hwf hwf' hexec hdone hsrc hr hcap
  obtain ⟨hne, hlen⟩ := srcBytes_of_encode_done hexec hdone
  obtain ⟨henc, hread⟩ := exec_encode_done hwf hexec hdone
  have hparse := parseHeader_streamOf hne (hlen ▸ s.srcLen.isLt) (streamOf (srcBytes s)).data
  rw [← Stream.bytes, ← hread, ← hsrc] at hparse
  have htotal : totalCount (countBytes (srcBytes s)) ≤ u.dstCap.toNat := by rwa [totalCount_countBytes, hlen]
  obtain ⟨v, hexec', hdec, hmem, hflags, -⟩ := exec_decode_of_decoded hr hparse htotal (decodePayload_streamOf hne)
  obtain ⟨-, hdone', -⟩ := hflags
  refine ⟨v, hexec', hdone', BitVec.eq_of_toNat_eq (hdec.outLen.trans hlen), ?_,
    BitVec.eq_of_toNat_eq (hdec.pad.trans henc.pad.symm), BitVec.eq_of_toNat_eq (hdec.hdrLen.trans ?_),
    BitVec.eq_of_toNat_eq (hdec.dataLen.trans henc.dataLen.symm), hdec.builder.trans henc.builder.symm⟩
  · rw [hdec.outLen, hmem, memRead_memWrite hwf']
  · exact (henc.hdrLen.trans (streamOf_hdr_length _)).symm

theorem memRead_pred (m : Memory) (a n : Nat) : memRead m a (n - 1) = (memRead m a n).dropLast := by
  cases n with
  | zero => rfl
  | succ n => simp [memRead, List.range_succ]

/-- Settles O58: the header is whole, and the payload lacks its last byte. -/
theorem truncatedStreamIsRejected : Obligations.TruncatedStreamIsRejected := by
  intro s t u hwf hexec hdone hsrc hr
  obtain ⟨hne, hlen⟩ := srcBytes_of_encode_done hexec hdone
  obtain ⟨henc, hread⟩ := exec_encode_done hwf hexec hdone
  obtain ⟨-, -, hdata, -⟩ := encodedStreamLengths (srcBytes s) hne
  have hparse := parseHeader_streamOf hne (hlen ▸ s.srcLen.isLt) (streamOf (srcBytes s)).data.dropLast
  rw [← List.dropLast_append_of_ne_nil (List.length_pos_iff.1 hdata), ← Stream.bytes, ← hread, ← memRead_pred,
    ← hsrc] at hparse
  have htotal : t.builder.total.toNat = totalCount (countBytes (srcBytes s)) := by
    have hfit : totalCount (countBytes (srcBytes s)) < 2 ^ 32 := by
      rw [totalCount_countBytes, hlen]
      exact s.srcLen.isLt
    rw [henc.builder]
    exact (BitVec.toNat_ofNat _ _).trans (Nat.mod_eq_of_lt hfit)
  rw [htotal]
  rcases Nat.lt_or_ge u.dstCap.toNat (totalCount (countBytes (srcBytes s))) with hsmall | hroom
  · obtain ⟨v, hv, hfail⟩ := exec_failedClearingBuilder (i := .decode) rfl (decodeRule_of_small hr hparse hsmall)
    exact ⟨v, hv, fun hroom => absurd hsmall (Nat.not_lt.2 hroom), fun _ => hfail⟩
  · obtain ⟨v, hv, hfail⟩ := exec_failedClearingBuilder (i := .decode) rfl
      (decodeRule_of_corrupt hr hparse hroom (decodePayload_truncated hne))
    exact ⟨v, hv, fun _ => hfail, fun hsmall => absurd hsmall (Nat.not_lt.2 hroom)⟩

end Sys2Proof.Machine
end

section
/-! Error completions, by whether the command writes DST (R107), and the interrupt output (R111). -/

namespace Sys2Proof.Machine

/-! Error completions (R107) -/

theorem errorCompletion_resultsZero (c : Bool) (e : CmdError) (s : State) : resultsZero (errorCompletion c e s) :=
  ⟨rfl, rfl, rfl, rfl⟩

theorem errorCompletion_completionKeeps (c : Bool) (e : CmdError) (s : State) :
    completionKeeps s (errorCompletion c e s) :=
  ⟨rfl, rfl, rfl, rfl, rfl, rfl, rfl, rfl, rfl, rfl, rfl⟩

theorem errorCompletion_failedClearingBuilder (e : CmdError) (s : State) :
    failedClearingBuilder e.code s (errorCompletion true e s) :=
  ⟨errorCompletion_flagsError true e s, errorCompletion_resultsZero true e s, rfl, fun _ => rfl,
    errorCompletion_completionKeeps true e s⟩

theorem errorCompletion_failedKeepingBuilder (e : CmdError) (s : State) :
    failedKeepingBuilder e.code s (errorCompletion false e s) :=
  ⟨errorCompletion_flagsError false e s, errorCompletion_resultsZero false e s, rfl, fun _ => rfl,
    errorCompletion_completionKeeps false e s⟩

/-- DONE is 0 only after an error completion (R76, R107). -/
theorem exec_error_of_not_done {i : Instr} {s t : State} (h : exec i s = .next t) (hdone : t.done = false) :
    ∃ e, ruleOf i s = .error e ∧ t = errorCompletion (writesDst i) e s := by
  rcases exec_cases h with ⟨u, -, rfl⟩ | herror
  · simp at hdone
  · exact herror

/-- Settles O30: the commands that write DST clear the builder state; the others and an illegal OPCODE keep it. -/
theorem errorCompletionEffect : Obligations.ErrorCompletionEffect := by
  refine ⟨fun i s t hexec hdone => ?_, fun s =>
    ⟨_, execIllegal_eq s, errorCompletion_failedKeepingBuilder .illegalCommand s⟩⟩
  obtain ⟨e, -, rfl⟩ := exec_error_of_not_done hexec hdone
  refine ⟨fun hi => ?_, fun hne hnd => ?_⟩
  · rw [(writesDst_eq_true_iff i).2 hi]
    exact errorCompletion_failedClearingBuilder e s
  · have hi : writesDst i = false := Bool.eq_false_iff.2 (mt (writesDst_eq_true_iff i).1 (not_or.2 ⟨hne, hnd⟩))
    rw [hi]
    exact errorCompletion_failedKeepingBuilder e s

/-! The interrupt output (R111) -/

theorem readReg_ctrl_irqEn (s : State) : (readReg s .ctrl).getLsbD 2 = s.irqEn := by
  rw [readReg_ctrl]
  cases s.irqEn <;> rfl

/-- Settles O17: the three bits are the fields that `irq` is made of. -/
theorem irqIsEnabledDoneOrErr : Obligations.IrqIsEnabledDoneOrErr := by
  intro s
  obtain ⟨-, hdone, herr, -⟩ := statusWord_flags s
  rw [readReg_ctrl_irqEn, readReg, hdone, herr, irq]

end Sys2Proof.Machine
end

section
/-! Reset (R44, R122-R124): the reset values, the DMEM bytes of an abandoned command, and the block held in its reset
state while `rst` = 1. -/

namespace Sys2Proof.Machine

/-! The reset values (R44, R123) -/

/-- No bit of the empty code is 1 (R41). -/
theorem codeBitsWord_nil (w : Nat) : codeBitsWord [] w = 0 := by
  have hzero : ((List.range 32).map fun j => ([] : BitString).getD (32 * w + j) false) = zeros 32 := rfl
  rw [codeBitsWord, hzero]
  decide

/-- Every word of the empty code reads 0 (R41). -/
theorem codeWord_nil (w : Nat) : codeWord [] w = 0 := by
  rw [codeWord, codeBitsWord_nil, ite_self]
  exact ite_self 0

/-- STATUS after reset (R44). -/
theorem statusWord_reset : statusWord State.reset = 0 := by decide

/-- The register map after reset: the windows show an empty builder state (R44), every other register its own value. -/
theorem readReg_resetBlock (s : State) (r : Reg) : readReg (resetBlock s) r = resetValue r := by
  cases r with
  | freq x => exact Table.entry_replicate 0 x
  | nodeWeight i => exact (readReg_node_none (Nat.zero_le _)).1
  | nodeLink i => exact (readReg_node_none (Nat.zero_le _)).2
  | code x w =>
    have hempty : (resetBlock s).builder.codes.entry x = [] := Table.entry_replicate [] x
    rw [readReg, hempty]
    exact codeWord_nil w
  | status => exact statusWord_reset
  | _ => rfl

/-- Unless ENCODE or DECODE is running, a reset does not touch DMEM (R123, R124). -/
theorem resetBlock_dmem_of_not_dstInUse {s : State}
    (h : ¬(s.busy = true ∧ (selected s = some .encode ∨ selected s = some .decode))) : (resetBlock s).dmem = s.dmem := by
  rw [resetBlock_dmem, abandonedBytes, if_neg (mt (dstInUse_iff s).1 h), memScramble]

/-- Settles O18: the register map of the reset state, and a reset that abandons no ENCODE or DECODE. -/
theorem resetGivesResetValues : Obligations.ResetGivesResetValues := by
  refine fun s => ⟨atReset_resetBlock s, readReg_resetBlock s, by simp [irq], fun hnone =>
    resetBlock_dmem_of_not_dstInUse ?_⟩
  rintro ⟨hbusy, hsel⟩
  rcases hnone with hidle | ⟨hne, hnd⟩
  · simp [hidle] at hbusy
  · exact hsel.elim hne hnd

/-! A reset while BUSY (R124) -/

/-- Of a running ENCODE or DECODE the bytes of the DST range that exist are abandoned (R46, R124). -/
theorem abandonedBytes_of_dstInUse {s : State} (h : dstInUse s = true) :
    abandonedBytes s = min s.dstCap.toNat (s.cfg.memBytes - s.dstAddr.toNat) := by
  rw [abandonedBytes, if_pos h]

/-- A byte of the abandoned range is free, from the draw at its place in the range (R124, log entry 2). -/
theorem resetBlock_read_abandoned {s : State} (hwf : Memory.wf s.dmem) {i : Nat} (hi : i < abandonedBytes s) :
    (resetBlock s).dmem.read (s.dstAddr.toNat + i) = Config.freeByte (s.draws + i) :=
  memScramble_read_inside hwf _ _ _ hi

/-- Settles O19: the abandoned bytes are those of the DST range below MEM_BYTES, and every other byte is kept. -/
theorem resetWhileBusyFreesTheDstRange : Obligations.ResetWhileBusyFreesTheDstRange := by
  refine fun s hwf hbusy => ⟨resetBlock_busy s, resetBlock_done s, resetBlock_err s, fun hsel a => ?_,
    fun hne hnd a => ?_⟩
  · have hcount := abandonedBytes_of_dstInUse ((dstInUse_iff s).2 ⟨hbusy, hsel⟩)
    refine ⟨fun ⟨hlo, hcap, hmem⟩ => ?_, fun hout => memScramble_read_outside _ _ _ _ (by omega)⟩
    have hplace : a - s.dstAddr.toNat < abandonedBytes s := by omega
    have hfree := resetBlock_read_abandoned hwf hplace
    rw [Nat.add_sub_cancel' hlo] at hfree
    exact ⟨hfree, Nat.add_lt_add_left hplace _⟩
  · rw [resetBlock_dmem_of_not_dstInUse fun ⟨_, hsel⟩ => hsel.elim hne hnd]

/-! The `rst` input (R122) -/

/-- While `rst` = 1 an entry of the inbox is a level of `rst`, or changes no more than DMEM and the reply: the block
answers no register access (R127 H5) and the engine has no turn. -/
theorem act_of_rst {e : Event} {s t : State} (hr : s.rst = true) (ht : act e s = .next t) :
    (∃ level, e = .rst level) ∨ ∃ m r, t = { s with dmem := m, reply := r } := by
  cases e with
  | regWrite addr bits v | regRead addr bits =>
    obtain ⟨_, -, -, -, -, hreleased, -⟩ := withAccess_next ht
    simp [hr] at hreleased
  | memWrite addr bytes =>
    obtain ⟨-, -, -, rfl⟩ := hostMemWrite_next ht
    exact .inr ⟨_, _, rfl⟩
  | memRead addr n =>
    obtain ⟨-, -, rfl⟩ := hostMemRead_next ht
    exact .inr ⟨_, _, rfl⟩
  | rst level => exact .inl ⟨level, rfl⟩
  | engineTurn =>
    cases (engineTurn_of_not_running (.inr hr)).symm.trans ht
    exact .inr ⟨_, _, rfl⟩

/-- The reset state lasts through an entry of the inbox while `rst` = 1 (R122). -/
theorem atReset.act {e : Event} {s t : State} (h : atReset s) (hr : s.rst = true) (ht : act e s = .next t) :
    atReset t := by
  rcases act_of_rst hr ht with ⟨level, rfl⟩ | ⟨m, r, rfl⟩
  · cases level <;> cases ht
    · exact h.of_eq rfl
    · exact (atReset_resetBlock s).of_eq rfl
  · exact h.of_eq rfl

/-- Only an entry of the inbox that releases `rst` ends `rst` = 1 (R122). -/
theorem act_keeps_rst {e : Event} {s t : State} (he : e ≠ .rst false) (hr : s.rst = true) (ht : act e s = .next t) :
    t.rst = true := by
  rcases act_of_rst hr ht with ⟨level, rfl⟩ | ⟨m, r, rfl⟩
  · cases level
    · exact absurd rfl he
    · cases ht
      rfl
  · exact hr

/-- Settles O21: a level of `rst` is what `setRst` does, and the reset state is kept by the first entry of the inbox, or by
the engine's turn where there is none. -/
theorem rstHoldsTheResetState : Obligations.RstHoldsTheResetState := by
  refine ⟨fun s es => ⟨step_cons, step_cons⟩, atReset_resetBlock, fun s => ⟨rfl, rfl⟩, fun s t hr hat hstep => ?_,
    fun s t hr hheld hstep => ?_⟩
  · cases hinbox : s.inbox with
    | nil => exact hat.act (e := .engineTurn) hr ((step_nil hinbox).symm.trans hstep)
    | cons e es => exact (hat.of_eq rfl : atReset { s with inbox := es }).act hr (step_cons hinbox ▸ hstep)
  · cases hinbox : s.inbox with
    | nil => exact act_keeps_rst (e := .engineTurn) nofun hr ((step_nil hinbox).symm.trans hstep)
    | cons e es =>
      have he : e ≠ .rst false := fun heq => hheld es (heq ▸ hinbox)
      exact act_keeps_rst (s := { s with inbox := es }) he hr (step_cons hinbox ▸ hstep)

end Sys2Proof.Machine
end

section
/-! Hazardous DMEM accesses fault (R127 H1, H2), and every command completes (R132). -/

namespace Sys2Proof.Machine

/-! Hazards (R127) -/

theorem hostMemWrite_srcHazard {s : State} {addr : Nat} {bytes : List Byte}
    (hin : addr + bytes.length ≤ s.cfg.memBytes) (hsrc : meetsSrc s addr bytes.length = true) :
    hostMemWrite addr bytes s = .fault .srcHazard := by
  rw [hostMemWrite, if_neg (by simp [inMemory_of_le hin]), if_pos hsrc]

/-- A write that meets the DST range faults, as a fault of the SRC range where it meets both (log entry 14). -/
theorem hostMemWrite_dstHazard {s : State} {addr : Nat} {bytes : List Byte}
    (hin : addr + bytes.length ≤ s.cfg.memBytes) (hdst : meetsDst s addr bytes.length = true) :
    hostMemWrite addr bytes s = .fault .srcHazard ∨ hostMemWrite addr bytes s = .fault .dstHazard := by
  by_cases hsrc : meetsSrc s addr bytes.length = true
  · exact .inl (hostMemWrite_srcHazard hin hsrc)
  · exact .inr (by rw [hostMemWrite, if_neg (by simp [inMemory_of_le hin]), if_neg hsrc, if_pos hdst])

theorem hostMemRead_dstHazard {s : State} {addr n : Nat} (hin : addr + n ≤ s.cfg.memBytes)
    (hdst : meetsDst s addr n = true) : hostMemRead addr n s = .fault .dstHazard := by
  rw [hostMemRead, if_neg (by simp [inMemory_of_le hin]), if_pos hdst]

/-- Settles O23: the byte `x` is one that the access shares with the range. -/
theorem hazardousDmemAccessesFault : Obligations.HazardousDmemAccessesFault := by
  refine fun s addr x bytes n hbusy => ⟨fun hin hlo hhi hsel hsrcLo hsrcHi => ?_, fun hsel hdstLo hdstHi =>
    ⟨fun hin hlo hhi => ?_, fun hin hlo hhi => ?_⟩⟩
  · exact hostMemWrite_srcHazard hin ((meetsSrc_iff s addr _).2 ⟨⟨hbusy, hsel⟩, x, hlo, hhi, hsrcLo, hsrcHi⟩)
  · exact hostMemRead_dstHazard hin ((meetsDst_iff s addr _).2 ⟨⟨hbusy, hsel⟩, x, hlo, hhi, hdstLo, hdstHi⟩)
  · exact hostMemWrite_dstHazard hin ((meetsDst_iff s addr _).2 ⟨⟨hbusy, hsel⟩, x, hlo, hhi, hdstLo, hdstHi⟩)

/-! Completion (R132) -/

/-- Settles O28: success updates complete with DONE, an error with its code, which is 1..7. -/
theorem everyCommandCompletes : Obligations.EveryCommandCompletes := by
  intro i s
  cases hrule : ruleOf i s with
  | ok u => exact ⟨_, exec_of_ok hrule, rfl, .inl rfl⟩
  | error e => exact ⟨_, exec_of_error hrule, rfl, .inr ⟨rfl, rfl, e.code_bounds⟩⟩

end Sys2Proof.Machine
end
